-- ==== Sys2Proof/Word.lean ====
section
/-! DEFINITION. The word types of the block (00_scope.md R5 to R7). -/

namespace Sys2Proof

/-- A 32-bit word: a body word, a sample, a register value (R5, R7). -/
abbrev Word := BitVec 32

/-- A byte of the body memory (R53). -/
abbrev Byte := BitVec 8

/-- A byte address of the block's 20-bit host address space (R50): an offset in the block's window. -/
abbrev Addr := BitVec 20

/-- A 2-bit code of a control word, the source's "nibble" (R6, R10). -/
abbrev Code := BitVec 2

/-- The 7-bit selector key of R89: F0, WI, code, with F0 in the top bit. -/
abbrev Key := BitVec 7

end Sys2Proof
end

