-- ==== Sys2Proof/Config.lean ====
section
/-! DEFINITION. What is fixed when the block is built (R5), and the values the spec leaves open. -/

namespace Sys2Proof.Config

/-- WORD_BITS of R5. -/
def wordBits : Nat := 32
/-- FRAME_BYTES of R5. -/
def frameBytes : Nat := 64
/-- WORDS_PER_FRAME of R5: word 0 is the control word, words 1 to 15 are data words. -/
def wordsPerFrame : Nat := 16
/-- BODY_CAP of R5: the bytes of the body memory. -/
def bodyCap : Nat := 65536
/-- MAX_FRAMES of R5: the most frames a 16-bit body length can hold. -/
def maxFrames : Nat := 1023
/-- SAMPLE_CAP of R5: the 32-bit entries of the sample memory. -/
def sampleCap : Nat := 65536
/-- HOST_ADDR_BITS of R5. -/
def hostAddrBits : Nat := 20
/-- Host address of body byte 0 (R50). -/
def bodyBase : Nat := 0x10000
/-- Host address of sample entry 0 (R50). -/
def sampleBase : Nat := 0x40000
/-- The packet offset at which an NP packet's body starts (R67). -/
def packetBodyOffset : Nat := 51

/-- D0_POLICY (R5, R123): whether the first difference after X0 is integrated or discarded. -/
inductive D0Policy where
  | integrate
  | skip
  deriving DecidableEq, Repr, Inhabited

/-- SURPLUS_POLICY (R5, R122): whether a surplus lane is ignored or sets ERR_LEN. -/
inductive SurplusPolicy where
  | ignore
  | strict
  deriving DecidableEq, Repr, Inhabited

/-- The two build parameters, OPEN in 92_eei_decisions.md (D9, D10). -/
structure Build where
  d0      : D0Policy
  surplus : SurplusPolicy
  deriving DecidableEq, Repr, Inhabited

/-- The build of the block under study. It has no body: nothing can be proved of it, so a statement about
`exec` or `step` holds for every build (R5, assumption 1). The operations of `Machine` take the build as an
argument. That all instances of a platform have this one build is the model's choice (assumption 28). -/
opaque build : Build

/-- FREE VALUE. What a memory byte that nothing has written since the last hardware reset reads as, by the number
of hardware resets so far and the byte's host address (R53, 93 I11, assumption 6). No instance enters it, so two
instances of a platform with equal reset counts have the same unwritten bytes, a point the spec leaves open: the
model's choice (assumption 27). -/
opaque freeByte (resets addr : Nat) : Byte

/-- FREE VALUE. What a host read of a sample entry at or beyond CNT returns, by the draw index of the state and the
entry (R57, 93 I12, assumption 7). No instance enters it, so two instances of a platform with equal draw indices read
the same stale samples, a point the spec leaves open: the model's choice (assumption 27). -/
opaque staleSample (draws entry : Nat) : Word

end Sys2Proof.Config
end

