-- ==== Sys2Proof/Syntax.lean ====
section
/-! DEFINITION. The instructions: one constructor per row of spec/opcode_table.json (R89, R91). -/

namespace Sys2Proof

/-- An instruction of the block. The first seven are words of the body, selected by the 7-bit key of R89; the last
three are host writes to CTRL, selected by the written value (R91).

A body word carries what its key leaves free (`f0`: the word is in frame 0; `wi`: its index in the frame;
`code`: a code the row ignores) and, where the row reads the word, the 32-bit word itself. A CTRL write carries
the bits of the written value that its row ignores. No meaning depends on a field that the spec calls ignored
(assumption 17). -/
inductive Instr where
  /-- Word 0 of a frame, the control word (R101). `code` is the key's code, which the row ignores. -/
  | ctrl (f0 : Bool) (code : Code) (w : Word)
  /-- Word 1 of frame 0, the forward integration constant X0 (R102). `code` is c1, ignored (R85). -/
  | icx0 (code : Code) (w : Word)
  /-- Word 2 of frame 0, the reverse integration constant Xn (R102). `code` is c2, ignored (R85). -/
  | icxn (code : Code) (w : Word)
  /-- A data word with code 00 (R104). The word itself is not read. -/
  | stop (f0 : Bool) (wi : BitVec 4)
  /-- A data word with code 01: four 8-bit differences (R124). -/
  | d8x4 (f0 : Bool) (wi : BitVec 4) (w : Word)
  /-- A data word with code 10: two 16-bit differences (R125). -/
  | d16x2 (f0 : Bool) (wi : BitVec 4) (w : Word)
  /-- A data word with code 11: one 32-bit difference (R126). -/
  | d32x1 (f0 : Bool) (wi : BitVec 4) (w : Word)
  /-- A CTRL write with v[1] = 1 (R154, R155). `ignored` is v[31:2], `startBit` is v[0]. -/
  | srst (ignored : BitVec 30) (startBit : Bool)
  /-- A CTRL write with v[1:0] = 01 (R151). `ignored` is v[31:2]. -/
  | start (ignored : BitVec 30)
  /-- A CTRL write with v[1:0] = 00 (R150). `ignored` is v[31:2]. -/
  | ctrlNop (ignored : BitVec 30)
  deriving DecidableEq, Repr

end Sys2Proof
end

