-- ==== Sys2Proof/WellFormed.lean ====
section
/-! DEFINITION. Which instruction terms stand for an encoding (R89). -/

namespace Sys2Proof

/-- The position of a data word (R85, R89): not word 0 of a frame, and in frame 0 neither word 1 nor word 2, whose
codes are ignored. -/
abbrev IsDataPosition (f0 : Bool) (wi : BitVec 4) : Prop :=
  wi ≠ 0 ∧ ¬(f0 = true ∧ (wi = 1 ∨ wi = 2))

/-- A STOP or difference instruction stands at a data position. Every other term is well-formed. -/
def Instr.wellFormed (i : Instr) : Bool :=
  match i with
  | .ctrl _ _ _ => true
  | .icx0 _ _ => true
  | .icxn _ _ => true
  | .stop f0 wi => decide (IsDataPosition f0 wi)
  | .d8x4 f0 wi _ => decide (IsDataPosition f0 wi)
  | .d16x2 f0 wi _ => decide (IsDataPosition f0 wi)
  | .d32x1 f0 wi _ => decide (IsDataPosition f0 wi)
  | .srst _ _ => true
  | .start _ => true
  | .ctrlNop _ => true

end Sys2Proof
end

