-- ==== Sys2Proof/Decode.lean ====
section
/-! DEFINITION. Decoding and encoding: codes (R82), the selector key and the opcode map (R89), CTRL writes (R91),
the big-endian layout of a word (R55). No encoding is illegal (R90): only a byte list of the wrong shape is
rejected, by name. -/

namespace Sys2Proof

/-- Four bytes as one word, the first the most significant (R55). -/
def wordOfBytes (b0 b1 b2 b3 : Byte) : Word := b0 ++ b1 ++ b2 ++ b3

/-- Byte `j` (0 to 3) of a word in its big-endian layout (R53, R55): byte 0 is bits 31:24. -/
def byteOfWord (w : Word) (j : Nat) : Byte := w.extractLsb' (24 - 8 * j) 8

/-- The bytes of a word in the order in which the body holds them (R55). -/
def bytesOfWord (w : Word) : List Byte :=
  [byteOfWord w 0, byteOfWord w 1, byteOfWord w 2, byteOfWord w 3]

/-- Code `c_k` of a control word: `CW[31-2k : 30-2k]` (R82). -/
def codeAt (cw : Word) (k : BitVec 4) : Code := cw.extractLsb' (30 - 2 * k.toNat) 2

/-- The control word `cw` with code `c_k` replaced by `c` (R82). -/
def withCodeAt (cw : Word) (k : BitVec 4) (c : Code) : Word :=
  (cw &&& ~~~((3 : Word) <<< (30 - 2 * k.toNat))) ||| (c.setWidth 32 <<< (30 - 2 * k.toNat))

/-- The selector key `{F0, WI[3:0], code[1:0]}` of R89. -/
def selectorKey (f0 : Bool) (wi : BitVec 4) (code : Code) : Key := BitVec.ofBool f0 ++ wi ++ code

/-- F0 of a selector key: the word is in frame 0. -/
def Key.f0 (key : Key) : Bool := key.getLsbD 6

/-- WI of a selector key: the word's index in its frame. -/
def Key.wi (key : Key) : BitVec 4 := key.extractLsb' 2 4

/-- The code of a selector key. -/
def Key.code (key : Key) : Code := key.extractLsb' 0 2

/-- The operation that stands in each row of the opcode table. -/
inductive Op where
  | ctrl | icx0 | icxn | stop | d8x4 | d16x2 | d32x1 | srst | start | ctrlNop
  deriving DecidableEq, Repr

/-- A row of the opcode table: the row is selected by a value whose bits under `mask` are those of `pattern`. -/
structure Row (n : Nat) where
  op      : Op
  pattern : BitVec n
  mask    : BitVec n
  deriving DecidableEq, Repr

/-- Whether a value selects a row. -/
def Row.selects {n : Nat} (r : Row n) (v : BitVec n) : Bool := v &&& r.mask == r.pattern

/-- The first row, in the table's order, that a value selects. -/
def firstRow {n : Nat} (rows : List (Row n)) (v : BitVec n) : Option Op :=
  (rows.find? (·.selects v)).map Row.op

/-- The engine rows of the opcode table, in the order in which they are tried (R89). -/
def keyRows : List (Row 7) :=
  [⟨.ctrl, 0x00, 0x3C⟩, ⟨.icx0, 0x44, 0x7C⟩, ⟨.icxn, 0x48, 0x7C⟩, ⟨.stop, 0x00, 0x03⟩,
   ⟨.d8x4, 0x01, 0x03⟩, ⟨.d16x2, 0x02, 0x03⟩, ⟨.d32x1, 0x03, 0x03⟩]

/-- The host rows of the opcode table, in the order in which they are tried (R91). -/
def ctrlRows : List (Row 32) :=
  [⟨.srst, 0x2, 0x2⟩, ⟨.start, 0x1, 0x3⟩, ⟨.ctrlNop, 0x0, 0x3⟩]

/-- The row an instruction belongs to. -/
def Instr.op (i : Instr) : Op :=
  match i with
  | .ctrl _ _ _ => .ctrl
  | .icx0 _ _ => .icx0
  | .icxn _ _ => .icxn
  | .stop _ _ => .stop
  | .d8x4 _ _ _ => .d8x4
  | .d16x2 _ _ _ => .d16x2
  | .d32x1 _ _ _ => .d32x1
  | .srst _ _ => .srst
  | .start _ => .start
  | .ctrlNop _ => .ctrlNop

/-- What the block's two decoders are given: a body word with its selector key (R89), or a value written to CTRL
(R91). -/
inductive Encoding where
  | bodyWord (key : Key) (w : Word)
  | ctrlWrite (v : Word)
  deriving DecidableEq, Repr

/-- The opcode map of R89: the first row whose condition holds selects the operation. -/
def decodeBodyWord (key : Key) (w : Word) : Instr :=
  if key.wi = 0 then .ctrl key.f0 key.code w
  else if key.f0 = true ∧ key.wi = 1 then .icx0 key.code w
  else if key.f0 = true ∧ key.wi = 2 then .icxn key.code w
  else if key.code = 0 then .stop key.f0 key.wi
  else if key.code = 1 then .d8x4 key.f0 key.wi w
  else if key.code = 2 then .d16x2 key.f0 key.wi w
  else .d32x1 key.f0 key.wi w

/-- The command in a value written to CTRL (R91): `v[1]` is SRST, `v[0]` is START, `v[31:2]` is ignored. -/
def decodeCtrlWrite (v : Word) : Instr :=
  if v.getLsbD 1 then .srst (v.extractLsb' 2 30) (v.getLsbD 0)
  else if v.getLsbD 0 then .start (v.extractLsb' 2 30)
  else .ctrlNop (v.extractLsb' 2 30)

/-- The decoder: total, since no encoding is illegal (R90). -/
def decode (e : Encoding) : Instr :=
  match e with
  | .bodyWord key w => decodeBodyWord key w
  | .ctrlWrite v => decodeCtrlWrite v

/-- Why a list of bytes is no instruction. -/
inductive DecodeError where
  /-- The byte that should hold the 7-bit key has its top bit set. -/
  | keyTooWide
  /-- There are too few bytes for the key and the four bytes of the word. -/
  | truncated
  deriving DecidableEq, Repr

/-- An instruction read from a key byte and the word's four bytes in the body's order, with the bytes that follow
(R55, R89). -/
def decodeBytes : List Byte → Except DecodeError (Instr × List Byte)
  | k :: b0 :: b1 :: b2 :: b3 :: rest =>
    if k.getLsbD 7 then .error .keyTooWide
    else .ok (decodeBodyWord (k.setWidth 7) (wordOfBytes b0 b1 b2 b3), rest)
  | _ => .error .truncated

/-- The instruction the decoder reads from the table's bits: up to 8 bits are a selector key, whose word is zero;
9 to 32 bits are a value written to CTRL (assumption 15). -/
def decodeTableWord (nbits w : Nat) : Option Instr :=
  if nbits ≤ 8 then
    if w < 256 then
      match decodeBytes [BitVec.ofNat 8 w, 0, 0, 0, 0] with
      | .ok (i, _) => some i
      | .error _ => none
    else none
  else if nbits ≤ 32 ∧ w < 2 ^ 32 then some (decodeCtrlWrite (BitVec.ofNat 32 w))
  else none

/-- The value written to CTRL: `v[31:2]`, `v[1]`, `v[0]` (R91). -/
def ctrlValue (ignored : BitVec 30) (srstBit startBit : Bool) : Word :=
  ignored ++ BitVec.ofBool srstBit ++ BitVec.ofBool startBit

/-- The encoder, from the opcode table's rows (R89, R91). A STOP's word is written as zero (R92). -/
def encode (i : Instr) : Encoding :=
  match i with
  | .ctrl f0 code w => .bodyWord (selectorKey f0 0 code) w
  | .icx0 code w => .bodyWord (selectorKey true 1 code) w
  | .icxn code w => .bodyWord (selectorKey true 2 code) w
  | .stop f0 wi => .bodyWord (selectorKey f0 wi 0) 0
  | .d8x4 f0 wi w => .bodyWord (selectorKey f0 wi 1) w
  | .d16x2 f0 wi w => .bodyWord (selectorKey f0 wi 2) w
  | .d32x1 f0 wi w => .bodyWord (selectorKey f0 wi 3) w
  | .srst ignored startBit => .ctrlWrite (ctrlValue ignored true startBit)
  | .start ignored => .ctrlWrite (ctrlValue ignored false true)
  | .ctrlNop ignored => .ctrlWrite (ctrlValue ignored false false)

/-- The bytes of a body word's encoding: the key byte, then the word in the body's byte order. A CTRL write has
no bytes in the body. -/
def encodeBytes (i : Instr) : List Byte :=
  match encode i with
  | .bodyWord key w => key.setWidth 8 :: bytesOfWord w
  | .ctrlWrite _ => []

end Sys2Proof
end

