-- ==== Sys2Proof/Machine/State.lean ====
section
/-! DEFINITION. The state of the block (R20, R22 to R43), what the host can do to it, and the state after reset
(R41). -/

namespace Sys2Proof.Machine

/-- The engine's sequencing state (R37). The values 5, 6 and 7 of the 3-bit register are never reached, so they have
no constructor (assumption 12). -/
inductive Phase where
  | idle
  | frame
  | ic
  | word
  | finish
  deriving DecidableEq, Repr

/-- The width of a host access (R58). -/
inductive Width where
  | b8
  | b16
  | b32
  deriving DecidableEq, Repr

/-- A host-bus access at a byte address of the block's window (R8: MemRead and MemWrite). A write narrower than
32 bits carries its value in the low bits (assumption 25). -/
inductive Access where
  | read (width : Width) (addr : Addr)
  | write (width : Width) (addr : Addr) (value : Word)
  deriving DecidableEq, Repr

/-- What happens next in the total order of a run (R9, R61, R190): the engine has its turn, the host makes an access,
or the platform asserts the hardware reset (assumption 2). -/
inductive Turn where
  | engine
  | host (access : Access)
  | reset
  deriving DecidableEq, Repr

/-- The memories of the block, as one list of (host address, byte) pairs (R50): body byte `i` at `0x10000 + i`,
sample entry `k` as four bytes from `0x40000 + 4k`, the most significant first (assumption 5). An unlisted address
has no value of its own. -/
abbrev Memory := List Host.Cell

/-- The reasons for which a step faults: none. The block never traps (R171), no encoding is illegal (R90), and an
address outside the three regions reads as 0 (R51). Assumption 23. -/
inductive Fault where
  deriving DecidableEq, Repr

/-- The reasons for which a step is refused. -/
inductive Refusal where
  /-- Raised by an arm of `exec` whose instruction has no meaning yet. Safe: nothing can be proved of its effect. -/
  | notModelled (mnemonic : String)
  /-- Raised by a host turn whose access R58, R184 and 93 I13 refuse: it has no step, and the refusal names it. Safe:
  the run has no further state, so no claim about it can be proved (assumption 8). -/
  | refusedAccess (access : Access)
  deriving DecidableEq, Repr

/-- The state of the block (R20) and of what stands around it. -/
structure State where
  /-- NEXP bits 15:0, the expected sample count (R24). -/
  nexpCfg    : BitVec 16
  /-- BODY_LEN bits 15:0, the body's length in bytes (R25). -/
  bodyLenCfg : BitVec 16
  /-- STATUS bit 1 (R26). -/
  done       : Bool
  /-- STATUS bit 2 (R26). -/
  errSize    : Bool
  /-- STATUS bit 3 (R26). -/
  errLen     : Bool
  /-- STATUS bit 4 (R26). -/
  errInteg   : Bool
  /-- IE bit 0 (R28). -/
  doneIe     : Bool
  /-- The forward integration constant (R29). -/
  x0         : Word
  /-- The reverse integration constant (R29). -/
  xn         : Word
  /-- The integration accumulator (R30). -/
  acc        : Word
  /-- COUNT bits 15:0, the samples produced (R32). -/
  cnt        : BitVec 16
  /-- The expected count that START latched (R35). -/
  nexpL      : BitVec 16
  /-- The number of frames that START latched (R35). -/
  nfrL       : BitVec 11
  /-- The control-word latch (R36). -/
  cw         : Word
  /-- The engine's sequencing state (R37). -/
  phase      : Phase
  /-- The frame index of the cursor (R38). -/
  fi         : BitVec 10
  /-- The word index of the cursor (R38). -/
  wi         : BitVec 4
  /-- First difference pending (R39). -/
  d0p        : Bool
  /-- The body and sample memories (R53, R56). -/
  mem        : Memory
  /-- MODEL: the turns still to come, the next one first (assumption 2). -/
  turns      : List Turn
  /-- MODEL: the values host reads have returned, the latest first (assumption 14). -/
  returned   : List Word
  /-- MODEL: how many hardware resets there have been, the index of unwritten memory bytes (assumption 6). -/
  resets     : Nat
  /-- MODEL: how many engine steps and hardware resets there have been, the index of stale samples (assumption 7). -/
  draws      : Nat
  deriving DecidableEq, Repr

/-- The state after reset (R41, R190): every register 0, PHASE IDLE, memory with nothing listed. The model's own
four fields are empty or 0 (assumption 18). -/
def State.reset : State where
  nexpCfg    := 0
  bodyLenCfg := 0
  done       := false
  errSize    := false
  errLen     := false
  errInteg   := false
  doneIe     := false
  x0         := 0
  xn         := 0
  acc        := 0
  cnt        := 0
  nexpL      := 0
  nfrL       := 0
  cw         := 0
  phase      := .idle
  fi         := 0
  wi         := 0
  d0p        := false
  mem        := []
  turns      := []
  returned   := []
  resets     := 0
  draws      := 0

end Sys2Proof.Machine
end

