-- ==== Sys2Proof/Machine/Operands.lean ====
section
/-! DEFINITION. The operands of a data word: its lanes and their values (R84, R86, R87). -/

namespace Sys2Proof.Machine

/-- `sext_32` of R7: sign extension of an N-bit lane to 32 bits. -/
def sext32 {n : Nat} (lane : BitVec n) : Word := lane.signExtend 32

/-- `zext_32` of R7: zero extension to 32 bits. -/
def zext32 {n : Nat} (v : BitVec n) : Word := v.setWidth 32

/-- The N-bit lane whose top bit is `w[hi]` (R86). -/
def laneAt (n : Nat) (w : Word) (hi : Nat) : BitVec n := w.extractLsb' (hi + 1 - n) n

/-- The four differences of a D8X4 word, in the order in which they are integrated (R86, R87, R124). -/
def lanes8 (w : Word) : List Word :=
  [sext32 (laneAt 8 w 31), sext32 (laneAt 8 w 23), sext32 (laneAt 8 w 15), sext32 (laneAt 8 w 7)]

/-- The two differences of a D16X2 word (R86, R87, R125). -/
def lanes16 (w : Word) : List Word := [sext32 (laneAt 16 w 31), sext32 (laneAt 16 w 15)]

/-- The one difference of a D32X1 word: the lane is used as it is (R87, R126). -/
def lanes32 (w : Word) : List Word := [w]

/-- `Lanes(code, w)` of R103: the differences of a data word by its code (R84). Code 00 has none. -/
def lanes (code : Code) (w : Word) : List Word :=
  if code = 0 then [] else if code = 1 then lanes8 w else if code = 2 then lanes16 w else lanes32 w

end Sys2Proof.Machine
end

