-- ==== Sys2Proof/Machine/Flags.lean ====
section
/-! DEFINITION. Flags and the register views computed from the state: BUSY (R42), ERR_CODE (R27), STATUS (R26),
CURSOR (R33), PARAM (R31), irq (R178), and the conditions of the final checks (R141, R142). -/

namespace Sys2Proof.Machine

/-- The 3-bit value of PHASE (R37). -/
def Phase.bits (p : Phase) : BitVec 3 :=
  match p with
  | .idle => 0
  | .frame => 1
  | .ic => 2
  | .word => 3
  | .finish => 4

/-- STATUS.BUSY: PHASE is not IDLE (R42). -/
def busy (s : State) : Bool := s.phase != .idle

/-- ERR_CODE, by the fixed priority SizeMismatch, LengthMismatch, CompressionIntegrityError (R27, R176). -/
def errCode (s : State) : BitVec 2 :=
  if s.errSize then 1 else if s.errLen then 2 else if s.errInteg then 3 else 0

/-- A read of STATUS (R26, R158): the bits no field names are 0. -/
def statusWord (s : State) : Word :=
  (0 : BitVec 22) ++ errCode s ++ (0 : BitVec 3) ++ BitVec.ofBool s.errInteg ++ BitVec.ofBool s.errLen ++
    BitVec.ofBool s.errSize ++ BitVec.ofBool s.done ++ BitVec.ofBool (busy s)

/-- A read of CURSOR: `{D0P, PHASE[2:0], 2'b00, FI[9:0], 12'b0, WI[3:0]}` (R33, R158). -/
def cursorWord (s : State) : Word :=
  BitVec.ofBool s.d0p ++ s.phase.bits ++ (0 : BitVec 2) ++ s.fi ++ (0 : BitVec 12) ++ s.wi

/-- A read of PARAM: bit 0 reports D0_POLICY, bit 1 SURPLUS_POLICY (R31). -/
def paramWord (b : Config.Build) : Word :=
  (0 : BitVec 30) ++ BitVec.ofBool (b.surplus == .strict) ++ BitVec.ofBool (b.d0 == .skip)

/-- The interrupt output: level-sensitive, active high (R178). -/
def irq (s : State) : Bool := s.done && s.doneIe

/-- There is room for one more sample: `CNT < NEXP_L` (R102, R120). -/
def wantsSample (s : State) : Bool := decide (s.cnt < s.nexpL)

/-- The length check fails: fewer samples than expected (R141). -/
def lengthShort (s : State) : Bool := decide (s.cnt < s.nexpL)

/-- The reverse-integration check fails: a sample exists and the last one is not Xn (R142). -/
def integrityBad (s : State) : Bool := s.cnt != 0 && s.acc != s.xn

/-- The cursor has reached the end of the body: `FI == NFR_L` (R101, R106). -/
def bodyExhausted (s : State) : Bool := s.fi.setWidth 11 == s.nfrL

/-- The cursor is in frame 0 (F0 of R89). -/
def inFrame0 (s : State) : Bool := s.fi == 0

/-- BODY_LEN_CFG is not a whole number of frames (R152). -/
def badBodyLen (s : State) : Bool := s.bodyLenCfg.toNat % Config.frameBytes != 0

end Sys2Proof.Machine
end

