-- ==== Sys2Proof/Machine/Ops.lean ====
section
/-! DEFINITION. The named operations over the memories and the registers: the body fetch (R55), the sample write
(R56), lane processing (R120 to R122), the cursor (R104, R105), completion (R143, R177) and the clearing with which
START returns the block to work (R151, R180), and both resets (R154, R190). -/

namespace Sys2Proof.Machine

/-! ### The memories -/

/-- A host address that stands for memory: the body's or the sample memory's window (R50). -/
abbrev Memory.Mapped (a : Nat) : Prop := (0x10000 ≤ a ∧ a < 0x20000) ∨ (0x40000 ≤ a ∧ a < 0x80000)

/-- The canonical form: addresses strictly rise and each is an address of one of the two memories. An unlisted
address has no value, so no listed byte can equal it. -/
abbrev Memory.wf (m : Memory) : Prop := m.Pairwise (fun c d => c.1 < d.1) ∧ ∀ c ∈ m, Memory.Mapped c.1

/-- The byte listed at an address, if one is. -/
def Memory.read : Memory → Nat → Option Byte
  | [], _ => none
  | c :: m, a => if c.1 = a then some c.2 else Memory.read m a

/-- The memory with byte `v` at address `a`, kept in canonical form. -/
def Memory.write : Memory → Nat → Byte → Memory
  | [], a, v => [(a, v)]
  | c :: m, a, v =>
    if a < c.1 then (a, v) :: c :: m
    else if a = c.1 then (a, v) :: m
    else c :: Memory.write m a v

/-- The memory with a word in the four bytes from `a`, the most significant byte first (R53, R66). -/
def Memory.writeWord (m : Memory) (a : Nat) (v : Word) : Memory :=
  (((m.write a (byteOfWord v 0)).write (a + 1) (byteOfWord v 1)).write (a + 2) (byteOfWord v 2)).write (a + 3)
    (byteOfWord v 3)

/-- The byte at a host address of a memory. A byte that nothing has written since the last hardware reset is a
free value (R53, assumption 6). -/
def readByte (s : State) (a : Nat) : Byte := (s.mem.read a).getD (Config.freeByte s.resets a)

/-- The word in the four bytes from `a`, the most significant byte first (R53, R55). -/
def readWord (s : State) (a : Nat) : Word :=
  wordOfBytes (readByte s a) (readByte s (a + 1)) (readByte s (a + 2)) (readByte s (a + 3))

/-- The host address of body byte `i` (R50). -/
def bodyAddr (i : Nat) : Nat := Config.bodyBase + i

/-- The host address of sample entry `k` (R50). -/
def sampleAddr (k : Nat) : Nat := Config.sampleBase + 4 * k

/-- `BodyByte(i)` of R8. -/
def bodyByte (s : State) (i : Nat) : Byte := readByte s (bodyAddr i)

/-- `Word(f, k)`: word `k` of frame `f`, big-endian (R8, R55). -/
def bodyWord (s : State) (f k : Nat) : Word := readWord s (bodyAddr (Config.frameBytes * f + 4 * k))

/-- The word the cursor names (R38, R103). -/
def cursorBodyWord (s : State) : Word := bodyWord s s.fi.toNat s.wi.toNat

/-- What the sample memory holds in entry `k` (R56). -/
def sampleEntry (s : State) (k : Nat) : Word := readWord s (sampleAddr k)

/-- What a host read of sample entry `k` returns: the entry below CNT, a free value at or beyond it (R57). -/
def hostSample (s : State) (k : Nat) : Word :=
  if k < s.cnt.toNat then sampleEntry s k else Config.staleSample s.draws k

/-- `SampleWrite(k, v)` of R8 and R56. -/
def sampleWrite (k : BitVec 16) (v : Word) (s : State) : State :=
  { s with mem := s.mem.writeWord (sampleAddr k.toNat) v }

/-! ### The model's own fields -/

/-- The engine has made a step: stale samples are drawn anew (R57, R59, assumption 7). -/
def tick (s : State) : State := { s with draws := s.draws + 1 }

/-- The turns still to come. -/
def withTurns (ts : List Turn) (s : State) : State := { s with turns := ts }

/-- A host read has returned `v` (R59: nothing of the block changes). -/
def deliver (v : Word) (s : State) : State := { s with returned := v :: s.returned }

/-! ### The cursor (R38) -/

/-- The next frame: after a STOP (R104) or after word 15 (R105). -/
def nextFrame (s : State) : State := { s with fi := s.fi + 1, wi := 0, phase := .frame }

/-- AdvanceWord (R105). -/
def advanceWord (s : State) : State := if s.wi = 15 then nextFrame s else { s with wi := s.wi + 1 }

/-! ### The accumulator and lane processing -/

/-- `SampleWrite(CNT, v)` and `CNT <- CNT + 1` (R102, R121). -/
def emitSample (v : Word) (s : State) : State := { sampleWrite s.cnt v s with cnt := s.cnt + 1 }

/-- Integrate: the running sum modulo 2^32 is the next sample (R121, R128). -/
def integrate (d : Word) (s : State) : State := emitSample (s.acc + d) { s with acc := s.acc + d }

/-- Surplus: the run ends with the cursor where it is. Only STRICT sets ERR_LEN (R122). -/
def surplus (b : Config.Build) (s : State) : State :=
  { s with errLen := s.errLen || b.surplus == .strict, phase := .finish }

/-- What ProcessLane returns (R120). -/
inductive LaneResult where
  | proceed
  | terminate
  deriving DecidableEq, Repr

/-- ProcessLane (R120): the order of the three tests is part of the rule. -/
def processLane (b : Config.Build) (d : Word) (s : State) : LaneResult × State :=
  if s.d0p then (.proceed, { s with d0p := false })
  else if wantsSample s then (.proceed, integrate d s)
  else (.terminate, surplus b s)

/-- The lanes of one data word in order: a TERMINATE leaves the rest of the word and the cursor alone (R127), the
last lane is followed by AdvanceWord (R103). -/
def processLanes (b : Config.Build) : List Word → State → State
  | [], s => advanceWord s
  | d :: ds, s =>
    match processLane b d s with
    | (.proceed, t) => processLanes b ds t
    | (.terminate, t) => t

/-! ### Frame walk -/

/-- The control word is latched (R101). -/
def latchControlWord (w : Word) (s : State) : State :=
  { s with cw := w, wi := 1, phase := if inFrame0 s then .ic else .word }

/-- The constants' registers after ICX0's word: X0, the accumulator and the pending first difference (R102, R123). -/
def setX0 (b : Config.Build) (w : Word) (s : State) : State :=
  { s with x0 := w, acc := w, d0p := b.d0 == .skip }

/-- R102 without its second line: X0 is loaded and is sample 0, or is surplus when no sample is wanted. -/
def loadX0 (b : Config.Build) (w : Word) (s : State) : State :=
  if wantsSample s then { emitSample w (setX0 b w s) with wi := 3, phase := .word }
  else surplus b (setX0 b w s)

/-- R102's second line: Xn is loaded. -/
def loadXn (w : Word) (s : State) : State := { s with xn := w }

/-- EndOfBody (R106). -/
def endOfBody (s : State) : State := { s with phase := .finish }

/-! ### Completion and the return to work: the block's counterparts of taking an exception and returning -/

/-- Completion (R143, R177): the engine stops and DONE is set. No other state is saved and no mode changes. -/
def complete (s : State) : State := { s with phase := .idle, done := true }

/-- What START clears and latches before its size check (R151, R192): with DONE and the ERR bits cleared, the block is
returned to work (R180). -/
def clearRun (s : State) : State :=
  { s with
    done := false, errSize := false, errLen := false, errInteg := false
    x0 := 0, xn := 0, acc := 0, cnt := 0
    cw := 0, fi := 0, wi := 0, d0p := false
    nexpL := s.nexpCfg }

/-- The final checks: each error bit is only set, never cleared (R140 to R142). -/
def finalChecks (s : State) : State :=
  { s with errLen := s.errLen || lengthShort s, errInteg := s.errInteg || integrityBad s }

/-- FinishStep (R140). -/
def finishRun (s : State) : State := complete (finalChecks s)

/-- A START whose body length is not a whole number of frames (R152, R172). -/
def rejectStart (s : State) : State := complete { clearRun s with nfrL := 0, errSize := true }

/-- A START whose body length is a whole number of frames (R151). -/
def acceptStart (s : State) : State :=
  { clearRun s with nfrL := BitVec.ofNat 11 (s.bodyLenCfg.toNat / Config.frameBytes), phase := .frame }

/-- START (R151): ignored while busy (R153). -/
def startRun (s : State) : State :=
  if busy s then s else if badBodyLen s then rejectStart s else acceptStart s

/-! ### Reset -/

/-- SRST (R154, R191): every register at its reset value, the memories and what stands around the block unchanged. -/
def softReset (s : State) : State :=
  { State.reset with
    mem := s.mem, turns := s.turns, returned := s.returned, resets := s.resets, draws := s.draws }

/-- The hardware reset (R190): every register at its reset value, the contents of both memories unspecified anew
(R53, R57, assumption 13). -/
def hardReset (s : State) : State :=
  { State.reset with
    turns := s.turns, returned := s.returned, resets := s.resets + 1, draws := s.draws + 1 }

/-! ### Sequencing -/

/-- One meaning after another within one atomic step; the first that does not answer a next state ends it. -/
def andThen (o : Host.Outcome State Fault Refusal) (k : State → Host.Outcome State Fault Refusal) :
    Host.Outcome State Fault Refusal :=
  match o with
  | .next t => k t
  | .fault r => .fault r
  | .refused r => .refused r

end Sys2Proof.Machine
end

