-- ==== Sys2Proof/Machine/DeltaDecode.lean ====
section
/-! DEFINITION. The meanings of D8X4, D16X2 and D32X1 (41_delta_decode.md). -/

namespace Sys2Proof.Machine

/-- D8X4 (R124): four 8-bit differences. -/
def execD8x4 (w : Word) (s : State) : Host.Outcome State Fault Refusal :=
  .next (processLanes Config.build (lanes8 w) s)

/-- D16X2 (R125): two 16-bit differences. -/
def execD16x2 (w : Word) (s : State) : Host.Outcome State Fault Refusal :=
  .next (processLanes Config.build (lanes16 w) s)

/-- D32X1 (R126): one 32-bit difference. -/
def execD32x1 (w : Word) (s : State) : Host.Outcome State Fault Refusal :=
  .next (processLanes Config.build (lanes32 w) s)

end Sys2Proof.Machine
end

