-- ==== Sys2Proof/Machine/FrameWalk.lean ====
section
/-! DEFINITION. The meanings of CTRL, ICX0, ICXN and STOP (40_frame_walk.md). -/

namespace Sys2Proof.Machine

/-- CTRL (R101), at a frame that the body holds. The key's position and code are ignored (R83). -/
def execCtrl (w : Word) (s : State) : Host.Outcome State Fault Refusal := .next (latchControlWord w s)

/-- ICX0 (R102, R89 row 2): everything the IC step does but the load of XN, which is ICXN's (assumption 10). -/
def execIcx0 (w : Word) (s : State) : Host.Outcome State Fault Refusal := .next (loadX0 Config.build w s)

/-- ICXN (R102, R89 row 3): XN is loaded. The engine executes it together with ICX0 in one step (assumption 10). -/
def execIcxn (w : Word) (s : State) : Host.Outcome State Fault Refusal := .next (loadXn w s)

/-- STOP (R104): only the current frame ends. -/
def execStop (s : State) : Host.Outcome State Fault Refusal := .next (nextFrame s)

end Sys2Proof.Machine
end

