-- ==== Sys2Proof/Machine/HostCommands.lean ====
section
/-! DEFINITION. The meanings of the commands written to CTRL (43_host_commands.md). -/

namespace Sys2Proof.Machine

/-- START (R151 to R153). -/
def execStart (s : State) : Host.Outcome State Fault Refusal := .next (startRun s)

/-- SRST (R154). The START bit of the same write is ignored (R155). -/
def execSrst (s : State) : Host.Outcome State Fault Refusal := .next (softReset s)

/-- CTRL_NOP (R150): no command and no effect. -/
def execCtrlNop (s : State) : Host.Outcome State Fault Refusal := .next s

end Sys2Proof.Machine
end

