-- ==== Sys2Proof/Machine/Dispatch.lean ====
section
/-! DEFINITION. The meaning of every instruction: one arm per row of the opcode table. -/

namespace Sys2Proof.Machine

-- The fields an arm leaves out are the ones the spec calls ignored (R83, R85, R91, R155) or position (R89).
def exec (i : Instr) (s : State) : Host.Outcome State Fault Refusal :=
  match i with
  | .ctrl _ _ w => Sys2Proof.Machine.execCtrl w s
  | .icx0 _ w => Sys2Proof.Machine.execIcx0 w s
  | .icxn _ w => Sys2Proof.Machine.execIcxn w s
  | .stop _ _ => Sys2Proof.Machine.execStop s
  | .d8x4 _ _ w => Sys2Proof.Machine.execD8x4 w s
  | .d16x2 _ _ w => Sys2Proof.Machine.execD16x2 w s
  | .d32x1 _ _ w => Sys2Proof.Machine.execD32x1 w s
  | .srst _ _ => Sys2Proof.Machine.execSrst s
  | .start _ => Sys2Proof.Machine.execStart s
  | .ctrlNop _ => Sys2Proof.Machine.execCtrlNop s

end Sys2Proof.Machine
end

