-- ==== Sys2Proof/Machine/Engine.lean ====
section
/-! DEFINITION. The engine's fetch and its one step in each PHASE (R100 to R106, R140), and how a body word is placed
where that step fetches it. -/

namespace Sys2Proof.Machine

/-- The instruction a FRAME step runs: word 0 of frame FI, whatever its code (R89 row 1, R101). -/
def fetchControl (s : State) : Instr :=
  decode (.bodyWord (selectorKey (inFrame0 s) 0 (codeAt s.cw 0)) (bodyWord s s.fi.toNat 0))

/-- The first instruction of an IC step: word 1 of frame 0 (R89 row 2, R102). -/
def fetchForward (s : State) : Instr :=
  decode (.bodyWord (selectorKey true 1 (codeAt s.cw 1)) (bodyWord s 0 1))

/-- The second instruction of an IC step: word 2 of frame 0 (R89 row 3, R102). -/
def fetchReverse (s : State) : Instr :=
  decode (.bodyWord (selectorKey true 2 (codeAt s.cw 2)) (bodyWord s 0 2))

/-- The instruction a WORD step runs: the word at the cursor, by its code in the latched control word (R82, R89,
R103). -/
def fetchData (s : State) : Instr :=
  decode (.bodyWord (selectorKey (inFrame0 s) s.wi (codeAt s.cw s.wi)) (cursorBodyWord s))

/-- EngineStep (R100): PHASE alone says which step it is. The IC step runs ICX0 and ICXN together (R89, R102). While
IDLE the engine has no step and the block waits (R42, R190). -/
def engineStep (s : State) : Host.Outcome State Fault Refusal :=
  match s.phase with
  | .idle => .next s
  | .frame => if bodyExhausted s then .next (endOfBody (tick s)) else exec (fetchControl s) (tick s)
  | .ic => andThen (exec (fetchForward s) (tick s)) (exec (fetchReverse s))
  | .word => exec (fetchData s) (tick s)
  | .finish => .next (finishRun (tick s))

/-- The frame at which `placeBodyWord` places a word: frame 0, or another one (F0 of R89). -/
def placedFrame (key : Key) (s : State) : BitVec 10 :=
  if key.f0 then 0 else if s.fi = 0 then 1 else s.fi

/-- The PHASE whose step runs the word with this key (R100 to R103). -/
def placedPhase (key : Key) : Phase :=
  if key.wi = 0 then .frame
  else if key.f0 = true ∧ (key.wi = 1 ∨ key.wi = 2) then .ic
  else .word

/-- The state with a zero word under selector key `key` where the engine's next step fetches, and the next turn the
engine's (assumption 16). An IC step fetches words 1 and 2 of frame 0 together, so both are zero there. -/
def placeBodyWord (key : Key) (s : State) : State :=
  let fi := placedFrame key s
  let at0 := bodyAddr (Config.frameBytes * fi.toNat)
  let mem :=
    if placedPhase key = .ic then (s.mem.writeWord (at0 + 4) 0).writeWord (at0 + 8) 0
    else s.mem.writeWord (at0 + 4 * key.wi.toNat) 0
  { s with
    phase := placedPhase key
    fi := fi
    wi := if placedPhase key = .ic then 1 else key.wi
    nfrL := if fi.setWidth 11 < s.nfrL then s.nfrL else fi.setWidth 11 + 1
    cw := withCodeAt s.cw key.wi key.code
    mem := mem
    turns := .engine :: s.turns }

end Sys2Proof.Machine
end

