-- ==== Sys2Proof/Machine/HostBus.lean ====
section
/-! DEFINITION. Host accesses to the registers and the memories (20_memory.md, R150 to R159, R184), and what each turn
of a run does. -/

namespace Sys2Proof.Machine

/-- The regions of the host address space (R50). -/
inductive Region where
  | registers
  | body
  | samples
  | unmapped
  deriving DecidableEq, Repr

/-- The region of a host address (R50, R51). -/
def regionOf (a : Addr) : Region :=
  if a.toNat < 0x40 then .registers
  else if 0x10000 ≤ a.toNat ∧ a.toNat < 0x20000 then .body
  else if 0x40000 ≤ a.toNat ∧ a.toNat < 0x80000 then .samples
  else .unmapped

/-- The accesses that have no meaning (R58, R184, 93 I13): an 8-bit access to the registers or the sample memory, and a
16-bit or a misaligned 32-bit access at any address. R51's "any width" is read as the widths not refused here
(assumption 9). -/
def refusedShape (w : Width) (a : Addr) : Bool :=
  match w with
  | .b8 => regionOf a == .registers || regionOf a == .samples
  | .b16 => true
  | .b32 => a.toNat % 4 != 0

/-- Whether an access is refused. -/
def Access.isRefused (a : Access) : Bool :=
  match a with
  | .read w ad => refusedShape w ad
  | .write w ad _ => refusedShape w ad

/-- The registers of R22. -/
inductive Register where
  | ctrl | nexp | bodyLen | status | ie | x0 | xn | acc | count | cursor | param | reserved
  deriving DecidableEq, Repr

/-- The register at an offset of the register block (R22, R34). -/
def registerAt (offset : Nat) : Register :=
  match offset with
  | 0x00 => .ctrl
  | 0x04 => .nexp
  | 0x08 => .bodyLen
  | 0x0C => .status
  | 0x10 => .ie
  | 0x14 => .x0
  | 0x18 => .xn
  | 0x1C => .acc
  | 0x20 => .count
  | 0x24 => .cursor
  | 0x28 => .param
  | _ => .reserved

/-- The value a host read of a register returns (R22, R158). -/
def readRegister (b : Config.Build) (r : Register) (s : State) : Word :=
  match r with
  | .ctrl => 0
  | .nexp => zext32 s.nexpCfg
  | .bodyLen => zext32 s.bodyLenCfg
  | .status => statusWord s
  | .ie => zext32 (BitVec.ofBool s.doneIe)
  | .x0 => s.x0
  | .xn => s.xn
  | .acc => s.acc
  | .count => zext32 s.cnt
  | .cursor => cursorWord s
  | .param => paramWord b
  | .reserved => 0

/-- A write to STATUS: a 1 in bit 1 clears DONE, nothing else happens (R156). -/
def writeStatus (v : Word) (s : State) : State := { s with done := s.done && !v.getLsbD 1 }

/-- A host write to a register: CTRL takes a command (R150), four registers have fields to write (R156, R157), every
other write is ignored (R159). -/
def writeRegister (r : Register) (v : Word) (s : State) : Host.Outcome State Fault Refusal :=
  match r with
  | .ctrl => exec (decode (.ctrlWrite v)) s
  | .nexp => .next { s with nexpCfg := v.setWidth 16 }
  | .bodyLen => .next { s with bodyLenCfg := v.setWidth 16 }
  | .status => .next (writeStatus v s)
  | .ie => .next { s with doneIe := v.getLsbD 0 }
  | .x0 => .next s
  | .xn => .next s
  | .acc => .next s
  | .count => .next s
  | .cursor => .next s
  | .param => .next s
  | .reserved => .next s

/-- The entry of the sample memory at a host address (R50). -/
def sampleIndex (a : Addr) : Nat := (a.toNat - Config.sampleBase) / 4

/-- The value a host read returns, for a read that is not refused. An 8-bit read is zero-extended (assumption 25). -/
def hostRead (b : Config.Build) (w : Width) (a : Addr) (s : State) : Word :=
  match regionOf a with
  | .registers => readRegister b (registerAt a.toNat) s
  | .body => if w = .b8 then zext32 (readByte s a.toNat) else readWord s a.toNat
  | .samples => hostSample s (sampleIndex a)
  | .unmapped => 0

/-- A host write to the body memory while the engine is idle (R53). -/
def writeBody (w : Width) (a : Addr) (v : Word) (s : State) : State :=
  { s with mem := if w = .b8 then s.mem.write a.toNat (v.setWidth 8) else s.mem.writeWord a.toNat v }

/-- A host write, for a write that is not refused: body writes are dropped while busy (R53), writes to samples and
unmapped addresses are ignored (R51, R56). -/
def hostWrite (w : Width) (a : Addr) (v : Word) (s : State) : Host.Outcome State Fault Refusal :=
  match regionOf a with
  | .registers => writeRegister (registerAt a.toNat) v s
  | .body => .next (if busy s then s else writeBody w a v s)
  | .samples => .next s
  | .unmapped => .next s

/-- A host access, one atomic step (R60). A refused one has no step (R184). -/
def hostAccess (a : Access) (s : State) : Host.Outcome State Fault Refusal :=
  if a.isRefused then .refused (.refusedAccess a)
  else
    match a with
    | .read w ad => .next (deliver (hostRead Config.build w ad s) s)
    | .write w ad v => hostWrite w ad v s

/-- What a turn does (R9, R61, R190). -/
def takeTurn (t : Turn) (s : State) : Host.Outcome State Fault Refusal :=
  match t with
  | .engine => engineStep s
  | .host a => hostAccess a s
  | .reset => .next (hardReset s)

/-- The state with a write of `v` to CTRL as its next turn. -/
def placeCtrlWrite (v : Word) (s : State) : State := { s with turns := .host (.write .b32 0 v) :: s.turns }

/-- The instruction of `decodeTableWord nbits w` placed where the next step runs it (assumption 16). -/
def placeTableWord (nbits w : Nat) (s : State) : State :=
  if nbits ≤ 8 then placeBodyWord (BitVec.ofNat 7 w) s else placeCtrlWrite (BitVec.ofNat 32 w) s

end Sys2Proof.Machine
end

