-- ==== Sys2Proof/Machine/Step.lean ====
section
/-! DEFINITION. One step of a run (R9, R61), and the placing of an instruction where the next step runs it. -/

namespace Sys2Proof.Machine

/-- One step: the next turn of the run, or the engine's own step once no turn is listed (R199, assumption 4). -/
def step (s : State) : Host.Outcome State Fault Refusal :=
  match s.turns with
  | [] => engineStep s
  | t :: ts => takeTurn t (withTurns ts s)

/-- The state whose next step runs the instruction of `decodeTableWord nbits w` (assumption 16). -/
def State.withFetchWord (s : State) (nbits w : Nat) : State := placeTableWord nbits w s

end Sys2Proof.Machine
end

