-- ==== Sys2Proof/Machine/HostSequence.lean ====
section
/-! DEFINITION. The host's side of a run: where the body comes from (R67), where the window sits (R50), and the
required host sequence as turns (R193). -/

namespace Sys2Proof.Machine

/-- The offset of a register (R22). The reserved offsets are represented by the first of them (R34). -/
def registerOffset (r : Register) : Addr :=
  match r with
  | .ctrl => 0x00
  | .nexp => 0x04
  | .bodyLen => 0x08
  | .status => 0x0C
  | .ie => 0x10
  | .x0 => 0x14
  | .xn => 0x18
  | .acc => 0x1C
  | .count => 0x20
  | .cursor => 0x24
  | .param => 0x28
  | .reserved => 0x2C

/-- The address in the window of a system address, for a window at `base` (R50, 93 I17, assumption 22). -/
def windowOffset (base sys : Nat) : Option Addr :=
  if base ≤ sys ∧ sys < base + 2 ^ Config.hostAddrBits then some (BitVec.ofNat 20 (sys - base)) else none

/-- The body bytes of an NP packet (R67). -/
def packetBody (packet : List Byte) : List Byte := packet.drop Config.packetBodyOffset

/-- A 32-bit write to a register. -/
def writeTurn (r : Register) (v : Word) : Turn := .host (.write .b32 (registerOffset r) v)

/-- A 32-bit read of a register. -/
def readTurn (r : Register) : Turn := .host (.read .b32 (registerOffset r))

/-- Byte writes of a body, from body byte `i` on, in wire order (R53, R193 step 2). -/
def loadBody : Nat → List Byte → List Turn
  | _, [] => []
  | i, v :: vs => .host (.write .b8 (BitVec.ofNat 20 (bodyAddr i)) (zext32 v)) :: loadBody (i + 1) vs

/-- Steps 2 to 5 of R193 for a body and an expected count: load, configure, start. -/
def launchTurns (body : List Byte) (count : BitVec 16) (interrupt : Bool) : List Turn :=
  loadBody 0 body ++
    [writeTurn .bodyLen (BitVec.ofNat 32 body.length), writeTurn .nexp (zext32 count)] ++
    (if interrupt then [writeTurn .ie 1] else []) ++ [writeTurn .ctrl 1]

/-- Steps 7 and 8 of R193: read STATUS, COUNT and the first `n` samples, then clear DONE. -/
def collectTurns (n : Nat) : List Turn :=
  [readTurn .status, readTurn .count] ++
    (List.range n).map (fun k => .host (.read .b32 (BitVec.ofNat 20 (sampleAddr k)))) ++
    [writeTurn .status 2]

end Sys2Proof.Machine
end

