-- ==== Sys2Proof/Machine/Listing.lean ====
section
/-! DEFINITION. The frame listing notation (R92 to R94): from a listing to the words of a body. It is no part of the
hardware. -/

namespace Sys2Proof.Machine

/-- A data line of a listing (R92). -/
inductive Line where
  | x0 (v : Int)
  | xn (v : Int)
  | d8 (a b c d : Int)
  | d16 (a b : Int)
  | d32 (a : Int)
  | stop
  | raw (code : Code) (w : Word)
  deriving DecidableEq, Repr

/-- A frame of a listing: the control word's own code (`c0`, 00 unless written) and the data lines. -/
structure FrameListing where
  c0    : Code
  lines : List Line
  deriving DecidableEq, Repr

/-- A value in the range of an N-bit signed field (R92). -/
def fitsSigned (n : Nat) (v : Int) : Bool := decide (-(2 ^ (n - 1)) ≤ v ∧ v < 2 ^ (n - 1))

/-- A value that can be written for a 32-bit word: signed, or unsigned in hexadecimal (R92). -/
def fitsWord (v : Int) : Bool := decide (-(2 ^ 31) ≤ v ∧ v < 2 ^ 32)

/-- The code and the word of a line; none where a value is out of range (R92). -/
def Line.encode (l : Line) : Option (Code × Word) :=
  match l with
  | .x0 v => if fitsWord v then some (0, BitVec.ofInt 32 v) else none
  | .xn v => if fitsWord v then some (0, BitVec.ofInt 32 v) else none
  | .d8 a b c d =>
    if fitsSigned 8 a && fitsSigned 8 b && fitsSigned 8 c && fitsSigned 8 d then
      some (1, wordOfBytes (BitVec.ofInt 8 a) (BitVec.ofInt 8 b) (BitVec.ofInt 8 c) (BitVec.ofInt 8 d))
    else none
  | .d16 a b =>
    if fitsSigned 16 a && fitsSigned 16 b then some (2, BitVec.ofInt 16 a ++ BitVec.ofInt 16 b) else none
  | .d32 a => if fitsWord a then some (3, BitVec.ofInt 32 a) else none
  | .stop => some (0, 0)
  | .raw code w => some (code, w)

/-- Whether a line is `x0`. -/
def Line.isX0 (l : Line) : Bool :=
  match l with
  | .x0 _ => true
  | _ => false

/-- Whether a line is `xn`. -/
def Line.isXn (l : Line) : Bool :=
  match l with
  | .xn _ => true
  | _ => false

/-- `x0` stands in frame 0 as its first data line only, `xn` right after it only, and a frame has at most 15 data
lines (R92). -/
def linesPlaced (frame0 : Bool) (ls : List Line) : Bool :=
  decide (ls.length ≤ 15) &&
    match ls with
    | [] => true
    | l :: rest =>
      (!l.isX0 || frame0) && !l.isXn &&
        match rest with
        | [] => true
        | m :: more =>
          !m.isX0 && (!m.isXn || l.isX0) && more.all (fun x => !x.isX0 && !x.isXn)

/-- The lines of a frame padded with `stop` to 15 (R93). -/
def padLines (ls : List Line) : List Line := ls ++ List.replicate (15 - ls.length) .stop

/-- The OR over k of `code_k << (30 - 2k)`, for codes that start at index k (R94). -/
def orCodes : Nat → List Code → Word
  | _, [] => 0
  | k, c :: cs => c.setWidth 32 <<< (30 - 2 * k) ||| orCodes (k + 1) cs

/-- The control word of a frame (R94). -/
def controlWord (c0 : Code) (codes : List Code) : Word := c0.setWidth 32 <<< 30 ||| orCodes 1 codes

/-- The 16 words of a frame; none where the listing breaks R92. -/
def assembleFrame (frame0 : Bool) (f : FrameListing) : Option (List Word) :=
  if linesPlaced frame0 f.lines then
    match (padLines f.lines).mapM Line.encode with
    | some cws => some (controlWord f.c0 (cws.map Prod.fst) :: cws.map Prod.snd)
    | none => none
  else none

/-- The words of a body: the first frame of the listing is frame 0 (R81, R85). -/
def assembleBody (fs : List FrameListing) : Option (List Word) :=
  match fs with
  | [] => some []
  | f :: rest =>
    match assembleFrame true f, rest.mapM (assembleFrame false) with
    | some ws, some wss => some (ws ++ wss.flatten)
    | _, _ => none

/-- The bytes of a body in wire order (R55). -/
def bodyBytes (ws : List Word) : List Byte := ws.flatMap bytesOfWord

end Sys2Proof.Machine
end

