-- ==== Sys2Proof/Machine/Platform.lean ====
section
/-! DEFINITION. Several instances on one platform (R182): they share no state. The spec leaves open whether they are
built alike and whether their undefined memory values agree. The model's choices: all have the one build (assumption
28), and the free values of two of them are the same where their reset counts, or their draw indices, are (assumption
27), and a refusal at one ends the steps of all (assumption 29). -/

namespace Sys2Proof.Machine

/-- The instances of a platform, each with registers, memories, engine and `irq` of its own. -/
abbrev Platform := List State

/-- Instance `k` takes its next step, under the one build of all instances (assumption 28) and with free values that no
instance enters (assumption 27). An index with no instance changes nothing. A refused access at one instance is the
outcome of the whole platform, so no instance has a further state: R184 speaks of one block's host, R182 does not say,
and this is the model's choice (assumption 29). -/
def platformStep (p : Platform) (k : Nat) : Host.Outcome Platform Fault Refusal :=
  match p[k]? with
  | none => .next p
  | some s =>
    match step s with
    | .next t => .next (p.set k t)
    | .fault r => .fault r
    | .refused r => .refused r

/-- The interrupt lines of the instances (R178, R182). -/
def platformIrqs (p : Platform) : List Bool := p.map irq

end Sys2Proof.Machine
end

