-- ==== Sys2Proof/Machine/Walk.lean ====
section
/-! DEFINITION. A run of engine steps, and the closed form of its output (R107, R129): what 4.2 of the source computes
from the body and the expected count, with no engine in it. -/

namespace Sys2Proof.Machine

/-- `n` engine steps in a row (R100). -/
def engineSteps : Nat → State → Host.Outcome State Fault Refusal
  | 0, s => .next s
  | n + 1, s => andThen (engineStep s) (engineSteps n)

/-- `n` steps in a row, whatever turns they take (R9, R61). -/
def steps : Nat → State → Host.Outcome State Fault Refusal
  | 0, s => .next s
  | n + 1, s => andThen (step s) (steps n)

/-- Integrate for each difference of a list in order (R121), with no test of the count. -/
def integrateAll : List Word → State → State
  | [], s => s
  | d :: ds, s => integrateAll ds (integrate d s)

/-- The differences a data-word instruction carries, in order (R124 to R126); the other instructions carry none. -/
def dataLanes (i : Instr) : List Word :=
  match i with
  | .ctrl _ _ _ => []
  | .icx0 _ _ => []
  | .icxn _ _ => []
  | .stop _ _ => []
  | .d8x4 _ _ w => lanes8 w
  | .d16x2 _ _ w => lanes16 w
  | .d32x1 _ _ w => lanes32 w
  | .srst _ _ => []
  | .start _ => []
  | .ctrlNop _ => []

/-- The lanes of a data-word instruction that are not discarded: all but the first while D0P is pending (R120). -/
def liveLanes (i : Instr) (s : State) : List Word := if s.d0p then (dataLanes i).tail else dataLanes i

/-- The first data word of a frame: frame 0's words 1 and 2 hold the constants (R85). -/
def firstDataWord (f : Nat) : Nat := if f = 0 then 3 else 1

/-- The lanes of the words of frame `f` with indices `ks`, up to the first word whose code is 00 (R104, R107). -/
def lanesOfWords (s : State) (f : Nat) : List Nat → List Word
  | [] => []
  | k :: ks =>
    let code := codeAt (bodyWord s f 0) (BitVec.ofNat 4 k)
    if code = 0 then [] else lanes code (bodyWord s f k) ++ lanesOfWords s f ks

/-- The lanes of a frame in walk order (R107). -/
def frameLanes (s : State) (f : Nat) : List Word :=
  lanesOfWords s f (List.range' (firstDataWord f) (Config.wordsPerFrame - firstDataWord f))

/-- `L` of R129: all lanes of the first `nfr` frames in walk order. -/
def bodyLanes (s : State) (nfr : Nat) : List Word := (List.range nfr).flatMap (frameLanes s)

/-- The frame and the word index of each lane of the words of frame `f` with indices `ks`, in the order of
`lanesOfWords`. -/
def sitesOfWords (s : State) (f : Nat) : List Nat → List (Nat × Nat)
  | [] => []
  | k :: ks =>
    let code := codeAt (bodyWord s f 0) (BitVec.ofNat 4 k)
    if code = 0 then [] else List.replicate (lanes code (bodyWord s f k)).length (f, k) ++ sitesOfWords s f ks

/-- The sites of a frame's lanes in walk order. -/
def frameSites (s : State) (f : Nat) : List (Nat × Nat) :=
  sitesOfWords s f (List.range' (firstDataWord f) (Config.wordsPerFrame - firstDataWord f))

/-- The sites of all lanes of the first `nfr` frames in walk order. -/
def bodySites (s : State) (nfr : Nat) : List (Nat × Nat) := (List.range nfr).flatMap (frameSites s)

/-- What is integrated of a list that has one entry per lane, by D0_POLICY (R123): `D` of R129 from `L`. -/
def differences {α : Type} (b : Config.Build) (ls : List α) : List α :=
  match b.d0 with
  | .integrate => ls
  | .skip => ls.drop 1

/-- X0 plus the first `k` differences, modulo 2^32 (R129). -/
def runningSum (x : Word) (ds : List Word) (k : Nat) : Word := (ds.take k).foldl (· + ·) x

/-- CNT at the end of a run that passed the size check (R129). -/
def expectedCount (b : Config.Build) (s : State) (nexp nfr : Nat) : Nat :=
  if nfr = 0 then 0 else min nexp (1 + (differences b (bodyLanes s nfr)).length)

/-- SAMPLES[k] at the end of a run, for k below the count (R129). -/
def expectedSample (b : Config.Build) (s : State) (nfr k : Nat) : Word :=
  runningSum (bodyWord s 0 1) (differences b (bodyLanes s nfr)) k

/-- ACC at the end of a run (R129). -/
def expectedAcc (b : Config.Build) (s : State) (nexp nfr : Nat) : Word :=
  if nfr = 0 then 0 else expectedSample b s nfr (expectedCount b s nexp nfr - 1)

/-- A surplus lane, or a surplus X0, exists (R129). -/
def hasSurplus (b : Config.Build) (s : State) (nexp nfr : Nat) : Bool :=
  nfr != 0 && decide (nexp < 1 + (differences b (bodyLanes s nfr)).length)

/-- Where a run with a surplus stops (R177): at frame 0's word 1 if X0 is surplus, else at the word of the first lane
that is not wanted, the difference after the `nexp - 1` integrated ones. -/
def surplusSite (b : Config.Build) (s : State) (nexp nfr : Nat) : Option (Nat × Nat) :=
  if nexp = 0 then some (0, 1) else (differences b (bodySites s nfr))[nexp - 1]?

end Sys2Proof.Machine
end

