-- ==== Sys2Proof/Safety.lean ====
section
/-! DEFINITION. What claims about runs speak of: the invariants of reachable states (R43), launch, end, abort and
result of a run (R203). -/

namespace Sys2Proof.Machine

/-- The invariants of R43, with the facts about the cursor, the error bits (R27, R197) and the memory form that they
rest on. -/
structure State.Inv (s : State) : Prop where
  /-- R43: no more samples than expected. -/
  cnt_le          : s.cnt.toNat ≤ s.nexpL.toNat
  /-- R43: the frame index stays within the body. -/
  fi_le           : s.fi.toNat ≤ s.nfrL.toNat
  /-- R43: MAX_FRAMES of R5. -/
  nfr_le          : s.nfrL.toNat ≤ Config.maxFrames
  /-- R43: the cursor in PHASE IC. -/
  ic_cursor       : s.phase = .ic → s.fi = 0 ∧ s.wi = 1
  /-- R102's invariant: no sample yet in PHASE IC, which needs a frame 0. -/
  ic_fresh        : s.phase = .ic → s.cnt = 0 ∧ 0 < s.nfrL.toNat
  /-- R43: the cursor in PHASE WORD names a data word of the body. -/
  word_cursor     : s.phase = .word → s.fi.toNat < s.nfrL.toNat ∧ IsDataPosition (inFrame0 s) s.wi
  /-- R43: in PHASE FRAME the cursor names a control word. -/
  frame_cursor    : s.phase = .frame → s.wi = 0
  /-- Before frame 0 there is no sample (R151). -/
  frame_fresh     : s.phase = .frame → s.fi = 0 → s.cnt = 0
  /-- R43: a sample needs a frame. -/
  cnt_pos         : s.cnt ≠ 0 → 0 < s.nfrL.toNat
  /-- R43: D0P is set only under SKIP. -/
  d0p_skip        : s.d0p = true → Config.build.d0 = .skip
  /-- R43: DONE means that no run is in progress. -/
  done_idle       : s.done = true → s.phase = .idle
  /-- R27: ERR_SIZE never comes with another error, and no run follows it. -/
  size_alone      : s.errSize = true → s.errLen = false ∧ s.errInteg = false ∧ s.phase = .idle
  /-- R197: during a run ERR_INTEG is clear. -/
  integ_idle      : s.errInteg = true → s.phase = .idle
  /-- R197: during a run ERR_LEN is set only by a surplus lane, just before FINISH. -/
  len_finish      : s.errLen = true → s.phase = .idle ∨ s.phase = .finish
  /-- The memories are in canonical form. -/
  mem_wf          : Memory.wf s.mem
  /-- R43: the entries below CNT have been written. -/
  samples_written : ∀ a, sampleAddr 0 ≤ a → a < sampleAddr s.cnt.toNat → (s.mem.read a).isSome
  /-- R102, R107: past the IC step a first sample exists. -/
  ic_has_run      : s.phase = .word ∨ (s.phase = .frame ∧ s.fi ≠ 0) → s.cnt ≠ 0
  /-- R43, R102: where a sample exists, the IC step has run, and entry 0 is the X0 it loaded. -/
  first_sample    : s.cnt ≠ 0 → sampleEntry s 0 = s.x0
  /-- R43, R121: where a sample exists, ACC is the last one written. -/
  last_sample     : s.cnt ≠ 0 → sampleEntry s (s.cnt.toNat - 1) = s.acc

/-- A run may be launched: the block is idle (R203, R193 step 1). What the body memory and the two configuration
registers hold is the input. That no refusal has been recorded needs no premise: a refused access leaves no state to
launch from (R184, assumption 8). -/
def LaunchReady (s : State) : Prop := s.phase = .idle

/-- A START launches a run in `s`, and `u` is the state after it (R203, R151). -/
def Launches (s u : State) : Prop := LaunchReady s ∧ ∃ ignored, exec (.start ignored) s = .next u

/-- What the end of a run looks like (R203); `EndsAt` says when it is one. -/
def RunEnded (s : State) : Prop := s.phase = .idle ∧ s.done = true

/-- An SRST (R91). An access to CTRL that is not refused has 32 bits (R52). -/
def Access.isSrst (a : Access) : Bool :=
  match a with
  | .read _ _ => false
  | .write _ ad v => ad == 0 && v.getLsbD 1

/-- A turn that leaves a run in progress alone (R204): the engine's, or a host access that is neither refused nor an
SRST. -/
def Turn.isHarmless (t : Turn) : Bool :=
  match t with
  | .engine => true
  | .host a => !a.isRefused && !a.isSrst
  | .reset => false

/-- How many of the turns are not the engine's. -/
def hostTurns (ts : List Turn) : Nat := ts.countP (· != .engine)

/-- A turn that aborts a run in progress (R203): the hardware reset, or an SRST that is not refused. -/
def Turn.isAbort (t : Turn) : Bool :=
  match t with
  | .engine => false
  | .host a => !a.isRefused && a.isSrst
  | .reset => true

/-- In the first `n` states from `u` on a run is in progress: nothing has ended or aborted it. -/
def InProgress (u : State) (n : Nat) : Prop := ∀ m < n, ∀ w, steps m u = .next w → w.phase ≠ .idle

/-- The run launched into `u` ends after `n` steps, in `t`, the first state with PHASE = IDLE and DONE = 1, and nothing
aborted it before (R203). -/
structure EndsAt (u : State) (n : Nat) (t : State) : Prop where
  reached : steps n u = .next t
  ended   : RunEnded t
  running : InProgress u n

/-- The run launched into `u` is aborted by its step `n`, and `t` is the state after that: PHASE is IDLE before any state
with DONE = 1 is reached, so the run has no end (R203). A run that ended and whose DONE was cleared later is none. -/
structure AbortsAt (u : State) (n : Nat) (t : State) : Prop where
  reached : steps n u = .next t
  aborted : t.phase = .idle ∧ t.done = false
  running : InProgress u n

/-- The result of a completed run (R203): what a host reads after its end. -/
structure RunResult where
  status  : Word
  count   : Word
  x0      : Word
  xn      : Word
  acc     : Word
  cursor  : Word
  samples : List Word
  deriving DecidableEq, Repr

/-- The result a state holds. -/
def resultOf (s : State) : RunResult where
  status  := statusWord s
  count   := zext32 s.cnt
  x0      := s.x0
  xn      := s.xn
  acc     := s.acc
  cursor  := cursorWord s
  samples := (List.range s.cnt.toNat).map (hostSample s)

/-- A run launched in `s` completes with result `r`, read at its end (R203). One that is aborted has no result. -/
def CompletesWith (s : State) (r : RunResult) : Prop :=
  ∃ u n t, Launches s u ∧ EndsAt u n t ∧ r = resultOf t

end Sys2Proof.Machine
end

