-- ==== Sys2Proof/Certificates/Slice0/Obligations.lean ====
section
/-! DEFINITION. The statements for the provers. -/

open Sys2Proof Sys2Proof.Machine

/-! ## Encoding -/

/-- Decoding what the encoder writes gives the instruction back, for every well-formed instruction: no bit of an
encoding is dropped (R89, R91). -/
def Obligations.DecodeEncodeRoundTrip : Prop :=
  ∀ i : Instr, i.wellFormed = true → decode (encode i) = i

/-- R89, R91: the decoder's instruction is that of the first row of the opcode table that the key, or the value written
to CTRL, selects. -/
def Obligations.DecodeFollowsFirstRow : Prop :=
  (∀ (key : Key) (w : Word), firstRow keyRows key = some (decode (.bodyWord key w)).op) ∧
  (∀ v : Word, firstRow ctrlRows v = some (decode (.ctrlWrite v)).op)

/-- R90: every encoding decodes to a well-formed instruction, and encoding that instruction gives the encoding back;
only the word of a STOP, which is not read, comes back as zero (R92, the model's choice, assumption 17). -/
def Obligations.EveryEncodingIsLegal : Prop :=
  ∀ e : Encoding, (decode e).wellFormed = true ∧
    ((decode e).op ≠ .stop → encode (decode e) = e) ∧
    (∀ key w, e = .bodyWord key w → (decode e).op = .stop → encode (decode e) = .bodyWord key 0)

/-- R82: code `c_k` of a control word is its bits 31-2k and 30-2k. That c0 is the top pair is the spec's own choice from
general knowledge (assumption 19). -/
def Obligations.ControlWordCodePositions : Prop :=
  ∀ (cw : Word) (k : BitVec 4),
    (codeAt cw k).getLsbD 1 = cw.getLsbD (31 - 2 * k.toNat) ∧ (codeAt cw k).getLsbD 0 = cw.getLsbD (30 - 2 * k.toNat)

/-- R86, R87: the lanes of a data word, most significant first, and their signed values. The order of the lanes is the
spec's own choice from general knowledge (assumption 19). -/
def Obligations.LanesAreSignedFields : Prop :=
  ∀ w : Word,
    (lanes8 w).map BitVec.toInt =
      [(w.extractLsb 31 24).toInt, (w.extractLsb 23 16).toInt, (w.extractLsb 15 8).toInt, (w.extractLsb 7 0).toInt] ∧
    (lanes16 w).map BitVec.toInt = [(w.extractLsb 31 16).toInt, (w.extractLsb 15 0).toInt] ∧
    (lanes32 w).map BitVec.toInt = [w.toInt]

/-- R94: the control word computed from a listing holds `c0` at position 0 and the k-th data line's code at position
k. -/
def Obligations.ListedCodesAreReadBack : Prop :=
  ∀ (c0 : Code) (codes : List Code), codes.length = 15 →
    codeAt (controlWord c0 codes) 0 = c0 ∧
    ∀ (k : Nat) (h : k < codes.length), codeAt (controlWord c0 codes) (BitVec.ofNat 4 (k + 1)) = codes[k]

/-- Words written out from the tables of R89 and R91 decode to the instructions they stand for (a sanity statement). -/
def Obligations.SampleEncodingsDecode : Prop :=
  decode (.bodyWord 0b0000011 0x01B00000) = .ctrl false 3 0x01B00000 ∧
  decode (.bodyWord 0b1000110 0x000003E8) = .icx0 2 0x000003E8 ∧
  decode (.bodyWord 0b0000101 0x01FF7F80) = .d8x4 false 1 0x01FF7F80 ∧
  decode (.bodyWord 0b1001100 0x7F7F7F7F) = .stop true 3 ∧
  decode (.ctrlWrite 0x00000003) = .srst 0 true ∧
  decode (.ctrlWrite 0xFFFFFFFD) = .start 0x3FFFFFFF

/-! ## The step -/

/-- R100, R89, R91: with the engine's turn next (or no turn listed), a step in FRAME with a frame left, in IC or in WORD
runs the instruction that the key at the cursor selects, in the state with that turn taken and the draw index
advanced; IC runs two of them. A host write to CTRL runs the command it encodes. That the engine steps when no turn is
listed, and that IC is two instructions, is the model's choice (assumptions 4 and 10). -/
def Obligations.StepRunsDecodedInstruction : Prop :=
  (∀ s : State, (s.turns = [] ∨ s.turns.head? = some .engine) →
    (s.phase = .frame → s.fi.toNat ≠ s.nfrL.toNat →
      step s = exec (decode (.bodyWord (selectorKey (s.fi == 0) 0 (codeAt s.cw 0)) (bodyWord s s.fi.toNat 0)))
        { s with turns := s.turns.tail, draws := s.draws + 1 }) ∧
    (s.phase = .ic →
      step s = andThen
        (exec (decode (.bodyWord (selectorKey true 1 (codeAt s.cw 1)) (bodyWord s 0 1)))
          { s with turns := s.turns.tail, draws := s.draws + 1 })
        (exec (decode (.bodyWord (selectorKey true 2 (codeAt s.cw 2)) (bodyWord s 0 2))))) ∧
    (s.phase = .word →
      step s = exec (decode (.bodyWord (selectorKey (s.fi == 0) s.wi (codeAt s.cw s.wi))
          (bodyWord s s.fi.toNat s.wi.toNat)))
        { s with turns := s.turns.tail, draws := s.draws + 1 })) ∧
  (∀ (s : State) (v : Word) (ts : List Turn), s.turns = .host (.write .b32 0 v) :: ts →
    step s = exec (decode (.ctrlWrite v)) { s with turns := ts })

/-- R42, R190: while IDLE the engine has no step; an engine turn, listed or by default (the model's choice, assumption
4), leaves the block as it is. -/
def Obligations.IdleBlockWaits : Prop :=
  ∀ s : State, s.phase = .idle →
    engineStep s = .next s ∧
    (s.turns = [] ∨ s.turns.head? = some .engine → step s = .next { s with turns := s.turns.tail })

/-- R106: at the end of the body the FRAME step hands over to FINISH and changes nothing else but the model's draw index
(assumption 7). The engine's turn is listed, or comes by default (assumption 4). -/
def Obligations.EndOfBodyGoesToFinish : Prop :=
  ∀ s : State, (s.turns = [] ∨ s.turns.head? = some .engine) → s.phase = .frame → s.fi.toNat = s.nfrL.toNat →
    step s = .next { s with phase := .finish, turns := s.turns.tail, draws := s.draws + 1 }

/-! ## Frame walk -/

/-- R101: CTRL latches the control word and moves to the frame's first word; nothing else changes. -/
def Obligations.CtrlLatchesControlWord : Prop :=
  ∀ (f0 : Bool) (code : Code) (w : Word) (s : State),
    exec (.ctrl f0 code w) s =
      .next { s with cw := w, wi := 1, phase := if s.fi = 0 then .ic else .word }

/-- R102, all but its load of XN: ICX0 loads X0 and ACC, sets D0P by the policy, and writes X0 as the next sample while
one is wanted; otherwise X0 is surplus (R122). Nothing else changes. The division of R102 between ICX0 and ICXN is the
model's choice (assumption 10). -/
def Obligations.Icx0LoadsForwardConstant : Prop :=
  ∀ (code : Code) (w : Word) (s : State),
    (s.cnt.toNat < s.nexpL.toNat →
      exec (.icx0 code w) s = .next
        { s with
          x0 := w, acc := w, d0p := Config.build.d0 == .skip
          mem := s.mem.writeWord (0x40000 + 4 * s.cnt.toNat) w, cnt := s.cnt + 1, wi := 3, phase := .word }) ∧
    (s.nexpL.toNat ≤ s.cnt.toNat →
      exec (.icx0 code w) s = .next
        { s with
          x0 := w, acc := w, d0p := Config.build.d0 == .skip
          errLen := s.errLen || Config.build.surplus == .strict, phase := .finish })

/-- R102's load of XN: ICXN loads its word into XN, and nothing else changes. The division of R102 between ICX0 and ICXN
is the model's choice (assumption 10). -/
def Obligations.IcxnLoadsReverseConstant : Prop :=
  ∀ (code : Code) (w : Word) (s : State), exec (.icxn code w) s = .next { s with xn := w }

/-- R102: the IC step as a whole. Both constants are loaded in one step, whatever the codes c1 and c2 (R85).
The step also takes its turn off the list (assumption 4) and advances the model's draw index (assumption 7). -/
def Obligations.IcStepLoadsBothConstants : Prop :=
  ∀ s : State, (s.turns = [] ∨ s.turns.head? = some .engine) → s.phase = .ic →
    (s.cnt.toNat < s.nexpL.toNat →
      step s = .next
        { s with
          x0 := bodyWord s 0 1, xn := bodyWord s 0 2, acc := bodyWord s 0 1, d0p := Config.build.d0 == .skip
          mem := s.mem.writeWord (0x40000 + 4 * s.cnt.toNat) (bodyWord s 0 1), cnt := s.cnt + 1
          wi := 3, phase := .word, turns := s.turns.tail, draws := s.draws + 1 }) ∧
    (s.nexpL.toNat ≤ s.cnt.toNat →
      step s = .next
        { s with
          x0 := bodyWord s 0 1, xn := bodyWord s 0 2, acc := bodyWord s 0 1, d0p := Config.build.d0 == .skip
          errLen := s.errLen || Config.build.surplus == .strict, phase := .finish
          turns := s.turns.tail, draws := s.draws + 1 })

/-- R104: STOP ends the current frame and changes nothing but the cursor and PHASE. -/
def Obligations.StopEndsTheFrame : Prop :=
  ∀ (f0 : Bool) (wi : BitVec 4) (s : State),
    exec (.stop f0 wi) s = .next { s with fi := s.fi + 1, wi := 0, phase := .frame }

/-- R105: AdvanceWord goes to the next word, and after word 15 to the next frame. -/
def Obligations.AdvanceWordMovesTheCursor : Prop :=
  ∀ s : State,
    advanceWord s = if s.wi = 15 then { s with fi := s.fi + 1, wi := 0, phase := .frame } else { s with wi := s.wi + 1 }

/-! ## Delta decode and integration -/

/-- R120, R121, R122: what ProcessLane does with a difference, in the order of its tests. -/
def Obligations.ProcessLaneTestsInOrder : Prop :=
  ∀ (b : Config.Build) (d : Word) (s : State),
    (s.d0p = true → processLane b d s = (.proceed, { s with d0p := false })) ∧
    (s.d0p = false → s.cnt.toNat < s.nexpL.toNat →
      processLane b d s = (.proceed,
        { s with
          acc := s.acc + d, mem := s.mem.writeWord (0x40000 + 4 * s.cnt.toNat) (s.acc + d), cnt := s.cnt + 1 })) ∧
    (s.d0p = false → s.nexpL.toNat ≤ s.cnt.toNat →
      processLane b d s = (.terminate,
        { s with errLen := s.errLen || b.surplus == .strict, phase := .finish }))

/-- R124: D8X4 with room for four samples and no pending first difference. Four running sums are written from entry CNT
on, the cursor advances, every other byte of memory and every other field is as before. -/
def Obligations.D8x4WritesFourSamples : Prop :=
  ∀ (f0 : Bool) (wi : BitVec 4) (w : Word) (s : State), s.d0p = false → s.cnt.toNat + 4 ≤ s.nexpL.toNat →
    let a1 := s.acc + (w.extractLsb 31 24).signExtend 32
    let a2 := a1 + (w.extractLsb 23 16).signExtend 32
    let a3 := a2 + (w.extractLsb 15 8).signExtend 32
    let a4 := a3 + (w.extractLsb 7 0).signExtend 32
    ∃ m : Memory,
      exec (.d8x4 f0 wi w) s = .next (advanceWord { s with acc := a4, cnt := s.cnt + 4, mem := m }) ∧
      (∀ t : State, t.mem = m → t.resets = s.resets →
        sampleEntry t s.cnt.toNat = a1 ∧ sampleEntry t (s.cnt.toNat + 1) = a2 ∧
        sampleEntry t (s.cnt.toNat + 2) = a3 ∧ sampleEntry t (s.cnt.toNat + 3) = a4 ∧
        ∀ a, (a < 0x40000 + 4 * s.cnt.toNat ∨ 0x40000 + 4 * s.cnt.toNat + 16 ≤ a) → readByte t a = readByte s a)

/-- R125: D16X2 with room for two samples and no pending first difference. -/
def Obligations.D16x2WritesTwoSamples : Prop :=
  ∀ (f0 : Bool) (wi : BitVec 4) (w : Word) (s : State), s.d0p = false → s.cnt.toNat + 2 ≤ s.nexpL.toNat →
    let a1 := s.acc + (w.extractLsb 31 16).signExtend 32
    let a2 := a1 + (w.extractLsb 15 0).signExtend 32
    ∃ m : Memory,
      exec (.d16x2 f0 wi w) s = .next (advanceWord { s with acc := a2, cnt := s.cnt + 2, mem := m }) ∧
      (∀ t : State, t.mem = m → t.resets = s.resets →
        sampleEntry t s.cnt.toNat = a1 ∧ sampleEntry t (s.cnt.toNat + 1) = a2 ∧
        ∀ a, (a < 0x40000 + 4 * s.cnt.toNat ∨ 0x40000 + 4 * s.cnt.toNat + 8 ≤ a) → readByte t a = readByte s a)

/-- R126: D32X1 with room for a sample and no pending first difference. -/
def Obligations.D32x1WritesOneSample : Prop :=
  ∀ (f0 : Bool) (wi : BitVec 4) (w : Word) (s : State), s.d0p = false → s.cnt.toNat + 1 ≤ s.nexpL.toNat →
    ∃ m : Memory,
      exec (.d32x1 f0 wi w) s = .next (advanceWord { s with acc := s.acc + w, cnt := s.cnt + 1, mem := m }) ∧
      (∀ t : State, t.mem = m → t.resets = s.resets →
        sampleEntry t s.cnt.toNat = s.acc + w ∧
        ∀ a, (a < 0x40000 + 4 * s.cnt.toNat ∨ 0x40000 + 4 * s.cnt.toNat + 4 ≤ a) → readByte t a = readByte s a)

/-- R120, R121, R123, R103: a data word whose live lanes are all wanted. The first lane is discarded if D0P was
pending; each other lane's running sum is a sample; the cursor advances. -/
def Obligations.DataWordIntegratesLiveLanes : Prop :=
  ∀ (i : Instr) (s : State), dataLanes i ≠ [] → s.cnt.toNat + (liveLanes i s).length ≤ s.nexpL.toNat →
    ∃ t, exec i s = .next t ∧
      t.acc = (liveLanes i s).foldl (· + ·) s.acc ∧
      t.cnt.toNat = s.cnt.toNat + (liveLanes i s).length ∧
      t.d0p = false ∧
      (∀ j < (liveLanes i s).length,
        sampleEntry t (s.cnt.toNat + j) = ((liveLanes i s).take (j + 1)).foldl (· + ·) s.acc) ∧
      (s.wi = 15 → t.fi = s.fi + 1 ∧ t.wi = 0 ∧ t.phase = .frame) ∧
      (s.wi ≠ 15 → t.fi = s.fi ∧ t.wi = s.wi + 1 ∧ t.phase = s.phase) ∧
      t.errLen = s.errLen

/-- R122, R127: a data word whose live lane `n` finds NEXP_L samples made. Lanes 0 to n-1 are integrated, the rest of
the word is not, the cursor stays on the word, PHASE is FINISH, and STRICT alone sets ERR_LEN. -/
def Obligations.DataWordStopsAtSurplusLane : Prop :=
  ∀ (i : Instr) (s : State) (n : Nat), n < (liveLanes i s).length → s.cnt.toNat + n = s.nexpL.toNat →
    ∃ t, exec i s = .next t ∧
      t.acc = ((liveLanes i s).take n).foldl (· + ·) s.acc ∧
      t.cnt = s.nexpL ∧
      t.d0p = false ∧
      (∀ j < n, sampleEntry t (s.cnt.toNat + j) = ((liveLanes i s).take (j + 1)).foldl (· + ·) s.acc) ∧
      t.fi = s.fi ∧ t.wi = s.wi ∧ t.phase = .finish ∧
      t.errLen = (s.errLen || Config.build.surplus == .strict)

/-- The frame of the data words, on every path (R40, R54, R56, R121): the registers no lane rule names are unchanged,
and so is every byte of memory outside the sample entries from the old CNT up to the new one. -/
def Obligations.DataWordFrame : Prop :=
  ∀ (i : Instr) (s t : State), dataLanes i ≠ [] → exec i s = .next t →
    t = { s with
          acc := t.acc, cnt := t.cnt, d0p := t.d0p, errLen := t.errLen, phase := t.phase, fi := t.fi, wi := t.wi
          mem := t.mem } ∧
    (∀ a, (a < 0x40000 + 4 * s.cnt.toNat ∨ 0x40000 + 4 * t.cnt.toNat ≤ a) → readByte t a = readByte s a)

/-- R128: one 32-bit lane takes the accumulator to any sample at all, since the sum wraps modulo 2^32 and sets no
flag. -/
def Obligations.WrapAroundReachesEverySample : Prop :=
  ∀ (f0 : Bool) (wi : BitVec 4) (target : Word) (s : State), s.d0p = false → s.cnt.toNat < s.nexpL.toNat →
    ∃ t, exec (.d32x1 f0 wi (target - s.acc)) s = .next t ∧ t.acc = target ∧
      sampleEntry t s.cnt.toNat = target ∧
      t.errLen = s.errLen ∧ t.errInteg = s.errInteg ∧ t.errSize = s.errSize ∧ t.done = s.done

/-- R200: decoded under INTEGRATE, a body with a first difference d0 gives at k the sample that SKIP gives, plus d0,
less the k-th difference. -/
def Obligations.PolicyMismatchShiftsSamples : Prop :=
  ∀ (x : Word) (ds : List Word) (k : Nat) (h : k < ds.length),
    runningSum x (differences ⟨.integrate, .ignore⟩ ds) k =
      runningSum x (differences ⟨.skip, .ignore⟩ ds) k + ds[0]'(by omega) - ds[k]

/-! ## Verifier and completion -/

/-- R140 to R143: the FINISH step makes both checks, ends the run and sets DONE; nothing else changes but the
model's draw index (assumption 7). The engine's turn is listed, or comes by default (assumption 4). -/
def Obligations.FinishChecksAndCompletes : Prop :=
  ∀ s : State, (s.turns = [] ∨ s.turns.head? = some .engine) → s.phase = .finish →
    step s = .next
      { s with
        errLen := s.errLen || decide (s.cnt.toNat < s.nexpL.toNat)
        errInteg := s.errInteg || (decide (1 ≤ s.cnt.toNat) && decide (s.acc ≠ s.xn))
        phase := .idle, done := true, turns := s.turns.tail, draws := s.draws + 1 }

/-- R27, R176: ERR_CODE reports one kind by the fixed priority, and STATUS bits 9:8 read it. -/
def Obligations.ErrCodePriority : Prop :=
  ∀ s : State,
    (statusWord s).extractLsb 9 8 =
      if s.errSize = true then 1#2 else if s.errLen = true then 2#2 else if s.errInteg = true then 3#2 else 0#2

/-! ## Host commands -/

/-- R151, R152, R153: START while busy does nothing; else it clears the run's state, latches the configuration, and
either completes at once with ERR_SIZE or enters FRAME. -/
def Obligations.StartBeginsARun : Prop :=
  ∀ (ignored : BitVec 30) (s : State),
    (s.phase ≠ .idle → exec (.start ignored) s = .next s) ∧
    (s.phase = .idle → s.bodyLenCfg.toNat % 64 ≠ 0 →
      exec (.start ignored) s = .next
        { s with
          done := true, errSize := true, errLen := false, errInteg := false
          x0 := 0, xn := 0, acc := 0, cnt := 0, cw := 0, fi := 0, wi := 0, d0p := false
          nexpL := s.nexpCfg, nfrL := 0 }) ∧
    (s.phase = .idle → s.bodyLenCfg.toNat % 64 = 0 →
      exec (.start ignored) s = .next
        { s with
          done := false, errSize := false, errLen := false, errInteg := false
          x0 := 0, xn := 0, acc := 0, cnt := 0, cw := 0, fi := 0, wi := 0, d0p := false
          nexpL := s.nexpCfg, nfrL := BitVec.ofNat 11 (s.bodyLenCfg.toNat / 64), phase := .frame })

/-- R154, R155, R191: SRST, with or without the START bit, puts every register to its reset value and changes neither
memory. -/
def Obligations.SrstResetsRegisters : Prop :=
  ∀ (ignored : BitVec 30) (startBit : Bool) (s : State),
    exec (.srst ignored startBit) s = .next
      { State.reset with
        mem := s.mem, turns := s.turns, returned := s.returned, resets := s.resets, draws := s.draws }

/-- R150: a CTRL write with no command has no effect. -/
def Obligations.CtrlNopChangesNothing : Prop :=
  ∀ (ignored : BitVec 30) (s : State), exec (.ctrlNop ignored) s = .next s

/-- R91, R150, R155: what a host write of `v` to CTRL does depends on `v[1:0]` alone: SRST if `v[1]` is set, else START
if `v[0]` is set, else nothing. -/
def Obligations.CtrlWriteSelectsCommand : Prop :=
  ∀ (v : Word) (s : State),
    (v.getLsbD 1 = true → hostAccess (.write .b32 0 v) s = exec (.srst 0 false) s) ∧
    (v.getLsbD 1 = false → v.getLsbD 0 = true → hostAccess (.write .b32 0 v) s = exec (.start 0) s) ∧
    (v.getLsbD 1 = false → v.getLsbD 0 = false → hostAccess (.write .b32 0 v) s = .next s)

/-- R192: the state in which a run starts depends on the configuration and the memory alone: two idle states that agree
on them start the same run. -/
def Obligations.StartForgetsEarlierRuns : Prop :=
  ∀ (ignored : BitVec 30) (s t : State), s.phase = .idle → t.phase = .idle →
    s.nexpCfg = t.nexpCfg → s.bodyLenCfg = t.bodyLenCfg → s.doneIe = t.doneIe → s.mem = t.mem →
    s.turns = t.turns → s.returned = t.returned → s.resets = t.resets → s.draws = t.draws →
    exec (.start ignored) s = exec (.start ignored) t

/-! ## Registers and memories on the host bus -/

/-- R158, R26, R27, R31, R33, R34, R42: an aligned 32-bit read of each register returns its fields and has no effect but
to return them. -/
def Obligations.RegisterReadsReturnFields : Prop :=
  ∀ (s : State) (ts : List Turn) (a : Addr) (v : Word), s.turns = .host (.read .b32 a) :: ts →
    (a, v) ∈
      [(0x00#20, 0#32), (0x04, s.nexpCfg.setWidth 32), (0x08, s.bodyLenCfg.setWidth 32), (0x0C, statusWord s),
       (0x10, if s.doneIe then 1 else 0), (0x14, s.x0), (0x18, s.xn), (0x1C, s.acc), (0x20, s.cnt.setWidth 32),
       (0x24, cursorWord s), (0x28, paramWord Config.build), (0x2C, 0), (0x30, 0), (0x34, 0), (0x38, 0), (0x3C, 0)] →
    step s = .next { s with turns := ts, returned := v :: s.returned }

/-- R26, R42: the bits of STATUS; the others read 0. -/
def Obligations.StatusBits : Prop :=
  ∀ s : State,
    (statusWord s).getLsbD 0 = decide (s.phase ≠ .idle) ∧ (statusWord s).getLsbD 1 = s.done ∧
    (statusWord s).getLsbD 2 = s.errSize ∧ (statusWord s).getLsbD 3 = s.errLen ∧
    (statusWord s).getLsbD 4 = s.errInteg ∧
    (∀ k, (5 ≤ k ∧ k ≤ 7) ∨ 10 ≤ k → (statusWord s).getLsbD k = false)

/-- R33, R37: the fields of CURSOR; the other bits read 0. -/
def Obligations.CursorFields : Prop :=
  ∀ s : State,
    (cursorWord s).extractLsb 3 0 = s.wi ∧ (cursorWord s).extractLsb 25 16 = s.fi ∧
    (cursorWord s).extractLsb 30 28 =
      (match s.phase with
        | .idle => 0#3 | .frame => 1#3 | .ic => 2#3 | .word => 3#3 | .finish => 4#3) ∧
    (cursorWord s).getLsbD 31 = s.d0p ∧
    (∀ k, (4 ≤ k ∧ k ≤ 15) ∨ (26 ≤ k ∧ k ≤ 27) → (cursorWord s).getLsbD k = false)

/-- R31: PARAM reports the two policies. -/
def Obligations.ParamReportsPolicies : Prop :=
  ∀ b : Config.Build,
    ((paramWord b).getLsbD 0 = true ↔ b.d0 = .skip) ∧ ((paramWord b).getLsbD 1 = true ↔ b.surplus = .strict) ∧
    (∀ k, 2 ≤ k → (paramWord b).getLsbD k = false)

/-- R156, R157, R159, R34: an aligned 32-bit write to each register but CTRL: STATUS loses DONE if bit 1 is written as
1, NEXP, BODY_LEN and IE take their fields in every phase, and a write to any other register is ignored. -/
def Obligations.RegisterWrites : Prop :=
  ∀ (s : State) (v : Word),
    hostAccess (.write .b32 0x0C v) s = .next { s with done := s.done && !v.getLsbD 1 } ∧
    hostAccess (.write .b32 0x04 v) s = .next { s with nexpCfg := v.extractLsb' 0 16 } ∧
    hostAccess (.write .b32 0x08 v) s = .next { s with bodyLenCfg := v.extractLsb' 0 16 } ∧
    hostAccess (.write .b32 0x10 v) s = .next { s with doneIe := v.getLsbD 0 } ∧
    (∀ a ∈ [0x14#20, 0x18, 0x1C, 0x20, 0x24, 0x28, 0x2C, 0x30, 0x34, 0x38, 0x3C],
      hostAccess (.write .b32 a v) s = .next s)

/-- R58, R184: which accesses are refused, by region and at unmapped addresses. That every 16-bit and every misaligned
32-bit access at an unmapped address is among them (R184 and 93 I13, against the "any width" of R51) is the model's
reading (assumption 9). -/
def Obligations.RefusalTable : Prop :=
  ∀ (w : Width) (a : Addr),
    (regionOf a = .registers → (refusedShape w a = true ↔ ¬(w = .b32 ∧ a.toNat % 4 = 0))) ∧
    (regionOf a = .body → (refusedShape w a = true ↔ w = .b16 ∨ (w = .b32 ∧ a.toNat % 4 ≠ 0))) ∧
    (regionOf a = .samples → (refusedShape w a = true ↔ ¬(w = .b32 ∧ a.toNat % 4 = 0))) ∧
    (regionOf a = .unmapped → (refusedShape w a = true ↔ w = .b16 ∨ (w = .b32 ∧ a.toNat % 4 ≠ 0)))

/-- R184: a refused access has no step, and the refusal names it. That the refusal is the outcome of the step is the
model's choice (assumption 8). -/
def Obligations.RefusedAccessHasNoStep : Prop :=
  ∀ (s : State) (a : Access) (ts : List Turn), s.turns = .host a :: ts → a.isRefused = true →
    step s = .refused (.refusedAccess a)

/-- R51: an 8-bit or an aligned 32-bit access at an unmapped address reads 0 or is ignored. R184: a 16-bit or a
misaligned 32-bit one is refused. That R184 and 93 I13 hold there, against the "any width" of R51, is the model's
reading (assumption 9). -/
def Obligations.UnmappedAccesses : Prop :=
  ∀ (s : State) (w : Width) (a : Addr) (v : Word), regionOf a = .unmapped →
    (w = .b8 ∨ (w = .b32 ∧ a.toNat % 4 = 0) →
      hostAccess (.read w a) s = .next { s with returned := 0 :: s.returned } ∧
      hostAccess (.write w a v) s = .next s) ∧
    (w = .b16 ∨ (w = .b32 ∧ a.toNat % 4 ≠ 0) →
      hostAccess (.read w a) s = .refused (.refusedAccess (.read w a)) ∧
      hostAccess (.write w a v) s = .refused (.refusedAccess (.write w a v)))

/-- R53, R66: while idle, an 8-bit write sets one body byte, and an aligned 32-bit write sets four, bits 31:24 at the
lowest address. No other byte and no register changes. That an 8-bit write carries its byte in the low bits is the
model's choice (assumption 25). -/
def Obligations.BodyWritesAreBigEndian : Prop :=
  ∀ (s : State) (a : Addr) (v : Word), regionOf a = .body → s.phase = .idle →
    (∃ t, hostAccess (.write .b8 a v) s = .next t ∧ t = { s with mem := t.mem } ∧
      readByte t a.toNat = v.extractLsb' 0 8 ∧ ∀ c, c ≠ a.toNat → readByte t c = readByte s c) ∧
    (a.toNat % 4 = 0 →
      ∃ t, hostAccess (.write .b32 a v) s = .next t ∧ t = { s with mem := t.mem } ∧
        readByte t a.toNat = v.extractLsb' 24 8 ∧ readByte t (a.toNat + 1) = v.extractLsb' 16 8 ∧
        readByte t (a.toNat + 2) = v.extractLsb' 8 8 ∧ readByte t (a.toNat + 3) = v.extractLsb' 0 8 ∧
        ∀ c, (c < a.toNat ∨ a.toNat + 4 ≤ c) → readByte t c = readByte s c)

/-- R53: reads of the body return the bytes in the same layout, at any time, and have no effect but to return them. That
an 8-bit read returns its byte zero-extended to 32 bits is the model's choice (assumption 25). -/
def Obligations.BodyReadsAreBigEndian : Prop :=
  ∀ (s : State) (a : Addr), regionOf a = .body →
    hostAccess (.read .b8 a) s = .next { s with returned := (readByte s a.toNat).setWidth 32 :: s.returned } ∧
    (a.toNat % 4 = 0 →
      hostAccess (.read .b32 a) s = .next
        { s with
          returned :=
            (readByte s a.toNat ++ readByte s (a.toNat + 1) ++ readByte s (a.toNat + 2) ++
              readByte s (a.toNat + 3) : BitVec 32) :: s.returned })

/-- R53, R196: while busy, a host write to the body memory that is not refused is dropped. -/
def Obligations.BusyBodyWritesAreDropped : Prop :=
  ∀ (s : State) (w : Width) (a : Addr) (v : Word), regionOf a = .body → s.phase ≠ .idle →
    refusedShape w a = false → hostAccess (.write w a v) s = .next s

/-- R56, R57: an aligned 32-bit host write to a sample entry is ignored. A read returns the entry below CNT; at or
beyond CNT it returns the free value of the state's draw index (assumption 7). -/
def Obligations.SampleAccesses : Prop :=
  ∀ (s : State) (k : Nat) (v : Word), k < 65536 →
    hostAccess (.write .b32 (BitVec.ofNat 20 (0x40000 + 4 * k)) v) s = .next s ∧
    (k < s.cnt.toNat →
      hostAccess (.read .b32 (BitVec.ofNat 20 (0x40000 + 4 * k))) s =
        .next { s with returned := sampleEntry s k :: s.returned }) ∧
    (s.cnt.toNat ≤ k →
      hostAccess (.read .b32 (BitVec.ofNat 20 (0x40000 + 4 * k))) s =
        .next { s with returned := Config.staleSample s.draws k :: s.returned })

/-- R59: a host read changes nothing but what it returns, and read twice in a row it returns the same value. The record
of returned values is the model's own (assumption 14). -/
def Obligations.HostReadsRepeat : Prop :=
  ∀ (s t : State) (w : Width) (a : Addr), hostAccess (.read w a) s = .next t →
    ∃ v, t = { s with returned := v :: s.returned } ∧
      hostAccess (.read w a) t = .next { t with returned := v :: t.returned }

/-- R178, R179: `irq` is DONE and DONE_IE, and it is low after a STATUS write with bit 1 set, after an IE write with bit
0 clear, after SRST, after a hardware reset and after a START that begins a run. -/
def Obligations.IrqFollowsDoneAndEnable : Prop :=
  ∀ s : State, (irq s = true ↔ s.done = true ∧ s.doneIe = true) ∧
    (∀ (v : Word) (t : State), v.getLsbD 1 = true → hostAccess (.write .b32 0x0C v) s = .next t → irq t = false) ∧
    (∀ (v : Word) (t : State), v.getLsbD 0 = false → hostAccess (.write .b32 0x10 v) s = .next t → irq t = false) ∧
    (∀ (g : BitVec 30) (x : Bool) (t : State), exec (.srst g x) s = .next t → irq t = false) ∧
    (∀ t : State, takeTurn .reset s = .next t → irq t = false) ∧
    (∀ (g : BitVec 30) (t : State), s.phase = .idle → s.bodyLenCfg.toNat % 64 = 0 → exec (.start g) s = .next t →
      irq t = false)

/-! ## Reset -/

/-- R41: the reset state holds the values the spec gives. That its memory lists nothing, so that every byte is a free
value, is the model's choice (assumption 6). -/
def Obligations.ResetValues : Prop :=
  State.reset.nexpCfg = 0 ∧ State.reset.bodyLenCfg = 0 ∧ statusWord State.reset = 0 ∧ State.reset.doneIe = false ∧
  State.reset.x0 = 0 ∧ State.reset.xn = 0 ∧ State.reset.acc = 0 ∧ State.reset.cnt = 0 ∧ State.reset.nexpL = 0 ∧
  State.reset.nfrL = 0 ∧ State.reset.cw = 0 ∧ cursorWord State.reset = 0 ∧ irq State.reset = false ∧
  State.reset.mem = []

/-- R190: the hardware reset, in any state. The registers take their reset values. Of the memories nothing is known any
more (assumption 13). -/
def Obligations.HardwareResetTurn : Prop :=
  ∀ (s : State) (ts : List Turn), s.turns = .reset :: ts →
    step s = .next
      { State.reset with turns := ts, returned := s.returned, resets := s.resets + 1, draws := s.draws + 1 }

/-! ## Invariants and whole-machine rules -/

/-- The invariants of R43, with the facts they rest on, hold after reset. -/
def Obligations.InvariantHoldsAtReset : Prop := State.reset.Inv

/-- The invariants of R43, with the facts they rest on, are kept by every step, whatever turn it takes. Of R43's last
two bullets they hold that a first sample is the X0 of the IC step, that ACC is the last one, and that every entry below
CNT has been written; that each is the sample of its index is RunComputesClosedForm's, for every step of a run. -/
def Obligations.InvariantKeptByEveryStep : Prop :=
  ∀ s t : State, s.Inv → step s = .next t → t.Inv

/-- Every step keeps the memory in canonical form, from any state in which it is. The form is the model's own
(assumption 5). -/
def Obligations.MemoryFormKeptByEveryStep : Prop :=
  ∀ s t : State, s.mem.wf → step s = .next t → t.mem.wf

/-- R54, R64: during a run nothing changes the body: no engine step and no host access but one that ends the run by a
hardware reset. -/
def Obligations.BodyFixedDuringRun : Prop :=
  ∀ s t : State, s.phase ≠ .idle → s.turns.head? ≠ some .reset → step s = .next t →
    ∀ i < 65536, bodyByte t i = bodyByte s i

/-- R54: body bytes at or beyond 64 NFR_L have no effect on an engine step. Two states that differ in such bytes alone
make steps that differ in such bytes alone. The cursor must stand where R43 says, within the body. -/
def Obligations.BytesBeyondTheBodyHaveNoEffect : Prop :=
  ∀ (s : State) (m : Memory), s.Inv →
    (∀ a, ¬(bodyAddr (64 * s.nfrL.toNat) ≤ a ∧ a < 0x20000) → m.read a = s.mem.read a) →
    ∃ (t : State) (m' : Memory),
      engineStep s = .next t ∧ engineStep { s with mem := m } = .next { t with mem := m' } ∧
      ∀ a, ¬(bodyAddr (64 * s.nfrL.toNat) ≤ a ∧ a < 0x20000) → m'.read a = t.mem.read a

/-- R38, R107: in a state that keeps R43's invariants, an engine step never moves the cursor backwards. -/
def Obligations.CursorNeverMovesBack : Prop :=
  ∀ s t : State, s.Inv → engineStep s = .next t →
    s.fi.toNat < t.fi.toNat ∨ (s.fi = t.fi ∧ s.wi.toNat ≤ t.wi.toNat)

/-- R26, R40: which steps set and which clear each STATUS flag. BUSY is set by an accepted START and cleared by FINISH,
SRST and the hardware reset. DONE is set by FINISH or by a START that fails the size check, and cleared by a STATUS
write with bit 1 set, an accepted START, SRST and the reset. ERR_SIZE is set by a START that fails the size check alone,
ERR_INTEG by FINISH alone, ERR_LEN by FINISH or, under STRICT, by a surplus sample in IC or WORD. The ERR bits are
cleared by a START while idle (ERR_SIZE by an accepted one), SRST and the reset alone. -/
def Obligations.FlagsAreSetOnlyByTheirRules : Prop :=
  ∀ s t : State, step s = .next t →
    let engineTurn := s.turns = [] ∨ s.turns.head? = some .engine
    let finish := engineTurn ∧ s.phase = .finish
    let start := s.phase = .idle ∧
      ∃ v : Word, v.getLsbD 1 = false ∧ v.getLsbD 0 = true ∧ s.turns.head? = some (.host (.write .b32 0 v))
    let badStart := start ∧ s.bodyLenCfg.toNat % 64 ≠ 0
    let goodStart := start ∧ s.bodyLenCfg.toNat % 64 = 0
    let anyReset := s.turns.head? = some .reset ∨
      ∃ v : Word, v.getLsbD 1 = true ∧ s.turns.head? = some (.host (.write .b32 0 v))
    let statusWrite := ∃ v : Word, v.getLsbD 1 = true ∧ s.turns.head? = some (.host (.write .b32 0x0C v))
    (s.phase = .idle → t.phase ≠ .idle → goodStart) ∧
    (s.phase ≠ .idle → t.phase = .idle → finish ∨ anyReset) ∧
    (s.done = false → t.done = true → finish ∨ badStart) ∧
    (s.done = true → t.done = false → statusWrite ∨ goodStart ∨ anyReset) ∧
    (s.errSize = false → t.errSize = true → badStart) ∧
    (s.errSize = true → t.errSize = false → goodStart ∨ anyReset) ∧
    (s.errInteg = false → t.errInteg = true → finish) ∧
    (s.errInteg = true → t.errInteg = false → start ∨ anyReset) ∧
    (s.errLen = false → t.errLen = true →
      finish ∨ (engineTurn ∧ (s.phase = .ic ∨ s.phase = .word) ∧ Config.build.surplus = .strict)) ∧
    (s.errLen = true → t.errLen = false → start ∨ anyReset)

/-- R204: while a run is in progress, a host access that is neither refused nor a CTRL write with SRST leaves the run's
state as it is: PHASE, the cursor, the latches, the constants, the accumulator, the count, D0P, the ERR bits and both
memories. -/
def Obligations.HostCannotDisturbARun : Prop :=
  ∀ (s t : State) (a : Access) (ts : List Turn), s.phase ≠ .idle → s.turns = .host a :: ts →
    (∀ v : Word, a = .write .b32 0 v → v.getLsbD 1 = false) → step s = .next t →
    t = { s with
          turns := ts, nexpCfg := t.nexpCfg, bodyLenCfg := t.bodyLenCfg, doneIe := t.doneIe, done := t.done
          returned := t.returned }

/-- R182: a step of one instance leaves every other instance as it is. That a platform is a list of states is the
model's choice (assumption 21). -/
def Obligations.InstancesAreIndependent : Prop :=
  ∀ (p q : Platform) (k j : Nat), platformStep p k = .next q → j ≠ k → q[j]? = p[j]?

/-! ## Whole runs

A run is the steps from an accepted START to the first state with PHASE = IDLE and DONE = 1 (R203). The turns still to
come may be any engine turns and host accesses, in any order, that are neither refused nor an SRST (R204), and after
the last of them the engine goes on (R199, assumption 4). -/

/-- R108, R199: every accepted START reaches PHASE IDLE with DONE set, whatever harmless host accesses fall between the
engine's steps. Of the steps up to the first such state at most 16 NFR_L + 1 are the engine's (2 when the body is
empty): there are no more than that beside the host turns among them. R203: where a hardware reset or an SRST follows
such turns, the run ends before it, or it aborts the run, which then has no end, whatever comes after. -/
def Obligations.EveryRunTerminates : Prop :=
  ∀ (ignored : BitVec 30) (s : State), s.phase = .idle → s.bodyLenCfg.toNat % 64 = 0 →
    ((∀ x ∈ s.turns, x.isHarmless = true) →
      ∃ (u t : State) (n : Nat), exec (.start ignored) s = .next u ∧ EndsAt u n t ∧
        n ≤ (if s.bodyLenCfg.toNat = 0 then 2 else 16 * (s.bodyLenCfg.toNat / 64) + 1) + hostTurns (s.turns.take n)) ∧
    (∀ (before after : List Turn) (x : Turn), s.turns = before ++ x :: after →
      (∀ y ∈ before, y.isHarmless = true) → x.isAbort = true →
      ∃ u : State, exec (.start ignored) s = .next u ∧
        ((∃ (n : Nat) (t : State), n ≤ before.length ∧ EndsAt u n t) ∨
          ((∃ t : State, AbortsAt u (before.length + 1) t) ∧ ∀ (n : Nat) (t : State), ¬ EndsAt u n t)))

/-- R129: at the end of every accepted run the count, the samples and the accumulator are the closed form computed from
the body in memory and the expected count at START, and X0 and Xn are frame 0's words 1 and 2, whatever harmless host
accesses fall between the engine's steps. R43, R197: after every step of the run each entry below CNT already holds its
sample. -/
def Obligations.RunComputesClosedForm : Prop :=
  ∀ (ignored : BitVec 30) (s : State), s.phase = .idle → s.bodyLenCfg.toNat % 64 = 0 →
    (∀ x ∈ s.turns, x.isHarmless = true) →
    let nfr := s.bodyLenCfg.toNat / 64
    let nexp := s.nexpCfg.toNat
    ∃ (u t : State) (n : Nat), exec (.start ignored) s = .next u ∧ EndsAt u n t ∧
      t.cnt.toNat = expectedCount Config.build s nexp nfr ∧
      (∀ m ≤ n, ∀ w, steps m u = .next w → ∀ k < w.cnt.toNat, sampleEntry w k = expectedSample Config.build s nfr k) ∧
      t.acc = expectedAcc Config.build s nexp nfr ∧
      (nfr ≠ 0 → t.x0 = bodyWord s 0 1 ∧ t.xn = bodyWord s 0 2) ∧
      (nfr = 0 → t.x0 = 0 ∧ t.xn = 0)

/-- R145, R177: the error bits and the stop point at the end of every accepted run, whatever harmless host accesses fall
between the engine's steps. ERR_LEN means fewer samples than expected, or a surplus under STRICT; ERR_INTEG means a
sample exists and the last one is not frame 0's word 2. Without a surplus the cursor stands at the end of the body; with
one it stands at the word of the surplus lane, or at frame 0's word 1 for a surplus X0. -/
def Obligations.RunOutcome : Prop :=
  ∀ (ignored : BitVec 30) (s : State), s.phase = .idle → s.bodyLenCfg.toNat % 64 = 0 →
    (∀ x ∈ s.turns, x.isHarmless = true) →
    let nfr := s.bodyLenCfg.toNat / 64
    let nexp := s.nexpCfg.toNat
    let cnt := expectedCount Config.build s nexp nfr
    ∃ (u t : State) (n : Nat), exec (.start ignored) s = .next u ∧ EndsAt u n t ∧
      t.errSize = false ∧
      (t.errLen = true ↔
        cnt < nexp ∨ (hasSurplus Config.build s nexp nfr = true ∧ Config.build.surplus = .strict)) ∧
      (t.errInteg = true ↔ 1 ≤ cnt ∧ expectedSample Config.build s nfr (cnt - 1) ≠ bodyWord s 0 2) ∧
      (hasSurplus Config.build s nexp nfr = false → t.fi.toNat = nfr ∧ t.wi = 0) ∧
      (hasSurplus Config.build s nexp nfr = true →
        surplusSite Config.build s nexp nfr = some (t.fi.toNat, t.wi.toNat))
end

