-- ==== Sys2Proof/Laws/Decode.lean ====
section
/-! SUPPORT. The fields of a selector key and of a value written to CTRL, read back from what the encoder puts
together. -/

namespace Sys2Proof

/-! ### Keys -/

@[simp] theorem selectorKey_f0 (f0 : Bool) (wi : BitVec 4) (code : Code) : (selectorKey f0 wi code).f0 = f0 := by
  cases f0 <;> revert wi code <;> decide

@[simp] theorem selectorKey_wi (f0 : Bool) (wi : BitVec 4) (code : Code) : (selectorKey f0 wi code).wi = wi := by
  cases f0 <;> revert wi code <;> decide

@[simp] theorem selectorKey_code (f0 : Bool) (wi : BitVec 4) (code : Code) :
    (selectorKey f0 wi code).code = code := by
  cases f0 <;> revert wi code <;> decide

/-- A key is made of its three fields. -/
@[simp] theorem selectorKey_fields (key : Key) : selectorKey key.f0 key.wi key.code = key := by
  revert key; decide

/-! ### Values written to CTRL -/

/-- The bits of a value written to CTRL. -/
theorem ctrlValue_getLsbD (ignored : BitVec 30) (b1 b0 : Bool) (i : Nat) :
    (ctrlValue ignored b1 b0).getLsbD i = if i = 0 then b0 else if i = 1 then b1 else ignored.getLsbD (i - 2) := by
  change BitVec.getLsbD (w := 30 + 1 + 1) (ignored ++ BitVec.ofBool b1 ++ BitVec.ofBool b0) i = _
  rw [BitVec.getLsbD_append, BitVec.getLsbD_append]
  rcases i with _ | _ | i <;> simp

@[simp] theorem ctrlValue_start (ignored : BitVec 30) (b1 b0 : Bool) : (ctrlValue ignored b1 b0)[0] = b0 := by
  rw [← BitVec.getLsbD_eq_getElem, ctrlValue_getLsbD]
  rfl

@[simp] theorem ctrlValue_srst (ignored : BitVec 30) (b1 b0 : Bool) : (ctrlValue ignored b1 b0)[1] = b1 := by
  rw [← BitVec.getLsbD_eq_getElem, ctrlValue_getLsbD]
  rfl

@[simp] theorem ctrlValue_ignored (ignored : BitVec 30) (b1 b0 : Bool) :
    (ctrlValue ignored b1 b0).extractLsb' 2 30 = ignored := by
  refine BitVec.eq_of_getLsbD_eq fun i hi => ?_
  rw [BitVec.getLsbD_extractLsb', ctrlValue_getLsbD, if_neg (by omega), if_neg (by omega),
    show 2 + i - 2 = i by omega]
  simp [hi]

/-- A value written to CTRL is made of its three fields. -/
@[simp] theorem ctrlValue_fields (v : Word) : ctrlValue (v.extractLsb' 2 30) (v.getLsbD 1) (v.getLsbD 0) = v := by
  refine BitVec.eq_of_getLsbD_eq fun i hi => ?_
  rw [ctrlValue_getLsbD]
  rcases i with _ | _ | i
  · rfl
  · rfl
  · rw [if_neg (by omega), if_neg (by omega), BitVec.getLsbD_extractLsb', show 2 + (i + 1 + 1 - 2) = i + 1 + 1 by omega]
    simp only [show i + 1 + 1 - 2 < 30 by omega, decide_true, Bool.true_and]

end Sys2Proof
end

