-- ==== Sys2Proof/Laws/Flags.lean ====
section
/-! SUPPORT. The bits of the register views STATUS and CURSOR. -/

namespace Sys2Proof.Machine

/-- Bit `k` of STATUS (R26). -/
theorem statusWord_getLsbD (s : State) (k : Nat) :
    (statusWord s).getLsbD k =
      if k = 0 then busy s else if k = 1 then s.done else if k = 2 then s.errSize else if k = 3 then s.errLen
      else if k = 4 then s.errInteg else if k < 8 then false else (errCode s).getLsbD (k - 8) := by
  change BitVec.getLsbD (w := 22 + 2 + 3 + 1 + 1 + 1 + 1 + 1)
    ((0 : BitVec 22) ++ errCode s ++ (0 : BitVec 3) ++ BitVec.ofBool s.errInteg ++ BitVec.ofBool s.errLen ++
      BitVec.ofBool s.errSize ++ BitVec.ofBool s.done ++ BitVec.ofBool (busy s)) k = _
  repeat rw [BitVec.getLsbD_append]
  rcases k with _ | _ | _ | _ | _ | k
  case succ.succ.succ.succ.succ =>
    split_ifs <;>
      first
      | (exfalso; omega)
      | (simp; done)
      | (congr 1; omega)
      | (rw [BitVec.getLsbD_of_ge (errCode s) _ (by omega)]; simp)
  all_goals simp

/-- Bit `k` of CURSOR (R33). -/
theorem cursorWord_getLsbD (s : State) (k : Nat) :
    (cursorWord s).getLsbD k =
      if k < 4 then s.wi.getLsbD k else if k < 16 then false else if k < 26 then s.fi.getLsbD (k - 16)
      else if k < 28 then false else if k < 31 then s.phase.bits.getLsbD (k - 28) else if k = 31 then s.d0p
      else false := by
  change BitVec.getLsbD (w := 1 + 3 + 2 + 10 + 12 + 4)
    (BitVec.ofBool s.d0p ++ s.phase.bits ++ (0 : BitVec 2) ++ s.fi ++ (0 : BitVec 12) ++ s.wi) k = _
  repeat rw [BitVec.getLsbD_append]
  split_ifs <;>
    first
    | (exfalso; omega)
    | rfl
    | (subst_vars; simp; done)
    | (simp; done)
    | exact BitVec.getLsbD_of_ge _ _ (by omega)

end Sys2Proof.Machine
end

