-- ==== Sys2Proof/Laws/Memory.lean ====
section
/-! SUPPORT. The laws of the memories: read after write, the canonical form, words and bytes. -/

namespace Sys2Proof.Machine

/-! ### Bytes -/

theorem read_write_same (m : Memory) (a : Nat) (v : Byte) : (m.write a v).read a = some v := by
  induction m with
  | nil => simp [Memory.write, Memory.read]
  | cons c m ih =>
    simp only [Memory.write]
    split
    · simp [Memory.read]
    · split
      · simp [Memory.read]
      · rename_i h
        simp [Memory.read, ih, Ne.symm h]

theorem read_write_other (m : Memory) {a b : Nat} (v : Byte) (h : b ≠ a) : (m.write a v).read b = m.read b := by
  induction m with
  | nil => simp [Memory.write, Memory.read, Ne.symm h]
  | cons c m ih =>
    simp only [Memory.write]
    split
    · simp [Memory.read, Ne.symm h]
    · split
      · rename_i e
        simp [Memory.read, ← e, Ne.symm h]
      · simp [Memory.read, ih]

theorem read_write (m : Memory) (a b : Nat) (v : Byte) :
    (m.write a v).read b = if b = a then some v else m.read b := by
  split
  · subst_vars; exact read_write_same m _ v
  · exact read_write_other m v ‹_›

theorem mem_write {m : Memory} {a : Nat} {v : Byte} {c : Host.Cell} (h : c ∈ m.write a v) : c = (a, v) ∨ c ∈ m := by
  induction m with
  | nil => simpa [Memory.write] using h
  | cons d m ih =>
    simp only [Memory.write] at h
    split at h
    · simpa using h
    · split at h
      · rcases List.mem_cons.1 h with h | h <;> simp [h]
      · rcases List.mem_cons.1 h with h | h
        · simp [h]
        · rcases ih h with h | h <;> simp [h]

/-- A write keeps the canonical form. -/
theorem write_wf {m : Memory} {a : Nat} (v : Byte) (hm : m.wf) (ha : Memory.Mapped a) : (m.write a v).wf := by
  refine ⟨?_, fun c hc => ?_⟩
  · have hs := hm.1
    clear hm
    induction m with
    | nil => simp [Memory.write]
    | cons d m ih =>
      rw [List.pairwise_cons] at hs
      simp only [Memory.write]
      split
      · refine List.pairwise_cons.2 ⟨fun c hc => ?_, List.pairwise_cons.2 hs⟩
        rcases List.mem_cons.1 hc with rfl | hc
        · assumption
        · exact lt_trans ‹_› (hs.1 c hc)
      · split
        · subst_vars
          exact List.pairwise_cons.2 hs
        · refine List.pairwise_cons.2 ⟨fun c hc => ?_, ih hs.2⟩
          rcases mem_write hc with rfl | hc
          · simp only; omega
          · exact hs.1 c hc
  · rcases mem_write hc with rfl | hc
    · exact ha
    · exact hm.2 c hc

/-- In a canonical memory nothing is listed below the first entry. -/
theorem read_below {m : Memory} {a : Nat} (h : ∀ c ∈ m, a < c.1) : m.read a = none := by
  induction m with
  | nil => rfl
  | cons c m ih =>
    have := h c (by simp)
    simp only [Memory.read]
    rw [if_neg (by omega)]
    exact ih fun d hd => h d (by simp [hd])

/-- Memories in canonical form that read alike are the same data. -/
theorem memory_ext {m n : Memory} (hm : m.wf) (hn : n.wf) (h : ∀ a, m.read a = n.read a) : m = n := by
  obtain ⟨hm, -⟩ := hm
  obtain ⟨hn, -⟩ := hn
  induction m generalizing n with
  | nil =>
    cases n with
    | nil => rfl
    | cons d n => have := h d.1; simp [Memory.read] at this
  | cons c m ih =>
    cases n with
    | nil => have := h c.1; simp [Memory.read] at this
    | cons d n =>
      rw [List.pairwise_cons] at hm hn
      have below : ∀ {x : Nat} {l : Memory}, (∀ e ∈ l, x < e.1) → Memory.read l x = none := read_below
      have hk : c.1 = d.1 := by
        rcases lt_trichotomy c.1 d.1 with hlt | heq | hlt
        · have := h c.1
          rw [read_below (m := d :: n) (by simp; exact ⟨hlt, fun a b hab => lt_trans hlt (hn.1 _ hab)⟩)] at this
          simp [Memory.read] at this
        · exact heq
        · have := h d.1
          rw [read_below (m := c :: m) (by simp; exact ⟨hlt, fun a b hab => lt_trans hlt (hm.1 _ hab)⟩)] at this
          simp [Memory.read] at this
      have hv : c.2 = d.2 := by have := h c.1; simpa [Memory.read, hk] using this
      have htail : ∀ a, Memory.read m a = Memory.read n a := by
        intro a
        by_cases hac : c.1 = a
        · rw [← hac, below hm.1, hk, below hn.1]
        · have := h a
          simpa [Memory.read, hac, ← hk] using this
      rw [ih htail hm.2 hn.2, Prod.ext hk hv]

/-! ### Words -/

@[simp] theorem wordOfBytes_byteOfWord (v : Word) :
    wordOfBytes (byteOfWord v 0) (byteOfWord v 1) (byteOfWord v 2) (byteOfWord v 3) = v := by
  refine BitVec.eq_of_getLsbD_eq fun i hi => ?_
  show (BitVec.extractLsb' _ 8 v ++ BitVec.extractLsb' _ 8 v ++ BitVec.extractLsb' _ 8 v ++
    BitVec.extractLsb' _ 8 v).getLsbD i = _
  simp only [BitVec.getLsbD_append, BitVec.getLsbD_extractLsb']
  split
  · simp [*]
  · split
    · have : i - 8 < 8 := ‹_›
      simp only [this, decide_true, Bool.true_and]; congr 1; omega
    · split
      · have : i - 8 - 8 < 8 := ‹_›
        simp only [this, decide_true, Bool.true_and]; congr 1; omega
      · have : i - 8 - 8 - 8 < 8 := by omega
        simp only [this, decide_true, Bool.true_and]; congr 1; omega

/-- Outside its four bytes a word write changes nothing. -/
theorem read_writeWord_other (m : Memory) {a b : Nat} (v : Word) (h : b < a ∨ a + 4 ≤ b) :
    (m.writeWord a v).read b = m.read b := by
  unfold Memory.writeWord
  rw [read_write_other _ _ (by omega), read_write_other _ _ (by omega), read_write_other _ _ (by omega),
    read_write_other _ _ (by omega)]

/-- The bytes of a word write, the most significant at the lowest address (R53). -/
theorem read_writeWord_same (m : Memory) (a : Nat) (v : Word) {j : Nat} (h : j < 4) :
    (m.writeWord a v).read (a + j) = some (byteOfWord v j) := by
  unfold Memory.writeWord
  interval_cases j <;> simp [read_write]

theorem writeWord_wf {m : Memory} {a : Nat} (v : Word) (hm : m.wf) (h : ∀ j < 4, Memory.Mapped (a + j)) :
    (m.writeWord a v).wf :=
  write_wf _ (write_wf _ (write_wf _ (write_wf _ hm (h 0 (by omega))) (h 1 (by omega))) (h 2 (by omega)))
    (h 3 (by omega))

theorem sampleAddr_mapped (k : BitVec 16) {j : Nat} (h : j < 4) : Memory.Mapped (sampleAddr k.toNat + j) := by
  have := k.isLt
  simp only [Memory.Mapped, sampleAddr, Config.sampleBase]
  omega

/-- SampleWrite keeps the canonical form. -/
theorem sampleWrite_wf {s : State} (k : BitVec 16) (v : Word) (hm : s.mem.wf) : (sampleWrite k v s).mem.wf :=
  writeWord_wf v hm fun _ h => sampleAddr_mapped k h

/-- Two states that list the same four bytes, with as many resets, read the same word. -/
theorem readWord_congr {s t : State} {a : Nat} (hr : t.resets = s.resets)
    (h : ∀ j < 4, t.mem.read (a + j) = s.mem.read (a + j)) : readWord t a = readWord s a := by
  have h0 := h 0 (by omega)
  have h1 := h 1 (by omega)
  have h2 := h 2 (by omega)
  have h3 := h 3 (by omega)
  simp only [Nat.add_zero] at h0
  simp [readWord, readByte, h0, h1, h2, h3, hr]

/-- Reading a word that has just been written. -/
theorem readWord_of_write {t : State} {m : Memory} {a : Nat} {v : Word} (ht : t.mem = m.writeWord a v) :
    readWord t a = v := by
  have h := fun j (hj : j < 4) => read_writeWord_same m a v hj
  have h0 := h 0 (by omega)
  simp only [Nat.add_zero] at h0
  simp [readWord, readByte, ht, h0, h 1 (by omega), h 2 (by omega), h 3 (by omega)]

/-- Reading a word that a word write does not overlap. -/
theorem readWord_writeWord_other (s : State) {a c : Nat} (v : Word) (h : c + 4 ≤ a ∨ a + 4 ≤ c) :
    readWord { s with mem := s.mem.writeWord a v } c = readWord s c :=
  readWord_congr rfl fun j hj => read_writeWord_other _ v (by omega)

end Sys2Proof.Machine
end

