-- ==== Sys2Proof/Laws/State.lean ====
section
/-! SUPPORT. One lemma for each field and each named update of the state: what the update leaves in the field. -/

namespace Sys2Proof.Machine

variable (s : State) (b : Config.Build) (k : BitVec 16) (v w d : Word) (ts : List Turn)

/-! `tick` -/

@[simp] theorem tick_nexpCfg : (tick s).nexpCfg = s.nexpCfg := rfl
@[simp] theorem tick_bodyLenCfg : (tick s).bodyLenCfg = s.bodyLenCfg := rfl
@[simp] theorem tick_done : (tick s).done = s.done := rfl
@[simp] theorem tick_errSize : (tick s).errSize = s.errSize := rfl
@[simp] theorem tick_errLen : (tick s).errLen = s.errLen := rfl
@[simp] theorem tick_errInteg : (tick s).errInteg = s.errInteg := rfl
@[simp] theorem tick_doneIe : (tick s).doneIe = s.doneIe := rfl
@[simp] theorem tick_x0 : (tick s).x0 = s.x0 := rfl
@[simp] theorem tick_xn : (tick s).xn = s.xn := rfl
@[simp] theorem tick_acc : (tick s).acc = s.acc := rfl
@[simp] theorem tick_cnt : (tick s).cnt = s.cnt := rfl
@[simp] theorem tick_nexpL : (tick s).nexpL = s.nexpL := rfl
@[simp] theorem tick_nfrL : (tick s).nfrL = s.nfrL := rfl
@[simp] theorem tick_cw : (tick s).cw = s.cw := rfl
@[simp] theorem tick_phase : (tick s).phase = s.phase := rfl
@[simp] theorem tick_fi : (tick s).fi = s.fi := rfl
@[simp] theorem tick_wi : (tick s).wi = s.wi := rfl
@[simp] theorem tick_d0p : (tick s).d0p = s.d0p := rfl
@[simp] theorem tick_mem : (tick s).mem = s.mem := rfl
@[simp] theorem tick_turns : (tick s).turns = s.turns := rfl
@[simp] theorem tick_returned : (tick s).returned = s.returned := rfl
@[simp] theorem tick_resets : (tick s).resets = s.resets := rfl
@[simp] theorem tick_draws : (tick s).draws = s.draws + 1 := rfl

/-! `withTurns` -/

@[simp] theorem withTurns_nexpCfg : (withTurns ts s).nexpCfg = s.nexpCfg := rfl
@[simp] theorem withTurns_bodyLenCfg : (withTurns ts s).bodyLenCfg = s.bodyLenCfg := rfl
@[simp] theorem withTurns_done : (withTurns ts s).done = s.done := rfl
@[simp] theorem withTurns_errSize : (withTurns ts s).errSize = s.errSize := rfl
@[simp] theorem withTurns_errLen : (withTurns ts s).errLen = s.errLen := rfl
@[simp] theorem withTurns_errInteg : (withTurns ts s).errInteg = s.errInteg := rfl
@[simp] theorem withTurns_doneIe : (withTurns ts s).doneIe = s.doneIe := rfl
@[simp] theorem withTurns_x0 : (withTurns ts s).x0 = s.x0 := rfl
@[simp] theorem withTurns_xn : (withTurns ts s).xn = s.xn := rfl
@[simp] theorem withTurns_acc : (withTurns ts s).acc = s.acc := rfl
@[simp] theorem withTurns_cnt : (withTurns ts s).cnt = s.cnt := rfl
@[simp] theorem withTurns_nexpL : (withTurns ts s).nexpL = s.nexpL := rfl
@[simp] theorem withTurns_nfrL : (withTurns ts s).nfrL = s.nfrL := rfl
@[simp] theorem withTurns_cw : (withTurns ts s).cw = s.cw := rfl
@[simp] theorem withTurns_phase : (withTurns ts s).phase = s.phase := rfl
@[simp] theorem withTurns_fi : (withTurns ts s).fi = s.fi := rfl
@[simp] theorem withTurns_wi : (withTurns ts s).wi = s.wi := rfl
@[simp] theorem withTurns_d0p : (withTurns ts s).d0p = s.d0p := rfl
@[simp] theorem withTurns_mem : (withTurns ts s).mem = s.mem := rfl
@[simp] theorem withTurns_turns : (withTurns ts s).turns = ts := rfl
@[simp] theorem withTurns_returned : (withTurns ts s).returned = s.returned := rfl
@[simp] theorem withTurns_resets : (withTurns ts s).resets = s.resets := rfl
@[simp] theorem withTurns_draws : (withTurns ts s).draws = s.draws := rfl

/-! `deliver` -/

@[simp] theorem deliver_nexpCfg : (deliver v s).nexpCfg = s.nexpCfg := rfl
@[simp] theorem deliver_bodyLenCfg : (deliver v s).bodyLenCfg = s.bodyLenCfg := rfl
@[simp] theorem deliver_done : (deliver v s).done = s.done := rfl
@[simp] theorem deliver_errSize : (deliver v s).errSize = s.errSize := rfl
@[simp] theorem deliver_errLen : (deliver v s).errLen = s.errLen := rfl
@[simp] theorem deliver_errInteg : (deliver v s).errInteg = s.errInteg := rfl
@[simp] theorem deliver_doneIe : (deliver v s).doneIe = s.doneIe := rfl
@[simp] theorem deliver_x0 : (deliver v s).x0 = s.x0 := rfl
@[simp] theorem deliver_xn : (deliver v s).xn = s.xn := rfl
@[simp] theorem deliver_acc : (deliver v s).acc = s.acc := rfl
@[simp] theorem deliver_cnt : (deliver v s).cnt = s.cnt := rfl
@[simp] theorem deliver_nexpL : (deliver v s).nexpL = s.nexpL := rfl
@[simp] theorem deliver_nfrL : (deliver v s).nfrL = s.nfrL := rfl
@[simp] theorem deliver_cw : (deliver v s).cw = s.cw := rfl
@[simp] theorem deliver_phase : (deliver v s).phase = s.phase := rfl
@[simp] theorem deliver_fi : (deliver v s).fi = s.fi := rfl
@[simp] theorem deliver_wi : (deliver v s).wi = s.wi := rfl
@[simp] theorem deliver_d0p : (deliver v s).d0p = s.d0p := rfl
@[simp] theorem deliver_mem : (deliver v s).mem = s.mem := rfl
@[simp] theorem deliver_turns : (deliver v s).turns = s.turns := rfl
@[simp] theorem deliver_returned : (deliver v s).returned = v :: s.returned := rfl
@[simp] theorem deliver_resets : (deliver v s).resets = s.resets := rfl
@[simp] theorem deliver_draws : (deliver v s).draws = s.draws := rfl

/-! `sampleWrite` -/

@[simp] theorem sampleWrite_nexpCfg : (sampleWrite k v s).nexpCfg = s.nexpCfg := rfl
@[simp] theorem sampleWrite_bodyLenCfg : (sampleWrite k v s).bodyLenCfg = s.bodyLenCfg := rfl
@[simp] theorem sampleWrite_done : (sampleWrite k v s).done = s.done := rfl
@[simp] theorem sampleWrite_errSize : (sampleWrite k v s).errSize = s.errSize := rfl
@[simp] theorem sampleWrite_errLen : (sampleWrite k v s).errLen = s.errLen := rfl
@[simp] theorem sampleWrite_errInteg : (sampleWrite k v s).errInteg = s.errInteg := rfl
@[simp] theorem sampleWrite_doneIe : (sampleWrite k v s).doneIe = s.doneIe := rfl
@[simp] theorem sampleWrite_x0 : (sampleWrite k v s).x0 = s.x0 := rfl
@[simp] theorem sampleWrite_xn : (sampleWrite k v s).xn = s.xn := rfl
@[simp] theorem sampleWrite_acc : (sampleWrite k v s).acc = s.acc := rfl
@[simp] theorem sampleWrite_cnt : (sampleWrite k v s).cnt = s.cnt := rfl
@[simp] theorem sampleWrite_nexpL : (sampleWrite k v s).nexpL = s.nexpL := rfl
@[simp] theorem sampleWrite_nfrL : (sampleWrite k v s).nfrL = s.nfrL := rfl
@[simp] theorem sampleWrite_cw : (sampleWrite k v s).cw = s.cw := rfl
@[simp] theorem sampleWrite_phase : (sampleWrite k v s).phase = s.phase := rfl
@[simp] theorem sampleWrite_fi : (sampleWrite k v s).fi = s.fi := rfl
@[simp] theorem sampleWrite_wi : (sampleWrite k v s).wi = s.wi := rfl
@[simp] theorem sampleWrite_d0p : (sampleWrite k v s).d0p = s.d0p := rfl
@[simp] theorem sampleWrite_mem : (sampleWrite k v s).mem = s.mem.writeWord (sampleAddr k.toNat) v := rfl
@[simp] theorem sampleWrite_turns : (sampleWrite k v s).turns = s.turns := rfl
@[simp] theorem sampleWrite_returned : (sampleWrite k v s).returned = s.returned := rfl
@[simp] theorem sampleWrite_resets : (sampleWrite k v s).resets = s.resets := rfl
@[simp] theorem sampleWrite_draws : (sampleWrite k v s).draws = s.draws := rfl

/-! `nextFrame` -/

@[simp] theorem nextFrame_nexpCfg : (nextFrame s).nexpCfg = s.nexpCfg := rfl
@[simp] theorem nextFrame_bodyLenCfg : (nextFrame s).bodyLenCfg = s.bodyLenCfg := rfl
@[simp] theorem nextFrame_done : (nextFrame s).done = s.done := rfl
@[simp] theorem nextFrame_errSize : (nextFrame s).errSize = s.errSize := rfl
@[simp] theorem nextFrame_errLen : (nextFrame s).errLen = s.errLen := rfl
@[simp] theorem nextFrame_errInteg : (nextFrame s).errInteg = s.errInteg := rfl
@[simp] theorem nextFrame_doneIe : (nextFrame s).doneIe = s.doneIe := rfl
@[simp] theorem nextFrame_x0 : (nextFrame s).x0 = s.x0 := rfl
@[simp] theorem nextFrame_xn : (nextFrame s).xn = s.xn := rfl
@[simp] theorem nextFrame_acc : (nextFrame s).acc = s.acc := rfl
@[simp] theorem nextFrame_cnt : (nextFrame s).cnt = s.cnt := rfl
@[simp] theorem nextFrame_nexpL : (nextFrame s).nexpL = s.nexpL := rfl
@[simp] theorem nextFrame_nfrL : (nextFrame s).nfrL = s.nfrL := rfl
@[simp] theorem nextFrame_cw : (nextFrame s).cw = s.cw := rfl
@[simp] theorem nextFrame_phase : (nextFrame s).phase = .frame := rfl
@[simp] theorem nextFrame_fi : (nextFrame s).fi = s.fi + 1 := rfl
@[simp] theorem nextFrame_wi : (nextFrame s).wi = 0 := rfl
@[simp] theorem nextFrame_d0p : (nextFrame s).d0p = s.d0p := rfl
@[simp] theorem nextFrame_mem : (nextFrame s).mem = s.mem := rfl
@[simp] theorem nextFrame_turns : (nextFrame s).turns = s.turns := rfl
@[simp] theorem nextFrame_returned : (nextFrame s).returned = s.returned := rfl
@[simp] theorem nextFrame_resets : (nextFrame s).resets = s.resets := rfl
@[simp] theorem nextFrame_draws : (nextFrame s).draws = s.draws := rfl

/-! `emitSample` -/

@[simp] theorem emitSample_nexpCfg : (emitSample v s).nexpCfg = s.nexpCfg := rfl
@[simp] theorem emitSample_bodyLenCfg : (emitSample v s).bodyLenCfg = s.bodyLenCfg := rfl
@[simp] theorem emitSample_done : (emitSample v s).done = s.done := rfl
@[simp] theorem emitSample_errSize : (emitSample v s).errSize = s.errSize := rfl
@[simp] theorem emitSample_errLen : (emitSample v s).errLen = s.errLen := rfl
@[simp] theorem emitSample_errInteg : (emitSample v s).errInteg = s.errInteg := rfl
@[simp] theorem emitSample_doneIe : (emitSample v s).doneIe = s.doneIe := rfl
@[simp] theorem emitSample_x0 : (emitSample v s).x0 = s.x0 := rfl
@[simp] theorem emitSample_xn : (emitSample v s).xn = s.xn := rfl
@[simp] theorem emitSample_acc : (emitSample v s).acc = s.acc := rfl
@[simp] theorem emitSample_cnt : (emitSample v s).cnt = s.cnt + 1 := rfl
@[simp] theorem emitSample_nexpL : (emitSample v s).nexpL = s.nexpL := rfl
@[simp] theorem emitSample_nfrL : (emitSample v s).nfrL = s.nfrL := rfl
@[simp] theorem emitSample_cw : (emitSample v s).cw = s.cw := rfl
@[simp] theorem emitSample_phase : (emitSample v s).phase = s.phase := rfl
@[simp] theorem emitSample_fi : (emitSample v s).fi = s.fi := rfl
@[simp] theorem emitSample_wi : (emitSample v s).wi = s.wi := rfl
@[simp] theorem emitSample_d0p : (emitSample v s).d0p = s.d0p := rfl
@[simp] theorem emitSample_mem : (emitSample v s).mem = s.mem.writeWord (sampleAddr s.cnt.toNat) v := rfl
@[simp] theorem emitSample_turns : (emitSample v s).turns = s.turns := rfl
@[simp] theorem emitSample_returned : (emitSample v s).returned = s.returned := rfl
@[simp] theorem emitSample_resets : (emitSample v s).resets = s.resets := rfl
@[simp] theorem emitSample_draws : (emitSample v s).draws = s.draws := rfl

/-! `integrate` -/

@[simp] theorem integrate_nexpCfg : (integrate d s).nexpCfg = s.nexpCfg := rfl
@[simp] theorem integrate_bodyLenCfg : (integrate d s).bodyLenCfg = s.bodyLenCfg := rfl
@[simp] theorem integrate_done : (integrate d s).done = s.done := rfl
@[simp] theorem integrate_errSize : (integrate d s).errSize = s.errSize := rfl
@[simp] theorem integrate_errLen : (integrate d s).errLen = s.errLen := rfl
@[simp] theorem integrate_errInteg : (integrate d s).errInteg = s.errInteg := rfl
@[simp] theorem integrate_doneIe : (integrate d s).doneIe = s.doneIe := rfl
@[simp] theorem integrate_x0 : (integrate d s).x0 = s.x0 := rfl
@[simp] theorem integrate_xn : (integrate d s).xn = s.xn := rfl
@[simp] theorem integrate_acc : (integrate d s).acc = s.acc + d := rfl
@[simp] theorem integrate_cnt : (integrate d s).cnt = s.cnt + 1 := rfl
@[simp] theorem integrate_nexpL : (integrate d s).nexpL = s.nexpL := rfl
@[simp] theorem integrate_nfrL : (integrate d s).nfrL = s.nfrL := rfl
@[simp] theorem integrate_cw : (integrate d s).cw = s.cw := rfl
@[simp] theorem integrate_phase : (integrate d s).phase = s.phase := rfl
@[simp] theorem integrate_fi : (integrate d s).fi = s.fi := rfl
@[simp] theorem integrate_wi : (integrate d s).wi = s.wi := rfl
@[simp] theorem integrate_d0p : (integrate d s).d0p = s.d0p := rfl
@[simp] theorem integrate_mem : (integrate d s).mem = s.mem.writeWord (sampleAddr s.cnt.toNat) (s.acc + d) := rfl
@[simp] theorem integrate_turns : (integrate d s).turns = s.turns := rfl
@[simp] theorem integrate_returned : (integrate d s).returned = s.returned := rfl
@[simp] theorem integrate_resets : (integrate d s).resets = s.resets := rfl
@[simp] theorem integrate_draws : (integrate d s).draws = s.draws := rfl

/-! `surplus` -/

@[simp] theorem surplus_nexpCfg : (surplus b s).nexpCfg = s.nexpCfg := rfl
@[simp] theorem surplus_bodyLenCfg : (surplus b s).bodyLenCfg = s.bodyLenCfg := rfl
@[simp] theorem surplus_done : (surplus b s).done = s.done := rfl
@[simp] theorem surplus_errSize : (surplus b s).errSize = s.errSize := rfl
@[simp] theorem surplus_errLen : (surplus b s).errLen = (s.errLen || b.surplus == .strict) := rfl
@[simp] theorem surplus_errInteg : (surplus b s).errInteg = s.errInteg := rfl
@[simp] theorem surplus_doneIe : (surplus b s).doneIe = s.doneIe := rfl
@[simp] theorem surplus_x0 : (surplus b s).x0 = s.x0 := rfl
@[simp] theorem surplus_xn : (surplus b s).xn = s.xn := rfl
@[simp] theorem surplus_acc : (surplus b s).acc = s.acc := rfl
@[simp] theorem surplus_cnt : (surplus b s).cnt = s.cnt := rfl
@[simp] theorem surplus_nexpL : (surplus b s).nexpL = s.nexpL := rfl
@[simp] theorem surplus_nfrL : (surplus b s).nfrL = s.nfrL := rfl
@[simp] theorem surplus_cw : (surplus b s).cw = s.cw := rfl
@[simp] theorem surplus_phase : (surplus b s).phase = .finish := rfl
@[simp] theorem surplus_fi : (surplus b s).fi = s.fi := rfl
@[simp] theorem surplus_wi : (surplus b s).wi = s.wi := rfl
@[simp] theorem surplus_d0p : (surplus b s).d0p = s.d0p := rfl
@[simp] theorem surplus_mem : (surplus b s).mem = s.mem := rfl
@[simp] theorem surplus_turns : (surplus b s).turns = s.turns := rfl
@[simp] theorem surplus_returned : (surplus b s).returned = s.returned := rfl
@[simp] theorem surplus_resets : (surplus b s).resets = s.resets := rfl
@[simp] theorem surplus_draws : (surplus b s).draws = s.draws := rfl

/-! `latchControlWord` -/

@[simp] theorem latchControlWord_nexpCfg : (latchControlWord w s).nexpCfg = s.nexpCfg := rfl
@[simp] theorem latchControlWord_bodyLenCfg : (latchControlWord w s).bodyLenCfg = s.bodyLenCfg := rfl
@[simp] theorem latchControlWord_done : (latchControlWord w s).done = s.done := rfl
@[simp] theorem latchControlWord_errSize : (latchControlWord w s).errSize = s.errSize := rfl
@[simp] theorem latchControlWord_errLen : (latchControlWord w s).errLen = s.errLen := rfl
@[simp] theorem latchControlWord_errInteg : (latchControlWord w s).errInteg = s.errInteg := rfl
@[simp] theorem latchControlWord_doneIe : (latchControlWord w s).doneIe = s.doneIe := rfl
@[simp] theorem latchControlWord_x0 : (latchControlWord w s).x0 = s.x0 := rfl
@[simp] theorem latchControlWord_xn : (latchControlWord w s).xn = s.xn := rfl
@[simp] theorem latchControlWord_acc : (latchControlWord w s).acc = s.acc := rfl
@[simp] theorem latchControlWord_cnt : (latchControlWord w s).cnt = s.cnt := rfl
@[simp] theorem latchControlWord_nexpL : (latchControlWord w s).nexpL = s.nexpL := rfl
@[simp] theorem latchControlWord_nfrL : (latchControlWord w s).nfrL = s.nfrL := rfl
@[simp] theorem latchControlWord_cw : (latchControlWord w s).cw = w := rfl
@[simp] theorem latchControlWord_phase : (latchControlWord w s).phase = if inFrame0 s then .ic else .word := rfl
@[simp] theorem latchControlWord_fi : (latchControlWord w s).fi = s.fi := rfl
@[simp] theorem latchControlWord_wi : (latchControlWord w s).wi = 1 := rfl
@[simp] theorem latchControlWord_d0p : (latchControlWord w s).d0p = s.d0p := rfl
@[simp] theorem latchControlWord_mem : (latchControlWord w s).mem = s.mem := rfl
@[simp] theorem latchControlWord_turns : (latchControlWord w s).turns = s.turns := rfl
@[simp] theorem latchControlWord_returned : (latchControlWord w s).returned = s.returned := rfl
@[simp] theorem latchControlWord_resets : (latchControlWord w s).resets = s.resets := rfl
@[simp] theorem latchControlWord_draws : (latchControlWord w s).draws = s.draws := rfl

/-! `setX0` -/

@[simp] theorem setX0_nexpCfg : (setX0 b w s).nexpCfg = s.nexpCfg := rfl
@[simp] theorem setX0_bodyLenCfg : (setX0 b w s).bodyLenCfg = s.bodyLenCfg := rfl
@[simp] theorem setX0_done : (setX0 b w s).done = s.done := rfl
@[simp] theorem setX0_errSize : (setX0 b w s).errSize = s.errSize := rfl
@[simp] theorem setX0_errLen : (setX0 b w s).errLen = s.errLen := rfl
@[simp] theorem setX0_errInteg : (setX0 b w s).errInteg = s.errInteg := rfl
@[simp] theorem setX0_doneIe : (setX0 b w s).doneIe = s.doneIe := rfl
@[simp] theorem setX0_x0 : (setX0 b w s).x0 = w := rfl
@[simp] theorem setX0_xn : (setX0 b w s).xn = s.xn := rfl
@[simp] theorem setX0_acc : (setX0 b w s).acc = w := rfl
@[simp] theorem setX0_cnt : (setX0 b w s).cnt = s.cnt := rfl
@[simp] theorem setX0_nexpL : (setX0 b w s).nexpL = s.nexpL := rfl
@[simp] theorem setX0_nfrL : (setX0 b w s).nfrL = s.nfrL := rfl
@[simp] theorem setX0_cw : (setX0 b w s).cw = s.cw := rfl
@[simp] theorem setX0_phase : (setX0 b w s).phase = s.phase := rfl
@[simp] theorem setX0_fi : (setX0 b w s).fi = s.fi := rfl
@[simp] theorem setX0_wi : (setX0 b w s).wi = s.wi := rfl
@[simp] theorem setX0_d0p : (setX0 b w s).d0p = (b.d0 == .skip) := rfl
@[simp] theorem setX0_mem : (setX0 b w s).mem = s.mem := rfl
@[simp] theorem setX0_turns : (setX0 b w s).turns = s.turns := rfl
@[simp] theorem setX0_returned : (setX0 b w s).returned = s.returned := rfl
@[simp] theorem setX0_resets : (setX0 b w s).resets = s.resets := rfl
@[simp] theorem setX0_draws : (setX0 b w s).draws = s.draws := rfl

/-! `loadXn` -/

@[simp] theorem loadXn_nexpCfg : (loadXn w s).nexpCfg = s.nexpCfg := rfl
@[simp] theorem loadXn_bodyLenCfg : (loadXn w s).bodyLenCfg = s.bodyLenCfg := rfl
@[simp] theorem loadXn_done : (loadXn w s).done = s.done := rfl
@[simp] theorem loadXn_errSize : (loadXn w s).errSize = s.errSize := rfl
@[simp] theorem loadXn_errLen : (loadXn w s).errLen = s.errLen := rfl
@[simp] theorem loadXn_errInteg : (loadXn w s).errInteg = s.errInteg := rfl
@[simp] theorem loadXn_doneIe : (loadXn w s).doneIe = s.doneIe := rfl
@[simp] theorem loadXn_x0 : (loadXn w s).x0 = s.x0 := rfl
@[simp] theorem loadXn_xn : (loadXn w s).xn = w := rfl
@[simp] theorem loadXn_acc : (loadXn w s).acc = s.acc := rfl
@[simp] theorem loadXn_cnt : (loadXn w s).cnt = s.cnt := rfl
@[simp] theorem loadXn_nexpL : (loadXn w s).nexpL = s.nexpL := rfl
@[simp] theorem loadXn_nfrL : (loadXn w s).nfrL = s.nfrL := rfl
@[simp] theorem loadXn_cw : (loadXn w s).cw = s.cw := rfl
@[simp] theorem loadXn_phase : (loadXn w s).phase = s.phase := rfl
@[simp] theorem loadXn_fi : (loadXn w s).fi = s.fi := rfl
@[simp] theorem loadXn_wi : (loadXn w s).wi = s.wi := rfl
@[simp] theorem loadXn_d0p : (loadXn w s).d0p = s.d0p := rfl
@[simp] theorem loadXn_mem : (loadXn w s).mem = s.mem := rfl
@[simp] theorem loadXn_turns : (loadXn w s).turns = s.turns := rfl
@[simp] theorem loadXn_returned : (loadXn w s).returned = s.returned := rfl
@[simp] theorem loadXn_resets : (loadXn w s).resets = s.resets := rfl
@[simp] theorem loadXn_draws : (loadXn w s).draws = s.draws := rfl

/-! `endOfBody` -/

@[simp] theorem endOfBody_nexpCfg : (endOfBody s).nexpCfg = s.nexpCfg := rfl
@[simp] theorem endOfBody_bodyLenCfg : (endOfBody s).bodyLenCfg = s.bodyLenCfg := rfl
@[simp] theorem endOfBody_done : (endOfBody s).done = s.done := rfl
@[simp] theorem endOfBody_errSize : (endOfBody s).errSize = s.errSize := rfl
@[simp] theorem endOfBody_errLen : (endOfBody s).errLen = s.errLen := rfl
@[simp] theorem endOfBody_errInteg : (endOfBody s).errInteg = s.errInteg := rfl
@[simp] theorem endOfBody_doneIe : (endOfBody s).doneIe = s.doneIe := rfl
@[simp] theorem endOfBody_x0 : (endOfBody s).x0 = s.x0 := rfl
@[simp] theorem endOfBody_xn : (endOfBody s).xn = s.xn := rfl
@[simp] theorem endOfBody_acc : (endOfBody s).acc = s.acc := rfl
@[simp] theorem endOfBody_cnt : (endOfBody s).cnt = s.cnt := rfl
@[simp] theorem endOfBody_nexpL : (endOfBody s).nexpL = s.nexpL := rfl
@[simp] theorem endOfBody_nfrL : (endOfBody s).nfrL = s.nfrL := rfl
@[simp] theorem endOfBody_cw : (endOfBody s).cw = s.cw := rfl
@[simp] theorem endOfBody_phase : (endOfBody s).phase = .finish := rfl
@[simp] theorem endOfBody_fi : (endOfBody s).fi = s.fi := rfl
@[simp] theorem endOfBody_wi : (endOfBody s).wi = s.wi := rfl
@[simp] theorem endOfBody_d0p : (endOfBody s).d0p = s.d0p := rfl
@[simp] theorem endOfBody_mem : (endOfBody s).mem = s.mem := rfl
@[simp] theorem endOfBody_turns : (endOfBody s).turns = s.turns := rfl
@[simp] theorem endOfBody_returned : (endOfBody s).returned = s.returned := rfl
@[simp] theorem endOfBody_resets : (endOfBody s).resets = s.resets := rfl
@[simp] theorem endOfBody_draws : (endOfBody s).draws = s.draws := rfl

/-! `complete` -/

@[simp] theorem complete_nexpCfg : (complete s).nexpCfg = s.nexpCfg := rfl
@[simp] theorem complete_bodyLenCfg : (complete s).bodyLenCfg = s.bodyLenCfg := rfl
@[simp] theorem complete_done : (complete s).done = true := rfl
@[simp] theorem complete_errSize : (complete s).errSize = s.errSize := rfl
@[simp] theorem complete_errLen : (complete s).errLen = s.errLen := rfl
@[simp] theorem complete_errInteg : (complete s).errInteg = s.errInteg := rfl
@[simp] theorem complete_doneIe : (complete s).doneIe = s.doneIe := rfl
@[simp] theorem complete_x0 : (complete s).x0 = s.x0 := rfl
@[simp] theorem complete_xn : (complete s).xn = s.xn := rfl
@[simp] theorem complete_acc : (complete s).acc = s.acc := rfl
@[simp] theorem complete_cnt : (complete s).cnt = s.cnt := rfl
@[simp] theorem complete_nexpL : (complete s).nexpL = s.nexpL := rfl
@[simp] theorem complete_nfrL : (complete s).nfrL = s.nfrL := rfl
@[simp] theorem complete_cw : (complete s).cw = s.cw := rfl
@[simp] theorem complete_phase : (complete s).phase = .idle := rfl
@[simp] theorem complete_fi : (complete s).fi = s.fi := rfl
@[simp] theorem complete_wi : (complete s).wi = s.wi := rfl
@[simp] theorem complete_d0p : (complete s).d0p = s.d0p := rfl
@[simp] theorem complete_mem : (complete s).mem = s.mem := rfl
@[simp] theorem complete_turns : (complete s).turns = s.turns := rfl
@[simp] theorem complete_returned : (complete s).returned = s.returned := rfl
@[simp] theorem complete_resets : (complete s).resets = s.resets := rfl
@[simp] theorem complete_draws : (complete s).draws = s.draws := rfl

/-! `clearRun` -/

@[simp] theorem clearRun_nexpCfg : (clearRun s).nexpCfg = s.nexpCfg := rfl
@[simp] theorem clearRun_bodyLenCfg : (clearRun s).bodyLenCfg = s.bodyLenCfg := rfl
@[simp] theorem clearRun_done : (clearRun s).done = false := rfl
@[simp] theorem clearRun_errSize : (clearRun s).errSize = false := rfl
@[simp] theorem clearRun_errLen : (clearRun s).errLen = false := rfl
@[simp] theorem clearRun_errInteg : (clearRun s).errInteg = false := rfl
@[simp] theorem clearRun_doneIe : (clearRun s).doneIe = s.doneIe := rfl
@[simp] theorem clearRun_x0 : (clearRun s).x0 = 0 := rfl
@[simp] theorem clearRun_xn : (clearRun s).xn = 0 := rfl
@[simp] theorem clearRun_acc : (clearRun s).acc = 0 := rfl
@[simp] theorem clearRun_cnt : (clearRun s).cnt = 0 := rfl
@[simp] theorem clearRun_nexpL : (clearRun s).nexpL = s.nexpCfg := rfl
@[simp] theorem clearRun_nfrL : (clearRun s).nfrL = s.nfrL := rfl
@[simp] theorem clearRun_cw : (clearRun s).cw = 0 := rfl
@[simp] theorem clearRun_phase : (clearRun s).phase = s.phase := rfl
@[simp] theorem clearRun_fi : (clearRun s).fi = 0 := rfl
@[simp] theorem clearRun_wi : (clearRun s).wi = 0 := rfl
@[simp] theorem clearRun_d0p : (clearRun s).d0p = false := rfl
@[simp] theorem clearRun_mem : (clearRun s).mem = s.mem := rfl
@[simp] theorem clearRun_turns : (clearRun s).turns = s.turns := rfl
@[simp] theorem clearRun_returned : (clearRun s).returned = s.returned := rfl
@[simp] theorem clearRun_resets : (clearRun s).resets = s.resets := rfl
@[simp] theorem clearRun_draws : (clearRun s).draws = s.draws := rfl

/-! `finalChecks` -/

@[simp] theorem finalChecks_nexpCfg : (finalChecks s).nexpCfg = s.nexpCfg := rfl
@[simp] theorem finalChecks_bodyLenCfg : (finalChecks s).bodyLenCfg = s.bodyLenCfg := rfl
@[simp] theorem finalChecks_done : (finalChecks s).done = s.done := rfl
@[simp] theorem finalChecks_errSize : (finalChecks s).errSize = s.errSize := rfl
@[simp] theorem finalChecks_errLen : (finalChecks s).errLen = (s.errLen || lengthShort s) := rfl
@[simp] theorem finalChecks_errInteg : (finalChecks s).errInteg = (s.errInteg || integrityBad s) := rfl
@[simp] theorem finalChecks_doneIe : (finalChecks s).doneIe = s.doneIe := rfl
@[simp] theorem finalChecks_x0 : (finalChecks s).x0 = s.x0 := rfl
@[simp] theorem finalChecks_xn : (finalChecks s).xn = s.xn := rfl
@[simp] theorem finalChecks_acc : (finalChecks s).acc = s.acc := rfl
@[simp] theorem finalChecks_cnt : (finalChecks s).cnt = s.cnt := rfl
@[simp] theorem finalChecks_nexpL : (finalChecks s).nexpL = s.nexpL := rfl
@[simp] theorem finalChecks_nfrL : (finalChecks s).nfrL = s.nfrL := rfl
@[simp] theorem finalChecks_cw : (finalChecks s).cw = s.cw := rfl
@[simp] theorem finalChecks_phase : (finalChecks s).phase = s.phase := rfl
@[simp] theorem finalChecks_fi : (finalChecks s).fi = s.fi := rfl
@[simp] theorem finalChecks_wi : (finalChecks s).wi = s.wi := rfl
@[simp] theorem finalChecks_d0p : (finalChecks s).d0p = s.d0p := rfl
@[simp] theorem finalChecks_mem : (finalChecks s).mem = s.mem := rfl
@[simp] theorem finalChecks_turns : (finalChecks s).turns = s.turns := rfl
@[simp] theorem finalChecks_returned : (finalChecks s).returned = s.returned := rfl
@[simp] theorem finalChecks_resets : (finalChecks s).resets = s.resets := rfl
@[simp] theorem finalChecks_draws : (finalChecks s).draws = s.draws := rfl

/-! `softReset` -/

@[simp] theorem softReset_nexpCfg : (softReset s).nexpCfg = 0 := rfl
@[simp] theorem softReset_bodyLenCfg : (softReset s).bodyLenCfg = 0 := rfl
@[simp] theorem softReset_done : (softReset s).done = false := rfl
@[simp] theorem softReset_errSize : (softReset s).errSize = false := rfl
@[simp] theorem softReset_errLen : (softReset s).errLen = false := rfl
@[simp] theorem softReset_errInteg : (softReset s).errInteg = false := rfl
@[simp] theorem softReset_doneIe : (softReset s).doneIe = false := rfl
@[simp] theorem softReset_x0 : (softReset s).x0 = 0 := rfl
@[simp] theorem softReset_xn : (softReset s).xn = 0 := rfl
@[simp] theorem softReset_acc : (softReset s).acc = 0 := rfl
@[simp] theorem softReset_cnt : (softReset s).cnt = 0 := rfl
@[simp] theorem softReset_nexpL : (softReset s).nexpL = 0 := rfl
@[simp] theorem softReset_nfrL : (softReset s).nfrL = 0 := rfl
@[simp] theorem softReset_cw : (softReset s).cw = 0 := rfl
@[simp] theorem softReset_phase : (softReset s).phase = .idle := rfl
@[simp] theorem softReset_fi : (softReset s).fi = 0 := rfl
@[simp] theorem softReset_wi : (softReset s).wi = 0 := rfl
@[simp] theorem softReset_d0p : (softReset s).d0p = false := rfl
@[simp] theorem softReset_mem : (softReset s).mem = s.mem := rfl
@[simp] theorem softReset_turns : (softReset s).turns = s.turns := rfl
@[simp] theorem softReset_returned : (softReset s).returned = s.returned := rfl
@[simp] theorem softReset_resets : (softReset s).resets = s.resets := rfl
@[simp] theorem softReset_draws : (softReset s).draws = s.draws := rfl

/-! `hardReset` -/

@[simp] theorem hardReset_nexpCfg : (hardReset s).nexpCfg = 0 := rfl
@[simp] theorem hardReset_bodyLenCfg : (hardReset s).bodyLenCfg = 0 := rfl
@[simp] theorem hardReset_done : (hardReset s).done = false := rfl
@[simp] theorem hardReset_errSize : (hardReset s).errSize = false := rfl
@[simp] theorem hardReset_errLen : (hardReset s).errLen = false := rfl
@[simp] theorem hardReset_errInteg : (hardReset s).errInteg = false := rfl
@[simp] theorem hardReset_doneIe : (hardReset s).doneIe = false := rfl
@[simp] theorem hardReset_x0 : (hardReset s).x0 = 0 := rfl
@[simp] theorem hardReset_xn : (hardReset s).xn = 0 := rfl
@[simp] theorem hardReset_acc : (hardReset s).acc = 0 := rfl
@[simp] theorem hardReset_cnt : (hardReset s).cnt = 0 := rfl
@[simp] theorem hardReset_nexpL : (hardReset s).nexpL = 0 := rfl
@[simp] theorem hardReset_nfrL : (hardReset s).nfrL = 0 := rfl
@[simp] theorem hardReset_cw : (hardReset s).cw = 0 := rfl
@[simp] theorem hardReset_phase : (hardReset s).phase = .idle := rfl
@[simp] theorem hardReset_fi : (hardReset s).fi = 0 := rfl
@[simp] theorem hardReset_wi : (hardReset s).wi = 0 := rfl
@[simp] theorem hardReset_d0p : (hardReset s).d0p = false := rfl
@[simp] theorem hardReset_mem : (hardReset s).mem = [] := rfl
@[simp] theorem hardReset_turns : (hardReset s).turns = s.turns := rfl
@[simp] theorem hardReset_returned : (hardReset s).returned = s.returned := rfl
@[simp] theorem hardReset_resets : (hardReset s).resets = s.resets + 1 := rfl
@[simp] theorem hardReset_draws : (hardReset s).draws = s.draws + 1 := rfl

/-! The state after reset (R41). -/

@[simp] theorem reset_nexpCfg : State.reset.nexpCfg = 0 := rfl
@[simp] theorem reset_bodyLenCfg : State.reset.bodyLenCfg = 0 := rfl
@[simp] theorem reset_done : State.reset.done = false := rfl
@[simp] theorem reset_errSize : State.reset.errSize = false := rfl
@[simp] theorem reset_errLen : State.reset.errLen = false := rfl
@[simp] theorem reset_errInteg : State.reset.errInteg = false := rfl
@[simp] theorem reset_doneIe : State.reset.doneIe = false := rfl
@[simp] theorem reset_x0 : State.reset.x0 = 0 := rfl
@[simp] theorem reset_xn : State.reset.xn = 0 := rfl
@[simp] theorem reset_acc : State.reset.acc = 0 := rfl
@[simp] theorem reset_cnt : State.reset.cnt = 0 := rfl
@[simp] theorem reset_nexpL : State.reset.nexpL = 0 := rfl
@[simp] theorem reset_nfrL : State.reset.nfrL = 0 := rfl
@[simp] theorem reset_cw : State.reset.cw = 0 := rfl
@[simp] theorem reset_phase : State.reset.phase = .idle := rfl
@[simp] theorem reset_fi : State.reset.fi = 0 := rfl
@[simp] theorem reset_wi : State.reset.wi = 0 := rfl
@[simp] theorem reset_d0p : State.reset.d0p = false := rfl
@[simp] theorem reset_mem : State.reset.mem = [] := rfl
@[simp] theorem reset_turns : State.reset.turns = [] := rfl
@[simp] theorem reset_returned : State.reset.returned = [] := rfl
@[simp] theorem reset_resets : State.reset.resets = 0 := rfl
@[simp] theorem reset_draws : State.reset.draws = 0 := rfl

end Sys2Proof.Machine
end

