-- ==== Sys2Proof/Laws/Ops.lean ====
section
/-! SUPPORT. What the shared operations can do, each said once: lanes, the cursor, the accumulator, the memories. -/

namespace Sys2Proof.Machine

variable {s t : State} {b : Config.Build} {d : Word} {ds : List Word}

/-! ### The tests -/

theorem wantsSample_iff : wantsSample s = true ↔ s.cnt.toNat < s.nexpL.toNat := by
  simp [wantsSample, BitVec.lt_def]

theorem wantsSample_false_iff : wantsSample s = false ↔ s.nexpL.toNat ≤ s.cnt.toNat := by
  rw [← Bool.not_eq_true, wantsSample_iff, not_lt]

theorem bodyExhausted_iff : bodyExhausted s = true ↔ s.fi.toNat = s.nfrL.toNat := by
  have := s.fi.isLt
  rw [bodyExhausted, beq_iff_eq, ← BitVec.toNat_inj, BitVec.toNat_setWidth, Nat.mod_eq_of_lt (by omega)]

theorem busy_iff : busy s = true ↔ s.phase ≠ .idle := by simp [busy]

theorem badBodyLen_iff : badBodyLen s = true ↔ s.bodyLenCfg.toNat % 64 ≠ 0 := by
  simp [badBodyLen, Config.frameBytes]

/-! ### The cursor -/

/-- AdvanceWord moves to the next word, or to the next frame after word 15 (R105). -/
theorem advanceWord_cases :
    (s.wi = 15 ∧ advanceWord s = nextFrame s) ∨ (s.wi ≠ 15 ∧ advanceWord s = { s with wi := s.wi + 1 }) := by
  by_cases h : s.wi = 15
  · exact .inl ⟨h, if_pos h⟩
  · exact .inr ⟨h, if_neg h⟩

/-! ### Lanes -/

theorem processLane_discard (h : s.d0p = true) : processLane b d s = (.proceed, { s with d0p := false }) := by
  simp [processLane, h]

theorem processLane_integrate (h : s.d0p = false) (hc : s.cnt.toNat < s.nexpL.toNat) :
    processLane b d s = (.proceed, integrate d s) := by
  simp [processLane, h, wantsSample_iff.2 hc]

theorem processLane_surplus (h : s.d0p = false) (hc : s.nexpL.toNat ≤ s.cnt.toNat) :
    processLane b d s = (.terminate, surplus b s) := by
  simp [processLane, h, wantsSample_false_iff.2 hc]

/-- The lanes of a word keep a property that every single effect keeps: the discard of the first difference, an
integration while samples are wanted, a surplus, AdvanceWord. -/
theorem processLanes_induct (P : State → Prop)
    (discard : ∀ s, P s → s.d0p = true → P { s with d0p := false })
    (integ : ∀ s d, P s → s.d0p = false → s.cnt.toNat < s.nexpL.toNat → P (integrate d s))
    (surp : ∀ s, P s → s.d0p = false → s.nexpL.toNat ≤ s.cnt.toNat → P (surplus b s))
    (adv : ∀ s, P s → P (advanceWord s)) : ∀ ds s, P s → P (processLanes b ds s) := by
  intro ds
  induction ds with
  | nil => exact adv
  | cons d ds ih =>
    intro s hs
    rw [processLanes]
    cases h : s.d0p with
    | true => rw [processLane_discard h]; exact ih _ (discard s hs h)
    | false =>
      rcases Nat.lt_or_ge s.cnt.toNat s.nexpL.toNat with hc | hc
      · rw [processLane_integrate h hc]; exact ih _ (integ s d hs h hc)
      · rw [processLane_surplus h hc]; exact surp s hs h hc

/-- The first lane under a pending D0P is discarded (R123). -/
theorem processLanes_discard (h : s.d0p = true) :
    processLanes b (d :: ds) s = processLanes b ds { s with d0p := false } := by
  rw [processLanes, processLane_discard h]

theorem integrate_cnt_toNat (hc : s.cnt.toNat < s.nexpL.toNat) : (integrate d s).cnt.toNat = s.cnt.toNat + 1 := by
  have := s.nexpL.isLt
  simp [BitVec.toNat_add]
  omega

/-- A word whose lanes are all wanted is integrated whole, and the cursor advances (R103). -/
theorem processLanes_room (h : s.d0p = false) (hc : s.cnt.toNat + ds.length ≤ s.nexpL.toNat) :
    processLanes b ds s = advanceWord (integrateAll ds s) := by
  induction ds generalizing s with
  | nil => rfl
  | cons d ds ih =>
    simp only [List.length_cons] at hc
    have hlt : s.cnt.toNat < s.nexpL.toNat := by omega
    rw [processLanes, processLane_integrate h hlt, integrateAll]
    exact ih (by simpa using h) (by rw [integrate_cnt_toNat hlt]; simp; omega)

/-- A word in which lane `n` is surplus: lanes 0 to n-1 are integrated, the cursor stays (R127). -/
theorem processLanes_surplus {n : Nat} (h : s.d0p = false) (hn : n < ds.length)
    (hc : s.cnt.toNat + n = s.nexpL.toNat) : processLanes b ds s = surplus b (integrateAll (ds.take n) s) := by
  induction ds generalizing s n with
  | nil => simp at hn
  | cons d ds ih =>
    cases n with
    | zero => rw [processLanes, processLane_surplus h (by omega)]; rfl
    | succ n =>
      have hlt : s.cnt.toNat < s.nexpL.toNat := by omega
      rw [processLanes, processLane_integrate h hlt, List.take_succ_cons, integrateAll]
      refine ih (by simpa using h) (by simpa using hn) ?_
      rw [integrate_cnt_toNat hlt]; simp; omega

/-! ### Integration of several differences -/

theorem integrateAll_append (xs ys : List Word) (s : State) :
    integrateAll (xs ++ ys) s = integrateAll ys (integrateAll xs s) := by
  induction xs generalizing s with
  | nil => rfl
  | cons x xs ih => exact ih _

/-- Integration changes the accumulator, the count and the memory only. -/
theorem integrateAll_eq (ds : List Word) (s : State) :
    integrateAll ds s =
      { s with
        acc := ds.foldl (· + ·) s.acc, cnt := s.cnt + BitVec.ofNat 16 ds.length
        mem := (integrateAll ds s).mem } := by
  induction ds generalizing s with
  | nil => simp [integrateAll]
  | cons d ds ih =>
    rw [integrateAll, ih]
    simp only [integrate, emitSample, sampleWrite, List.foldl_cons, List.length_cons]
    congr 1
    apply BitVec.eq_of_toNat_eq
    simp [BitVec.toNat_add]
    omega

theorem integrateAll_acc (ds : List Word) (s : State) : (integrateAll ds s).acc = ds.foldl (· + ·) s.acc := by
  rw [integrateAll_eq]

theorem integrateAll_cnt_toNat (h : s.cnt.toNat + ds.length < 65536) :
    (integrateAll ds s).cnt.toNat = s.cnt.toNat + ds.length := by
  rw [integrateAll_eq]
  simp [BitVec.toNat_add]
  omega

/-- Integration writes the entries from CNT on, and no other byte. -/
theorem read_integrateAll_other (ds : List Word) {a : Nat} (hn : s.cnt.toNat + ds.length ≤ 65535)
    (h : a < sampleAddr s.cnt.toNat ∨ sampleAddr (s.cnt.toNat + ds.length) ≤ a) :
    (integrateAll ds s).mem.read a = s.mem.read a := by
  induction ds generalizing s with
  | nil => rfl
  | cons d ds ih =>
    simp only [List.length_cons] at hn h
    have hc : (integrate d s).cnt.toNat = s.cnt.toNat + 1 := by simp [BitVec.toNat_add]; omega
    have hs : sampleAddr (s.cnt.toNat + 1) = sampleAddr s.cnt.toNat + 4 := by simp [sampleAddr]; omega
    have hl : sampleAddr (s.cnt.toNat + (ds.length + 1)) = sampleAddr s.cnt.toNat + 4 + 4 * ds.length := by
      simp [sampleAddr]; omega
    have hl' : sampleAddr (s.cnt.toNat + 1 + ds.length) = sampleAddr s.cnt.toNat + 4 + 4 * ds.length := by
      simp [sampleAddr]; omega
    rw [integrateAll, ih (by rw [hc]; omega) (by rw [hc, hs, hl']; omega), integrate_mem]
    exact read_writeWord_other _ _ (by omega)

theorem sampleEntry_congr (hr : t.resets = s.resets) {k : Nat}
    (h : ∀ a, sampleAddr k ≤ a → a < sampleAddr (k + 1) → t.mem.read a = s.mem.read a) :
    sampleEntry t k = sampleEntry s k :=
  readWord_congr hr fun j hj => h _ (by omega) (by simp only [sampleAddr]; omega)

/-- Sample CNT + j is the sum of the accumulator and the differences up to the j-th (R121). -/
theorem sampleEntry_integrateAll (ds : List Word) (hn : s.cnt.toNat + ds.length ≤ 65535) {j : Nat}
    (hj : j < ds.length) :
    sampleEntry (integrateAll ds s) (s.cnt.toNat + j) = (ds.take (j + 1)).foldl (· + ·) s.acc := by
  induction ds generalizing s j with
  | nil => simp at hj
  | cons d ds ih =>
    simp only [List.length_cons] at hn hj
    have hc : (integrate d s).cnt.toNat = s.cnt.toNat + 1 := by simp [BitVec.toNat_add]; omega
    rw [integrateAll, List.take_succ_cons, List.foldl_cons]
    cases j with
    | zero =>
      rw [sampleEntry_congr (s := integrate d s) (by rw [integrateAll_eq])]
      · exact readWord_of_write (integrate_mem s d)
      · intro a _ h2
        exact read_integrateAll_other ds (by rw [hc]; omega) (.inl (by rw [hc]; simpa using h2))
    | succ j =>
      have := ih (s := integrate d s) (j := j) (by rw [hc]; omega) (by omega)
      rw [hc] at this
      rw [show s.cnt.toNat + (j + 1) = s.cnt.toNat + 1 + j by omega, this]
      rfl

end Sys2Proof.Machine
end

