-- ==== Sys2Proof/Laws/HostBus.lean ====
section
/-! SUPPORT. What a host access can do, said once. -/

namespace Sys2Proof.Machine

variable {s t : State} {a : Access} {w : Width} {ad : Addr} {v : Word}

/-! ### Regions and refusals -/

theorem regionOf_body_iff : regionOf ad = .body ↔ 0x10000 ≤ ad.toNat ∧ ad.toNat < 0x20000 := by
  unfold regionOf
  split_ifs <;> simp <;> omega

theorem regionOf_registers_iff : regionOf ad = .registers ↔ ad.toNat < 0x40 := by
  unfold regionOf
  split_ifs <;> simp <;> omega

theorem regionOf_samples_iff : regionOf ad = .samples ↔ 0x40000 ≤ ad.toNat ∧ ad.toNat < 0x80000 := by
  unfold regionOf
  split_ifs <;> simp <;> omega

/-- An access that is not refused is an 8-bit one or an aligned 32-bit one (R53, R184). -/
theorem access_shape (h : refusedShape w ad = false) : w = .b8 ∨ (w = .b32 ∧ ad.toNat % 4 = 0) := by
  cases w <;> simp_all [refusedShape]

/-- An access to the registers that is not refused is an aligned 32-bit one (R52). -/
theorem register_access (hr : regionOf ad = .registers) (h : refusedShape w ad = false) :
    w = .b32 ∧ ad.toNat % 4 = 0 := by
  cases w <;> simp_all [refusedShape]

/-- The addresses of the registers that a write changes (R22). -/
theorem registerAt_address :
    (registerAt ad.toNat = .ctrl → ad = 0) ∧ (registerAt ad.toNat = .nexp → ad = 0x04) ∧
    (registerAt ad.toNat = .bodyLen → ad = 0x08) ∧ (registerAt ad.toNat = .status → ad = 0x0C) ∧
    (registerAt ad.toNat = .ie → ad = 0x10) := by
  refine ⟨?_, ?_, ?_, ?_, ?_⟩
  all_goals
    intro h
    unfold registerAt at h
    split at h
    all_goals first
      | exact BitVec.eq_of_toNat_eq ‹_›
      | cases h

/-! ### Accesses -/

/-- What an access that answers a next state does. -/
theorem hostAccess_cases (h : hostAccess a s = .next t) :
    (∃ w ad, a = .read w ad ∧ t = deliver (hostRead Config.build w ad s) s) ∨
    (∃ v, a = .write .b32 0 v ∧ exec (decodeCtrlWrite v) s = .next t) ∨
    (∃ w ad v, a = .write w ad v ∧
      (t = s ∨ (w = .b32 ∧ ad = 0x0C ∧ t = writeStatus v s) ∨
        (w = .b32 ∧ ad = 0x04 ∧ t = { s with nexpCfg := v.setWidth 16 }) ∨
        (w = .b32 ∧ ad = 0x08 ∧ t = { s with bodyLenCfg := v.setWidth 16 }) ∨
        (w = .b32 ∧ ad = 0x10 ∧ t = { s with doneIe := v.getLsbD 0 }) ∨
        (s.phase = .idle ∧ regionOf ad = .body ∧ refusedShape w ad = false ∧ t = writeBody w ad v s))) := by
  unfold hostAccess at h
  split at h
  · cases h
  rename_i href
  cases a with
  | read w ad => cases h; exact .inl ⟨w, ad, rfl, rfl⟩
  | write w ad v =>
    have hshape : refusedShape w ad = false := by simpa [Access.isRefused] using href
    simp only [hostWrite] at h
    split at h
    · rename_i hreg
      obtain ⟨rfl, -⟩ := register_access hreg hshape
      obtain ⟨h0, h1, h2, h3, h4⟩ := registerAt_address (ad := ad)
      cases hr : registerAt ad.toNat <;> rw [hr] at h <;> simp only [writeRegister] at h
      case ctrl =>
        obtain rfl := h0 hr
        exact .inr (.inl ⟨v, rfl, h⟩)
      all_goals
        cases h
        refine .inr (.inr ⟨.b32, ad, v, rfl, ?_⟩)
        simp_all
    · rename_i hreg
      simp only [Host.Outcome.next.injEq] at h
      refine .inr (.inr ⟨w, ad, v, rfl, ?_⟩)
      split at h
      · exact .inl h.symm
      · rename_i hb
        have hp : s.phase = .idle := by by_contra hne; exact hb (busy_iff.2 hne)
        simp [hp, hreg, hshape, h]
    all_goals
      cases h
      exact .inr (.inr ⟨w, ad, v, rfl, .inl rfl⟩)

end Sys2Proof.Machine
end

