-- ==== Sys2Proof/Laws/PerInstr.lean ====
section
/-! SUPPORT. Statements about each instruction as syntax, one lemma per constructor. -/

namespace Sys2Proof.Laws.MatchesRow

/-- The first row of the opcode table that an encoding selects (R89, R91). -/
def selectedOp (e : Encoding) : Option Op :=
  match e with
  | .bodyWord key _ => firstRow keyRows key
  | .ctrlWrite v => firstRow ctrlRows v

/-- The encoding of a well-formed instruction selects the instruction's own row first. -/
def Statement (i : Instr) : Prop := i.wellFormed = true → selectedOp (encode i) = some i.op

/-- At a data position the code alone selects among rows 4 to 7 (R89). -/
theorem firstRow_dataPosition : ∀ (f0 : Bool) (wi : BitVec 4), IsDataPosition f0 wi →
    firstRow keyRows (selectorKey f0 wi 0) = some .stop ∧ firstRow keyRows (selectorKey f0 wi 1) = some .d8x4 ∧
    firstRow keyRows (selectorKey f0 wi 2) = some .d16x2 ∧ firstRow keyRows (selectorKey f0 wi 3) = some .d32x1 := by
  decide

/-- `v[1:0]` alone selects among the rows of a CTRL write (R91). -/
theorem firstRow_ctrlValue (ignored : BitVec 30) (b1 b0 : Bool) :
    firstRow ctrlRows (ctrlValue ignored b1 b0) =
      some (if b1 then .srst else if b0 then .start else .ctrlNop) := by
  have mask2 : ctrlValue ignored b1 b0 &&& (2 : BitVec 32) = if b1 then 2#32 else 0#32 := by
    change _ &&& 2#32 = _
    refine BitVec.eq_of_getLsbD_eq fun i _ => ?_
    rw [BitVec.getLsbD_and, ctrlValue_getLsbD]
    rcases i with _ | _ | i
    · cases b1 <;> cases b0 <;> rfl
    · cases b1 <;> rfl
    · have : (2#32).getLsbD (i + 1 + 1) = false := by simp [BitVec.getLsbD_ofNat, Nat.testBit_succ]
      rw [this]; cases b1 <;> simp [this]
  have mask3 : ctrlValue ignored b1 b0 &&& (3 : BitVec 32) =
      (if b1 then 2#32 else 0#32) ||| (if b0 then 1#32 else 0#32) := by
    change _ &&& 3#32 = _
    refine BitVec.eq_of_getLsbD_eq fun i _ => ?_
    rw [BitVec.getLsbD_and, ctrlValue_getLsbD, BitVec.getLsbD_or]
    rcases i with _ | _ | i
    · cases b1 <;> cases b0 <;> rfl
    · cases b1 <;> cases b0 <;> rfl
    · have h1 : (1#32).getLsbD (i + 1 + 1) = false := by simp [BitVec.getLsbD_ofNat, Nat.testBit_succ]
      have h2 : (2#32).getLsbD (i + 1 + 1) = false := by simp [BitVec.getLsbD_ofNat, Nat.testBit_succ]
      have h3 : (3#32).getLsbD (i + 1 + 1) = false := by simp [BitVec.getLsbD_ofNat, Nat.testBit_succ]
      rw [h3]; cases b1 <;> cases b0 <;> simp [h1, h2]
  simp only [firstRow, ctrlRows, List.find?, Row.selects, mask2, mask3]
  cases b1 <;> cases b0 <;> rfl

theorem ctrl (f0 : Bool) (code : Code) (w : Word) : Statement (.ctrl f0 code w) := fun _ =>
  (by decide : ∀ f0 code, firstRow keyRows (selectorKey f0 0 code) = some .ctrl) f0 code

theorem icx0 (code : Code) (w : Word) : Statement (.icx0 code w) := fun _ =>
  (by decide : ∀ code, firstRow keyRows (selectorKey true 1 code) = some .icx0) code

theorem icxn (code : Code) (w : Word) : Statement (.icxn code w) := fun _ =>
  (by decide : ∀ code, firstRow keyRows (selectorKey true 2 code) = some .icxn) code

theorem stop (f0 : Bool) (wi : BitVec 4) : Statement (.stop f0 wi) := fun h =>
  (firstRow_dataPosition f0 wi (of_decide_eq_true h)).1

theorem d8x4 (f0 : Bool) (wi : BitVec 4) (w : Word) : Statement (.d8x4 f0 wi w) := fun h =>
  (firstRow_dataPosition f0 wi (of_decide_eq_true h)).2.1

theorem d16x2 (f0 : Bool) (wi : BitVec 4) (w : Word) : Statement (.d16x2 f0 wi w) := fun h =>
  (firstRow_dataPosition f0 wi (of_decide_eq_true h)).2.2.1

theorem d32x1 (f0 : Bool) (wi : BitVec 4) (w : Word) : Statement (.d32x1 f0 wi w) := fun h =>
  (firstRow_dataPosition f0 wi (of_decide_eq_true h)).2.2.2

theorem srst (ignored : BitVec 30) (startBit : Bool) : Statement (.srst ignored startBit) := fun _ =>
  firstRow_ctrlValue ignored true startBit

theorem start (ignored : BitVec 30) : Statement (.start ignored) := fun _ => firstRow_ctrlValue ignored false true

theorem ctrlNop (ignored : BitVec 30) : Statement (.ctrlNop ignored) := fun _ => firstRow_ctrlValue ignored false false

end Sys2Proof.Laws.MatchesRow
end

