-- ==== Sys2Proof/Laws/Step.lean ====
section
/-! SUPPORT. What a step can do, by the turn it takes and the PHASE it finds. -/

namespace Sys2Proof.Machine

variable {s t : State}

/-! ### Totality -/

/-- Every instruction answers a next state: the block never traps (R171) and no encoding is illegal (R90). -/
theorem exec_answers_next (i : Instr) (s : State) : ∃ t, exec i s = .next t := by
  cases i <;> exact ⟨_, rfl⟩

theorem andThen_next {k : State → Host.Outcome State Fault Refusal} : andThen (.next s) k = k s := rfl

/-! ### The engine's step by PHASE (R100) -/

theorem engineStep_idle (h : s.phase = .idle) : engineStep s = .next s := by
  simp [engineStep, h]

theorem engineStep_end (h : s.phase = .frame) (hf : s.fi.toNat = s.nfrL.toNat) :
    engineStep s = .next (endOfBody (tick s)) := by
  simp [engineStep, h, bodyExhausted_iff.2 hf]

theorem engineStep_frame (h : s.phase = .frame) (hf : s.fi.toNat ≠ s.nfrL.toNat) :
    engineStep s = .next (latchControlWord (bodyWord s s.fi.toNat 0) (tick s)) := by
  have : bodyExhausted s = false := by rw [← Bool.not_eq_true, bodyExhausted_iff]; exact hf
  simp only [engineStep, h, this, fetchControl, decode, decodeBodyWord, selectorKey_wi]
  rfl

theorem engineStep_ic (h : s.phase = .ic) :
    engineStep s = .next (loadXn (bodyWord s 0 2) (loadX0 Config.build (bodyWord s 0 1) (tick s))) := by
  simp only [engineStep, h, fetchForward, fetchReverse, decode, decodeBodyWord, selectorKey_wi, selectorKey_f0]
  rfl

theorem engineStep_word (h : s.phase = .word) : engineStep s = exec (fetchData s) (tick s) := by
  simp [engineStep, h]

theorem engineStep_finish (h : s.phase = .finish) : engineStep s = .next (finishRun (tick s)) := by
  simp [engineStep, h]

/-- A WORD step at a data position (R43) is a STOP or runs the lanes of the word's code (R103). -/
theorem engineStep_data (h : s.phase = .word) (hp : IsDataPosition (inFrame0 s) s.wi) :
    engineStep s = .next
      (if codeAt s.cw s.wi = 0 then nextFrame (tick s)
       else processLanes Config.build (lanes (codeAt s.cw s.wi) (cursorBodyWord s)) (tick s)) := by
  rw [engineStep_word h]
  simp only [fetchData, decode, decodeBodyWord, selectorKey_wi, selectorKey_f0, selectorKey_code]
  rw [if_neg hp.1, if_neg (fun hc => hp.2 ⟨hc.1, .inl hc.2⟩), if_neg (fun hc => hp.2 ⟨hc.1, .inr hc.2⟩)]
  by_cases h0 : codeAt s.cw s.wi = 0
  · rw [if_pos h0, if_pos h0]; rfl
  · rw [if_neg h0, if_neg h0]
    by_cases h1 : codeAt s.cw s.wi = 1
    · rw [if_pos h1, h1]; rfl
    · rw [if_neg h1]
      by_cases h2 : codeAt s.cw s.wi = 2
      · rw [if_pos h2, h2]; rfl
      · rw [if_neg h2]
        simp only [lanes, if_neg h0, if_neg h1, if_neg h2]
        rfl

/-- Every engine step answers a next state. -/
theorem engineStep_answers_next (s : State) : ∃ t, engineStep s = .next t := by
  cases h : s.phase with
  | idle => exact ⟨_, engineStep_idle h⟩
  | frame =>
    by_cases hf : s.fi.toNat = s.nfrL.toNat
    · exact ⟨_, engineStep_end h hf⟩
    · exact ⟨_, engineStep_frame h hf⟩
  | ic => exact ⟨_, engineStep_ic h⟩
  | word => rw [engineStep_word h]; exact exec_answers_next _ _
  | finish => exact ⟨_, engineStep_finish h⟩

/-! ### The step by its turn -/

/-- The engine's turn, listed or by default (R199). -/
theorem step_engine (h : s.turns = [] ∨ s.turns.head? = some .engine) :
    step s = engineStep (withTurns s.turns.tail s) := by
  unfold step
  rcases h with h | h
  · rw [h]
    simp only [List.tail_nil]
    rw [← h]
    rfl
  · cases ht : s.turns with
    | nil => simp [ht] at h
    | cons t ts =>
      simp only [ht, List.head?_cons, Option.some.injEq] at h
      subst h
      rfl

/-- A listed turn is taken in the state with that turn removed. -/
theorem step_turn {t : Turn} {ts : List Turn} (h : s.turns = t :: ts) : step s = takeTurn t (withTurns ts s) := by
  simp only [step, h]

/-! ### Runs of engine steps -/

/-- A run of engine steps, cut in two. -/
theorem engineSteps_add {m n : Nat} {u : State} (h1 : engineSteps m s = .next t) (h2 : engineSteps n t = .next u) :
    engineSteps (m + n) s = .next u := by
  induction m generalizing s with
  | zero => cases h1; simpa using h2
  | succ m ih =>
    obtain ⟨v, hv⟩ := engineStep_answers_next s
    rw [Nat.add_right_comm]
    rw [engineSteps, hv, andThen_next] at h1 ⊢
    exact ih h1

end Sys2Proof.Machine
end

