-- ==== Sys2Proof/Laws/Run.lean ====
section
/-! SUPPORT. A run of steps whose turns are the engine's and harmless host accesses (R61, R204): it does what the
engine's own steps do, and the samples it has made stay. -/

namespace Sys2Proof.Machine

variable {s t u v w : State}

/-! ### What a harmless host access may change during a run -/

/-- A state with the fields replaced that host accesses change during a run (R204). -/
def withHostSide (s : State) (nexpCfg bodyLenCfg : BitVec 16) (doneIe : Bool) (turns : List Turn)
    (returned : List Word) : State :=
  { s with nexpCfg := nexpCfg, bodyLenCfg := bodyLenCfg, doneIe := doneIe, turns := turns, returned := returned }

/-- `t` is `s` but for what host accesses change during a run. -/
def SameRun (s t : State) : Prop := t = withHostSide s t.nexpCfg t.bodyLenCfg t.doneIe t.turns t.returned

theorem SameRun.refl (s : State) : SameRun s s := rfl

theorem SameRun.trans (h1 : SameRun s t) (h2 : SameRun t u) : SameRun s u := by
  unfold SameRun at *
  rw [h2, h1]
  rfl

theorem SameRun.phase_eq (h : SameRun s t) : t.phase = s.phase := by rw [h]; rfl
theorem SameRun.done_eq (h : SameRun s t) : t.done = s.done := by rw [h]; rfl
theorem SameRun.errSize_eq (h : SameRun s t) : t.errSize = s.errSize := by rw [h]; rfl
theorem SameRun.errLen_eq (h : SameRun s t) : t.errLen = s.errLen := by rw [h]; rfl
theorem SameRun.errInteg_eq (h : SameRun s t) : t.errInteg = s.errInteg := by rw [h]; rfl
theorem SameRun.x0_eq (h : SameRun s t) : t.x0 = s.x0 := by rw [h]; rfl
theorem SameRun.xn_eq (h : SameRun s t) : t.xn = s.xn := by rw [h]; rfl
theorem SameRun.acc_eq (h : SameRun s t) : t.acc = s.acc := by rw [h]; rfl
theorem SameRun.cnt_eq (h : SameRun s t) : t.cnt = s.cnt := by rw [h]; rfl
theorem SameRun.fi_eq (h : SameRun s t) : t.fi = s.fi := by rw [h]; rfl
theorem SameRun.wi_eq (h : SameRun s t) : t.wi = s.wi := by rw [h]; rfl
theorem SameRun.sampleEntry_eq (h : SameRun s t) (k : Nat) : sampleEntry t k = sampleEntry s k := by rw [h]; rfl

/-! ### The engine reads none of it (R35) -/

theorem processLanes_withHostSide (b : Config.Build) (ds : List Word) (s : State) (n l i ts rs) :
    processLanes b ds (withHostSide s n l i ts rs) = withHostSide (processLanes b ds s) n l i ts rs := by
  induction ds generalizing s with
  | nil =>
    simp only [processLanes]
    rcases advanceWord_cases (s := s) with ⟨h, e⟩ | ⟨h, e⟩ <;> rw [e]
    · exact if_pos h
    · exact if_neg h
  | cons d ds ih =>
    rw [processLanes, processLanes]
    cases hd : s.d0p with
    | true =>
      rw [processLane_discard hd, processLane_discard (s := withHostSide s n l i ts rs) hd]
      exact ih { s with d0p := false }
    | false =>
      rcases Nat.lt_or_ge s.cnt.toNat s.nexpL.toNat with hc | hc
      · rw [processLane_integrate hd hc, processLane_integrate (s := withHostSide s n l i ts rs) hd hc]
        exact ih (integrate d s)
      · rw [processLane_surplus hd hc, processLane_surplus (s := withHostSide s n l i ts rs) hd hc]
        rfl

/-- The meaning of a body word neither reads nor writes what host accesses change. -/
theorem exec_bodyWord_withHostSide {key : Key} {x : Word} (h : exec (decodeBodyWord key x) s = .next t) (n l i ts rs) :
    exec (decodeBodyWord key x) (withHostSide s n l i ts rs) = .next (withHostSide t n l i ts rs) := by
  unfold decodeBodyWord at *
  split_ifs at * with h0 h1
  · cases h; rfl
  · cases h
    show Host.Outcome.next (loadX0 _ _ _) = _
    unfold loadX0
    by_cases hw : wantsSample s = true
    · rw [if_pos hw, if_pos (show wantsSample (withHostSide s n l i ts rs) = true from hw)]; rfl
    · rw [if_neg hw, if_neg (show ¬ wantsSample (withHostSide s n l i ts rs) = true from hw)]; rfl
  · cases h; rfl
  · cases h; rfl
  all_goals
    cases h
    exact congrArg _ (processLanes_withHostSide _ _ _ _ _ _ _ _)

theorem engineStep_withHostSide (h : engineStep s = .next t) (n l i ts rs) :
    engineStep (withHostSide s n l i ts rs) = .next (withHostSide t n l i ts rs) := by
  have key := fun {k : Key} {x : Word} {a b : State} (h : exec (decodeBodyWord k x) a = .next b) =>
    exec_bodyWord_withHostSide h n l i ts rs
  cases hp : s.phase with
  | idle =>
    rw [engineStep_idle hp] at h
    cases h
    exact engineStep_idle hp
  | frame =>
    by_cases hf : s.fi.toNat = s.nfrL.toNat
    · rw [engineStep_end hp hf] at h
      cases h
      exact engineStep_end (s := withHostSide s n l i ts rs) hp hf
    · rw [engineStep_frame hp hf] at h
      cases h
      exact engineStep_frame (s := withHostSide s n l i ts rs) hp hf
  | ic =>
    rw [engineStep_ic hp] at h
    cases h
    rw [engineStep_ic (s := withHostSide s n l i ts rs) hp]
    have e := key (k := selectorKey true 1 0) (x := bodyWord s 0 1) (a := tick s) rfl
    exact congrArg (fun o => andThen o (fun t => .next (loadXn (bodyWord s 0 2) t))) e
  | word =>
    rw [engineStep_word hp] at h
    rw [engineStep_word (s := withHostSide s n l i ts rs) hp]
    exact key h
  | finish =>
    rw [engineStep_finish hp] at h
    cases h
    exact engineStep_finish (s := withHostSide s n l i ts rs) hp

theorem SameRun.engineStep (h : SameRun s v) (he : engineStep s = .next t) :
    ∃ w, Machine.engineStep v = .next w ∧ SameRun t w ∧ w.turns = v.turns := by
  rw [h]
  exact ⟨_, engineStep_withHostSide he _ _ _ _ _, rfl, rfl⟩

/-! ### Samples stay (R56, R197) -/

/-- From `s` to `t` no sample is lost or changed. -/
def KeepsSamples (s t : State) : Prop :=
  s.cnt.toNat ≤ t.cnt.toNat ∧ ∀ k < s.cnt.toNat, sampleEntry t k = sampleEntry s k

theorem KeepsSamples.refl (s : State) : KeepsSamples s s := ⟨le_rfl, fun _ _ => rfl⟩

theorem KeepsSamples.trans (h1 : KeepsSamples s t) (h2 : KeepsSamples t u) : KeepsSamples s u :=
  ⟨h1.1.trans h2.1, fun k hk => (h2.2 k (by have := h1.1; omega)).trans (h1.2 k hk)⟩

/-- Neither CNT nor the memory moves. -/
theorem KeepsSamples.of_eq (hc : t.cnt = s.cnt) (hm : t.mem = s.mem) (hr : t.resets = s.resets) :
    KeepsSamples s t :=
  ⟨by rw [hc], fun _ _ => sampleEntry_congr hr fun _ _ _ => by rw [hm]⟩

theorem KeepsSamples.emit (hc : s.cnt.toNat < s.nexpL.toNat) (x : Word) : KeepsSamples s (emitSample x s) := by
  have := s.nexpL.isLt
  refine ⟨?_, fun k hk => sampleEntry_congr (s := s) (t := emitSample x s) rfl fun a _ h => ?_⟩
  · show s.cnt.toNat ≤ (s.cnt + 1).toNat
    simp [BitVec.toNat_add]
    omega
  · refine read_writeWord_other _ _ (.inl ?_)
    simp only [sampleAddr] at *
    omega

theorem KeepsSamples.lanes (b : Config.Build) (ds : List Word) (s : State) : KeepsSamples s (processLanes b ds s) :=
  processLanes_induct (b := b) (fun t => KeepsSamples s t)
    (fun _ h _ => h.trans (.of_eq rfl rfl rfl))
    (fun u d h _ hc => (h.trans (.of_eq (t := { u with acc := u.acc + d }) rfl rfl rfl)).trans (.emit hc _))
    (fun _ h _ _ => h.trans (.of_eq rfl rfl rfl))
    (fun u h => by
      rcases advanceWord_cases (s := u) with ⟨_, e⟩ | ⟨_, e⟩ <;> rw [e] <;> exact h.trans (.of_eq rfl rfl rfl))
    ds s (.refl s)

theorem KeepsSamples.bodyWord {key : Key} {x : Word} (h : exec (decodeBodyWord key x) s = .next t) :
    KeepsSamples s t := by
  unfold decodeBodyWord at h
  split_ifs at h
  · cases h; exact .of_eq rfl rfl rfl
  · cases h
    unfold loadX0
    split
    · rename_i hw
      exact ((KeepsSamples.of_eq (t := setX0 Config.build x s) rfl rfl rfl).trans
        (.emit (wantsSample_iff.1 hw) x)).trans (.of_eq rfl rfl rfl)
    · exact .of_eq rfl rfl rfl
  · cases h; exact .of_eq rfl rfl rfl
  · cases h; exact .of_eq rfl rfl rfl
  all_goals
    cases h
    exact .lanes _ _ _

/-- No engine step loses or changes a sample. -/
theorem KeepsSamples.engineStep (h : engineStep s = .next t) : KeepsSamples s t := by
  have ht : KeepsSamples s (tick s) := .of_eq rfl rfl rfl
  cases hp : s.phase with
  | idle => rw [engineStep_idle hp] at h; cases h; exact .refl _
  | frame =>
    by_cases hf : s.fi.toNat = s.nfrL.toNat
    · rw [engineStep_end hp hf] at h; cases h; exact .of_eq rfl rfl rfl
    · rw [engineStep_frame hp hf] at h; cases h; exact .of_eq rfl rfl rfl
  | ic =>
    rw [engineStep_ic hp] at h
    cases h
    exact (ht.trans (KeepsSamples.bodyWord (key := selectorKey true 1 0) (x := Machine.bodyWord s 0 1) rfl)).trans
      (.of_eq rfl rfl rfl)
  | word => rw [engineStep_word hp] at h; exact ht.trans (.bodyWord h)
  | finish => rw [engineStep_finish hp] at h; cases h; exact .of_eq rfl rfl rfl

/-- While a run is in progress DONE is not set before PHASE is IDLE (R143). -/
theorem engineStep_done (h : engineStep s = .next t) (hd : s.done = false) (ht : t.phase ≠ .idle) :
    t.done = false := by
  cases hp : s.phase with
  | idle => rw [engineStep_idle hp] at h; cases h; exact hd
  | frame =>
    by_cases hf : s.fi.toNat = s.nfrL.toNat
    · rw [engineStep_end hp hf] at h; cases h; exact hd
    · rw [engineStep_frame hp hf] at h; cases h; exact hd
  | ic =>
    rw [engineStep_ic hp] at h
    cases h
    unfold loadX0
    split <;> exact hd
  | word =>
    rw [engineStep_word hp] at h
    have lanes : ∀ b ds, (processLanes b ds (tick s)).done = false := fun b ds =>
      processLanes_induct (b := b) (fun t => t.done = false) (fun _ h _ => h) (fun _ _ h _ _ => h)
        (fun _ h _ _ => h)
        (fun u h => by rcases advanceWord_cases (s := u) with ⟨_, e⟩ | ⟨_, e⟩ <;> rw [e] <;> exact h) ds _ hd
    unfold fetchData decode decodeBodyWord at h
    simp only at h
    split_ifs at h
    · cases h; exact hd
    · cases h
      show (loadX0 _ _ _).done = false
      unfold loadX0
      split <;> exact hd
    · cases h; exact hd
    · cases h; exact hd
    all_goals
      cases h
      exact lanes _ _
  | finish => rw [engineStep_finish hp] at h; cases h; exact absurd rfl ht

/-- An engine step leaves a run in progress, but for FINISH, which ends it (R143). -/
theorem engineStep_leaves (h : engineStep s = .next t) (hp : s.phase ≠ .idle) : t.phase ≠ .idle ∨ RunEnded t := by
  have lanes : ∀ b ds, (processLanes b ds (tick s)).phase ≠ .idle := fun b ds =>
    processLanes_induct (b := b) (fun t => t.phase ≠ .idle) (fun _ h _ => h) (fun _ _ h _ _ => h)
      (fun _ _ _ _ => nofun)
      (fun u h => by
        rcases advanceWord_cases (s := u) with ⟨_, e⟩ | ⟨_, e⟩ <;> rw [e]
        · nofun
        · exact h) ds _ hp
  cases hs : s.phase with
  | idle => exact absurd hs hp
  | frame =>
    left
    by_cases hf : s.fi.toNat = s.nfrL.toNat
    · rw [engineStep_end hs hf] at h; cases h; nofun
    · rw [engineStep_frame hs hf] at h
      cases h
      show (if inFrame0 s then Phase.ic else .word) ≠ _
      split <;> nofun
  | ic =>
    left
    rw [engineStep_ic hs] at h
    cases h
    unfold loadX0
    split <;> nofun
  | word =>
    left
    rw [engineStep_word hs] at h
    unfold fetchData decode decodeBodyWord at h
    simp only at h
    split_ifs at h
    · cases h
      show (if inFrame0 s then Phase.ic else .word) ≠ _
      split <;> nofun
    · cases h
      unfold loadX0
      split <;> nofun
    · cases h; exact hp
    · cases h; nofun
    all_goals
      cases h
      exact lanes _ _
  | finish => rw [engineStep_finish hs] at h; cases h; exact .inr ⟨rfl, rfl⟩

/-! ### Steps -/

theorem steps_succ {n : Nat} (h : step s = .next t) : steps (n + 1) s = steps n t := by
  rw [steps, h]
  rfl

/-- A harmless host access during a run changes no more than R204 says. -/
theorem harmless_step {a : Access} {ts : List Turn} (ht : s.turns = .host a :: ts)
    (ha : (Turn.host a).isHarmless = true) (hp : s.phase ≠ .idle) (hd : s.done = false) :
    ∃ t, step s = .next t ∧ SameRun s t ∧ t.turns = ts := by
  rw [step_turn ht]
  simp only [Turn.isHarmless, Bool.and_eq_true, Bool.not_eq_true'] at ha
  have hnext : ∃ t, hostAccess a (withTurns ts s) = .next t := by
    unfold hostAccess
    rw [if_neg (by simp [ha.1])]
    cases a with
    | read w ad => exact ⟨_, rfl⟩
    | write w ad v =>
      simp only [hostWrite]
      split
      · cases registerAt ad.toNat
        case ctrl => exact exec_answers_next _ _
        all_goals exact ⟨_, rfl⟩
      all_goals exact ⟨_, rfl⟩
  obtain ⟨t, he⟩ := hnext
  refine ⟨t, he, ?_⟩
  have hb : busy (withTurns ts s) = true := busy_iff.2 hp
  rcases hostAccess_cases he with ⟨w, ad, -, rfl⟩ | ⟨v, rfl, hx⟩ | ⟨w, ad, v, -, h⟩
  · exact ⟨rfl, rfl⟩
  · have hv : v.getLsbD 1 = false := by simpa [Access.isSrst] using ha.2
    unfold decodeCtrlWrite at hx
    rw [hv] at hx
    cases hv0 : v.getLsbD 0 <;> rw [hv0] at hx
    · cases hx; exact ⟨rfl, rfl⟩
    · have : startRun (withTurns ts s) = withTurns ts s := if_pos hb
      have hx : Host.Outcome.next (startRun (withTurns ts s)) = .next t := hx
      rw [this] at hx
      cases hx
      exact ⟨rfl, rfl⟩
  · rcases h with rfl | ⟨-, -, rfl⟩ | ⟨-, -, rfl⟩ | ⟨-, -, rfl⟩ | ⟨-, -, rfl⟩ | ⟨h, -⟩
    · exact ⟨rfl, rfl⟩
    · refine ⟨?_, rfl⟩
      have : (writeStatus v (withTurns ts s)).done = s.done := by simp [writeStatus, withTurns, hd]
      unfold SameRun
      conv_lhs => rw [show writeStatus v (withTurns ts s) =
        { withTurns ts s with done := (writeStatus v (withTurns ts s)).done } from rfl, this]
      rfl
    · exact ⟨rfl, rfl⟩
    · exact ⟨rfl, rfl⟩
    · exact ⟨rfl, rfl⟩
    · exact absurd h hp

/-- An engine's turn, listed or by default, in a state that agrees with the engine's own. -/
theorem engine_turn (hT : v.turns = [] ∨ v.turns.head? = some .engine) (hs : SameRun s v)
    (he : engineStep s = .next t) : ∃ w, step v = .next w ∧ SameRun t w ∧ w.turns = v.turns.tail := by
  rw [step_engine hT]
  exact (hs.trans (show SameRun v (withTurns v.turns.tail v) from rfl)).engineStep he

/-- After an aborting turn PHASE is IDLE and DONE is clear (R154, R190). -/
theorem abort_step {x : Turn} {ts : List Turn} (ht : s.turns = x :: ts) (hx : x.isAbort = true) :
    ∃ t, step s = .next t ∧ t.phase = .idle ∧ t.done = false := by
  rw [step_turn ht]
  cases x with
  | engine => simp [Turn.isAbort] at hx
  | reset => exact ⟨_, rfl, rfl, rfl⟩
  | host a =>
    simp only [Turn.isAbort, Bool.and_eq_true, Bool.not_eq_true'] at hx
    cases a with
    | read w ad => simp [Access.isSrst] at hx
    | write w ad v =>
      obtain ⟨hr, hs⟩ := hx
      simp only [Access.isSrst, Bool.and_eq_true, beq_iff_eq] at hs
      obtain ⟨rfl, hv⟩ := hs
      obtain ⟨rfl, -⟩ := register_access (by decide) (show refusedShape w 0 = false from hr)
      refine ⟨softReset (withTurns ts s), ?_, rfl, rfl⟩
      show exec (decodeCtrlWrite v) _ = _
      rw [decodeCtrlWrite, if_pos hv]
      rfl

theorem InProgress.zero (u : State) : InProgress u 0 := fun _ h => absurd h (Nat.not_lt_zero _)

/-- A run is in progress through a step from a state with PHASE not IDLE. -/
theorem InProgress.of_step {n : Nat} (hp : v.phase ≠ .idle) (hv : step v = .next u) (h : InProgress u n) :
    InProgress v (n + 1) := by
  intro j hj x hx
  cases j with
  | zero => cases hx; exact hp
  | succ j => rw [steps_succ hv] at hx; exact h j (by omega) x hx

theorem EndsAt.of_step {n : Nat} (hp : v.phase ≠ .idle) (hv : step v = .next u) (h : EndsAt u n t) :
    EndsAt v (n + 1) t :=
  ⟨by rw [steps_succ hv]; exact h.reached, h.ended, h.running.of_step hp hv⟩

theorem AbortsAt.of_step {n : Nat} (hp : v.phase ≠ .idle) (hv : step v = .next u) (h : AbortsAt u n t) :
    AbortsAt v (n + 1) t :=
  ⟨by rw [steps_succ hv]; exact h.reached, h.aborted, h.running.of_step hp hv⟩

/-- An aborted run has no end, so no result (R203). -/
theorem AbortsAt.not_endsAt {m n : Nat} (ha : AbortsAt u m t) (he : EndsAt u n w) : False := by
  rcases Nat.lt_trichotomy m n with h | rfl | h
  · exact he.running m h t ha.reached ha.aborted.1
  · have e := ha.reached.symm.trans he.reached
    cases e
    exact absurd he.ended.2 (by rw [ha.aborted.2]; nofun)
  · exact ha.running n h w he.reached he.ended.1

/-- A run has one end. -/
theorem EndsAt.unique {m n : Nat} (h1 : EndsAt u m t) (h2 : EndsAt u n w) : m = n ∧ t = w := by
  have : m = n := by
    rcases Nat.lt_trichotomy m n with h | h | h
    · exact absurd h1.ended.1 (h2.running m h t h1.reached)
    · exact h
    · exact absurd h2.ended.1 (h1.running n h w h2.reached)
  subst this
  have e := h1.reached.symm.trans h2.reached
  cases e
  exact ⟨rfl, rfl⟩

/-- From `v` a run ends in `t`, but for what host accesses change, with at most `bound` steps beside the host turns it
takes, and every state on the way keeps its samples to the end. -/
def RunsTo (v t : State) (bound : Nat) : Prop :=
  ∃ m w, EndsAt v m w ∧ SameRun t w ∧ m ≤ bound + hostTurns (v.turns.take m) ∧
    ∀ j ≤ m, ∀ x, steps j v = .next x → KeepsSamples x w

theorem RunsTo.mono {m n : Nat} (h : RunsTo v t m) (hmn : m ≤ n) : RunsTo v t n := by
  obtain ⟨j, w, h1, h2, h3, h4⟩ := h
  exact ⟨j, w, h1, h2, by omega, h4⟩

theorem RunsTo.of_ended (h : RunEnded v) (hs : SameRun t v) : RunsTo v t 0 :=
  ⟨0, v, ⟨rfl, h, .zero v⟩, hs, Nat.zero_le _, fun j hj x hx => by
    obtain rfl : j = 0 := by omega
    cases hx
    exact .refl _⟩

/-- A run from a state with PHASE not IDLE goes through the state after its first step. -/
theorem RunsTo.of_step {n k : Nat} (hp : v.phase ≠ .idle) (hv : step v = .next u) (hk : KeepsSamples v u)
    (hcost : ∀ m, n + hostTurns (u.turns.take m) + 1 ≤ k + hostTurns (v.turns.take (m + 1))) (h : RunsTo u t n) :
    RunsTo v t k := by
  obtain ⟨m, w, hm, hw, hle, hks⟩ := h
  refine ⟨m + 1, w, hm.of_step hp hv, hw, (by have := hcost m; omega), fun j hj x hx => ?_⟩
  cases j with
  | zero => cases hx; exact hk.trans (hks 0 (Nat.zero_le m) u rfl)
  | succ j => rw [steps_succ hv] at hx; exact hks j (by omega) x hx

theorem SameRun.keepsSamples (h : SameRun s t) : KeepsSamples s t :=
  ⟨by rw [h.cnt_eq], fun k _ => h.sampleEntry_eq k⟩

theorem SameRun.keepsSamples_symm (h : SameRun s t) : KeepsSamples t s :=
  ⟨by rw [h.cnt_eq], fun k _ => (h.sampleEntry_eq k).symm⟩

theorem engineSteps_idle (h : s.phase = .idle) (n : Nat) : engineSteps n s = .next s := by
  induction n with
  | zero => rfl
  | succ n ih => rw [engineSteps, engineStep_idle h, andThen_next, ih]

/-- Where the engine's own steps end a run, the steps with harmless host accesses among them end it in the same state
but for what those accesses change. -/
theorem run_with_host {n : Nat} (he : engineSteps n s = .next t) (hend : RunEnded t) (hs : SameRun s v)
    (hp : s.phase ≠ .idle) (hd : s.done = false) (hh : ∀ x ∈ v.turns, x.isHarmless = true) :
    RunsTo v t n := by
  have hpv : v.phase ≠ .idle := hs.phase_eq ▸ hp
  generalize hsize : n + v.turns.length = size
  induction size using Nat.strong_induction_on generalizing n s v with
  | _ size ih =>
  by_cases hT : v.turns = [] ∨ v.turns.head? = some .engine
  · -- the engine's turn
    cases n with
    | zero => cases he; exact absurd hend.1 hp
    | succ n =>
      obtain ⟨s', hs'⟩ := engineStep_answers_next s
      rw [engineSteps, hs', andThen_next] at he
      obtain ⟨v', hv', hsv, hts⟩ := engine_turn hT hs hs'
      have hk := (hs.keepsSamples_symm.trans (.engineStep hs')).trans hsv.keepsSamples
      have hht : ∀ m, hostTurns (v'.turns.take m) = hostTurns (v.turns.take (m + 1)) := fun m => by
        rw [hts]
        rcases hT with h | h
        · simp [h]
        · cases hvt : v.turns with
          | nil => simp
          | cons x ts =>
            obtain rfl : x = .engine := by simpa [hvt] using h
            simp [hostTurns]
      by_cases hidle : s'.phase = .idle
      · rw [engineSteps_idle hidle] at he
        cases he
        have hv : RunEnded v' := ⟨hsv.phase_eq.trans hend.1, hsv.done_eq.trans hend.2⟩
        exact .of_step hpv hv' hk (fun m => by rw [hht]; omega) (.of_ended hv hsv)
      · have hlen : v'.turns.length ≤ v.turns.length := by rw [hts, List.length_tail]; omega
        have := ih (n + v'.turns.length) (by omega) he hsv hidle (engineStep_done hs' hd hidle)
          (fun x hx => hh x (by rw [hts] at hx; exact List.mem_of_mem_tail hx)) (hsv.phase_eq ▸ hidle) rfl
        exact .of_step hpv hv' hk (fun m => by rw [hht]; omega) this
  · -- a host turn
    match hvt : v.turns with
    | [] => exact absurd (.inl hvt) hT
    | .engine :: ts => exact absurd (.inr (by rw [hvt]; rfl)) hT
    | .reset :: ts => have := hh .reset (by simp [hvt]); simp [Turn.isHarmless] at this
    | .host a :: ts =>
      obtain ⟨v', hv', hsv, hts⟩ := harmless_step hvt (hh _ (by simp [hvt])) hpv (hs.done_eq ▸ hd)
      have hlen : v'.turns.length + 1 = v.turns.length := by rw [hts, hvt]; rfl
      have := ih (n + v'.turns.length) (by omega) he (hs.trans hsv) hp hd
        (fun x hx => hh x (by rw [hts] at hx; simp [hvt, hx])) (hsv.phase_eq ▸ hpv) rfl
      refine .of_step hpv hv' hsv.keepsSamples (fun m => ?_) this
      rw [hts, hvt, List.take_succ_cons]
      simp only [hostTurns, List.countP_cons]
      simp

end Sys2Proof.Machine
end

