-- ==== Sys2Proof/Laws/Walk.lean ====
section
/-! SUPPORT. What a stretch of the walk does, said once (R103, R107): the lanes it meets are integrated, or one of them
is surplus and the run goes to FINISH. Two such stretches compose, so a frame and a body follow from a word. -/

namespace Sys2Proof.Machine

/-! ### States that differ in what integration neither reads nor writes -/

/-- A state with the fields replaced that the walk moves beside the accumulator, the count and the memory. -/
def withWalk (s : State) (d0p : Bool) (fi : BitVec 10) (wi : BitVec 4) (phase : Phase) (cw : Word) (draws : Nat) :
    State :=
  { s with d0p := d0p, fi := fi, wi := wi, phase := phase, cw := cw, draws := draws }

theorem integrateAll_withWalk (ds : List Word) (s : State) (a b c d e f) :
    integrateAll ds (withWalk s a b c d e f) = withWalk (integrateAll ds s) a b c d e f := by
  induction ds generalizing s with
  | nil => rfl
  | cons x ds ih => rw [integrateAll, integrateAll, ← ih]; rfl

@[simp] theorem integrateAll_nexpL (ds : List Word) (s : State) : (integrateAll ds s).nexpL = s.nexpL := by
  rw [integrateAll_eq]
@[simp] theorem integrateAll_nfrL (ds : List Word) (s : State) : (integrateAll ds s).nfrL = s.nfrL := by
  rw [integrateAll_eq]
@[simp] theorem integrateAll_resets (ds : List Word) (s : State) : (integrateAll ds s).resets = s.resets := by
  rw [integrateAll_eq]
@[simp] theorem integrateAll_errLen (ds : List Word) (s : State) : (integrateAll ds s).errLen = s.errLen := by
  rw [integrateAll_eq]
@[simp] theorem integrateAll_errSize (ds : List Word) (s : State) : (integrateAll ds s).errSize = s.errSize := by
  rw [integrateAll_eq]
@[simp] theorem integrateAll_errInteg (ds : List Word) (s : State) : (integrateAll ds s).errInteg = s.errInteg := by
  rw [integrateAll_eq]
@[simp] theorem integrateAll_x0 (ds : List Word) (s : State) : (integrateAll ds s).x0 = s.x0 := by
  rw [integrateAll_eq]
@[simp] theorem integrateAll_xn (ds : List Word) (s : State) : (integrateAll ds s).xn = s.xn := by
  rw [integrateAll_eq]

/-! ### A stretch of lanes -/

/-- What is not discarded (R120) of a list that has one entry per lane of a stretch. -/
def lanesLeft {α : Type} (v : State) (ls : List α) : List α := if v.d0p then ls.tail else ls

/-- From `v` to `t` the lanes `ls` were processed and all of them wanted. -/
def Integrated (v : State) (ls : List Word) (t : State) : Prop :=
  v.cnt.toNat + (lanesLeft v ls).length ≤ v.nexpL.toNat ∧
  t = withWalk (integrateAll (lanesLeft v ls) v) (v.d0p && ls.isEmpty) t.fi t.wi t.phase t.cw t.draws

/-- From `v` to `t` the lanes `ls`, which stand at the sites `ps`, were processed up to one that was surplus, and the
cursor stays at its site (R122, R127). -/
def StoppedInside (v : State) (ls : List Word) (ps : List (Nat × Nat)) (t : State) : Prop :=
  ∃ n, n < (lanesLeft v ls).length ∧ v.cnt.toNat + n = v.nexpL.toNat ∧ t.phase = .finish ∧
    (lanesLeft v ps)[n]? = some (t.fi.toNat, t.wi.toNat) ∧
    t = { withWalk (integrateAll ((lanesLeft v ls).take n) v) false t.fi t.wi t.phase t.cw t.draws with
          errLen := v.errLen || Config.build.surplus == .strict }

/-- `v` holds the body of `s`. -/
def SameBody (s v : State) : Prop := v.resets = s.resets ∧ ∀ a < 0x40000, v.mem.read a = s.mem.read a

section
variable {s t u v : State} {ls ms : List Word} {ps qs : List (Nat × Nat)}

theorem Integrated.d0p_eq (h : Integrated v ls t) : t.d0p = (v.d0p && ls.isEmpty) := by rw [h.2]; rfl

theorem Integrated.nexpL_eq (h : Integrated v ls t) : t.nexpL = v.nexpL := by
  rw [h.2]; exact integrateAll_nexpL _ _

theorem Integrated.nfrL_eq (h : Integrated v ls t) : t.nfrL = v.nfrL := by
  rw [h.2]; exact integrateAll_nfrL _ _

theorem Integrated.resets_eq (h : Integrated v ls t) : t.resets = v.resets := by
  rw [h.2]; exact integrateAll_resets _ _

theorem Integrated.errLen_eq (h : Integrated v ls t) : t.errLen = v.errLen := by
  rw [h.2]; exact integrateAll_errLen _ _

theorem Integrated.acc_eq (h : Integrated v ls t) : t.acc = (lanesLeft v ls).foldl (· + ·) v.acc := by
  rw [h.2]; exact integrateAll_acc _ _

theorem Integrated.mem_eq (h : Integrated v ls t) : t.mem = (integrateAll (lanesLeft v ls) v).mem := by rw [h.2]; rfl

theorem Integrated.cnt_eq (h : Integrated v ls t) : t.cnt.toNat = v.cnt.toNat + (lanesLeft v ls).length := by
  rw [h.2]
  exact integrateAll_cnt_toNat (by have := h.1; have := v.nexpL.isLt; omega)

theorem Integrated.cnt_le (h : Integrated v ls t) : t.cnt.toNat ≤ t.nexpL.toNat := by
  rw [h.cnt_eq, h.nexpL_eq]
  exact h.1

/-- Nothing is processed where only the cursor moves. -/
theorem Integrated.none (hle : v.cnt.toNat ≤ v.nexpL.toNat) (fi wi phase cw draws) :
    Integrated v [] (withWalk v v.d0p fi wi phase cw draws) :=
  ⟨by simpa [lanesLeft] using hle, by simp [lanesLeft, integrateAll, withWalk]⟩

theorem Integrated.move (h : Integrated v ls t) (fi wi phase cw draws) :
    Integrated v ls (withWalk t t.d0p fi wi phase cw draws) := by
  refine ⟨h.1, ?_⟩
  conv_lhs => rw [h.2]
  rfl

theorem lanesLeft_append {α : Type} {as bs : List α} (h : u.d0p = (v.d0p && as.isEmpty)) :
    lanesLeft v (as ++ bs) = lanesLeft v as ++ lanesLeft u bs := by
  unfold lanesLeft
  rw [h]
  cases hv : v.d0p with
  | false => simp
  | true => cases as <;> simp

theorem lanesLeft_length_congr {α β : Type} {as : List α} {bs : List β} (h : as.length = bs.length) (v : State) :
    (lanesLeft v as).length = (lanesLeft v bs).length := by
  unfold lanesLeft
  split <;> simp [h]

/-- What is left of a stretch's first part stands at the head of what is left of the stretch. -/
theorem lanesLeft_append_of_ne_nil {α : Type} {as : List α} (h : lanesLeft v as ≠ []) (bs : List α) :
    ∃ r, lanesLeft v (as ++ bs) = lanesLeft v as ++ r := by
  unfold lanesLeft at *
  split
  · cases as with
    | nil => simp at h
    | cons x xs => exact ⟨bs, by simp⟩
  · exact ⟨bs, rfl⟩

theorem Integrated.integrateAll_eq (h : Integrated v ls u) (ds : List Word) :
    integrateAll ds u =
      withWalk (integrateAll ds (integrateAll (lanesLeft v ls) v)) (v.d0p && ls.isEmpty) u.fi u.wi u.phase u.cw
        u.draws := by
  rw [← integrateAll_withWalk, ← h.2]

theorem Integrated.trans (h1 : Integrated v ls u) (h2 : Integrated u ms t) : Integrated v (ls ++ ms) t := by
  have hl := lanesLeft_append (bs := ms) h1.d0p_eq
  refine ⟨?_, ?_⟩
  · have := h2.1
    rw [h1.cnt_eq, h1.nexpL_eq] at this
    rw [hl, List.length_append]
    omega
  · rw [hl, integrateAll_append]
    conv_lhs => rw [h2.2, h1.integrateAll_eq]
    generalize integrateAll (lanesLeft u ms) (integrateAll (lanesLeft v ls) v) = q
    simp only [withWalk]
    congr 1
    rw [h1.d0p_eq]
    cases v.d0p <;> cases ls <;> simp

theorem Integrated.stop (h1 : Integrated v ls u) (hp : ls.length = ps.length) (h2 : StoppedInside u ms qs t) :
    StoppedInside v (ls ++ ms) (ps ++ qs) t := by
  have hl := lanesLeft_append (bs := ms) h1.d0p_eq
  have he : ps.isEmpty = ls.isEmpty := by cases ls <;> cases ps <;> simp_all
  have hq := lanesLeft_append (v := v) (u := u) (as := ps) (bs := qs) (by rw [he]; exact h1.d0p_eq)
  have hlen := lanesLeft_length_congr hp v
  obtain ⟨n, hn, hc, hf, hs, he⟩ := h2
  refine ⟨(lanesLeft v ls).length + n, ?_, ?_, hf, ?_, ?_⟩
  · rw [hl, List.length_append]; omega
  · rw [h1.cnt_eq, h1.nexpL_eq] at hc; omega
  · rw [hq, hlen, List.getElem?_append_right (by omega), Nat.add_sub_cancel_left]; exact hs
  · rw [hl, List.take_length_add_append, integrateAll_append]
    conv_lhs => rw [he, h1.errLen_eq, h1.integrateAll_eq]
    rfl

theorem StoppedInside.append (h : StoppedInside v ls ps t) (hp : ls.length = ps.length) :
    StoppedInside v (ls ++ ms) (ps ++ qs) t := by
  obtain ⟨n, hn, hc, hf, hs, he⟩ := h
  have hlen := lanesLeft_length_congr hp v
  obtain ⟨r, hr⟩ := lanesLeft_append_of_ne_nil (List.ne_nil_of_length_pos (by omega)) ms (as := ls) (v := v)
  obtain ⟨r', hr'⟩ := lanesLeft_append_of_ne_nil (List.ne_nil_of_length_pos (by omega)) qs (as := ps) (v := v)
  refine ⟨n, by rw [hr, List.length_append]; omega, hc, hf, ?_, ?_⟩
  · rw [hr', List.getElem?_append_left (by omega)]; exact hs
  · rw [hr, List.take_append_of_le_length (by omega)]; exact he

/-- The draw index of the start of a stretch does not matter. -/
theorem Integrated.of_draws (d : Nat) (h : Integrated { v with draws := d } ls t) : Integrated v ls t := by
  refine ⟨h.1, ?_⟩
  have e := h.2
  have : ({ v with draws := d } : State) = withWalk v v.d0p v.fi v.wi v.phase v.cw d := rfl
  rw [show lanesLeft { v with draws := d } ls = lanesLeft v ls from rfl, this, integrateAll_withWalk] at e
  exact e

theorem StoppedInside.of_draws (d : Nat) (h : StoppedInside { v with draws := d } ls ps t) :
    StoppedInside v ls ps t := by
  obtain ⟨n, hn, hc, hf, hs, he⟩ := h
  refine ⟨n, hn, hc, hf, hs, ?_⟩
  have : ({ v with draws := d } : State) = withWalk v v.d0p v.fi v.wi v.phase v.cw d := rfl
  rw [show lanesLeft { v with draws := d } ls = lanesLeft v ls from rfl, this, integrateAll_withWalk] at he
  exact he

theorem SameBody.after (h : SameBody s v) (ha : Integrated v ls t) : SameBody s t := by
  refine ⟨ha.resets_eq.trans h.1, fun a hlt => ?_⟩
  rw [ha.mem_eq, read_integrateAll_other]
  · exact h.2 a hlt
  · have := ha.1; have := v.nexpL.isLt; omega
  · exact .inl (by simp only [sampleAddr, Config.sampleBase]; omega)

theorem SameBody.word (h : SameBody s v) {f k : Nat} (hf : f < 1023) (hk : k < 16) :
    bodyWord v f k = bodyWord s f k := by
  refine readWord_congr h.1 fun j hj => h.2 _ ?_
  simp only [bodyAddr, Config.bodyBase, Config.frameBytes]
  omega

end

/-! ### A word, a frame, the frames after frame 0 -/

theorem inFrame0_iff {s : State} : inFrame0 s = true ↔ s.fi.toNat = 0 := by
  simp [inFrame0, ← BitVec.toNat_inj]

theorem lanes_ne_nil {code : Code} {w : Word} (h : code ≠ 0) : lanes code w ≠ [] := by
  unfold lanes
  rw [if_neg h]
  split
  · simp [lanes8]
  · split
    · simp [lanes16]
    · simp [lanes32]

theorem engineSteps_one {v t : State} (h : engineStep v = .next t) : engineSteps 1 v = .next t := by
  rw [engineSteps, h]
  rfl

/-- The lanes of a word, with D0P pending or not (R103, R127). -/
theorem processLanes_walk {s : State} {ls : List Word} (hne : ls ≠ []) (hle : s.cnt.toNat ≤ s.nexpL.toNat) :
    (Integrated s ls (integrateAll (lanesLeft s ls) { s with d0p := false }) ∧
      processLanes Config.build ls s = advanceWord (integrateAll (lanesLeft s ls) { s with d0p := false })) ∨
    StoppedInside s ls (List.replicate ls.length (s.fi.toNat, s.wi.toNat)) (processLanes Config.build ls s) := by
  have e0 : processLanes Config.build ls s = processLanes Config.build (lanesLeft s ls) { s with d0p := false } := by
    unfold lanesLeft
    cases hd : s.d0p with
    | false => simp only [Bool.false_eq_true, if_false]; congr 1; cases s; simp_all
    | true =>
      cases ls with
      | nil => contradiction
      | cons x xs => rw [processLanes_discard hd]; rfl
  have ei : ∀ l, integrateAll l { s with d0p := false } =
      withWalk (integrateAll l s) false s.fi s.wi s.phase s.cw s.draws := fun l =>
    integrateAll_withWalk l s _ _ _ _ _ _
  by_cases hr : s.cnt.toNat + (lanesLeft s ls).length ≤ s.nexpL.toNat
  · refine .inl ⟨⟨hr, ?_⟩, ?_⟩
    · have : ls.isEmpty = false := by cases ls <;> simp_all
      rw [ei, this]
      simp [withWalk]
    · rw [e0]
      exact processLanes_room rfl hr
  · have hn : s.nexpL.toNat - s.cnt.toNat < (lanesLeft s ls).length := by omega
    have : processLanes Config.build ls s = surplus Config.build
        (integrateAll ((lanesLeft s ls).take (s.nexpL.toNat - s.cnt.toNat)) { s with d0p := false }) := by
      rw [e0]
      exact processLanes_surplus rfl hn (by show s.cnt.toNat + _ = s.nexpL.toNat; omega)
    right
    rw [this, ei]
    refine ⟨_, hn, by omega, rfl, ?_, ?_⟩
    · have hlen := lanesLeft_length_congr (as := List.replicate ls.length (s.fi.toNat, s.wi.toNat)) (bs := ls)
        List.length_replicate s
      rw [List.getElem?_eq_getElem (by omega)]
      have hmem := List.getElem_mem (l := lanesLeft s (List.replicate ls.length (s.fi.toNat, s.wi.toNat)))
        (n := s.nexpL.toNat - s.cnt.toNat) (by omega)
      have : ∀ x ∈ lanesLeft s (List.replicate ls.length (s.fi.toNat, s.wi.toNat)), x = (s.fi.toNat, s.wi.toNat) := by
        unfold lanesLeft
        split
        · exact fun x hx => List.eq_of_mem_replicate (List.mem_of_mem_tail hx)
        · exact fun x hx => List.eq_of_mem_replicate hx
      rw [this _ hmem]
      rfl
    · simp only [surplus, withWalk]
      rw [integrateAll_errLen]

/-- A WORD step at a data word with lanes (R103, R105, R127). -/
theorem engineStep_walk {v : State} (hp : v.phase = .word) (hpos : IsDataPosition (inFrame0 v) v.wi)
    (hc : codeAt v.cw v.wi ≠ 0) (hle : v.cnt.toNat ≤ v.nexpL.toNat) :
    ∃ t, engineStep v = .next t ∧
      ((Integrated v (lanes (codeAt v.cw v.wi) (cursorBodyWord v)) t ∧
          (v.wi = 15 → t.phase = .frame ∧ t.fi = v.fi + 1 ∧ t.wi = 0) ∧
          (v.wi ≠ 15 → t.phase = .word ∧ t.fi = v.fi ∧ t.wi = v.wi + 1 ∧ t.cw = v.cw)) ∨
        StoppedInside v (lanes (codeAt v.cw v.wi) (cursorBodyWord v))
          (List.replicate (lanes (codeAt v.cw v.wi) (cursorBodyWord v)).length (v.fi.toNat, v.wi.toNat)) t) := by
  refine ⟨_, engineStep_data hp hpos, ?_⟩
  rw [if_neg hc]
  generalize hL : lanes (codeAt v.cw v.wi) (cursorBodyWord v) = ls
  have hne : ls ≠ [] := hL ▸ lanes_ne_nil hc
  rcases processLanes_walk (s := tick v) hne hle with ⟨ha, he⟩ | hs
  · rw [he]
    have ha' := Integrated.of_draws _ ha
    generalize hq : integrateAll (lanesLeft (tick v) ls) { tick v with d0p := false } = q at *
    have q1 : q.phase = v.phase := by rw [← hq, integrateAll_eq]; rfl
    have q2 : q.fi = v.fi := by rw [← hq, integrateAll_eq]; rfl
    have q3 : q.wi = v.wi := by rw [← hq, integrateAll_eq]; rfl
    have q4 : q.cw = v.cw := by rw [← hq, integrateAll_eq]; rfl
    left
    rcases advanceWord_cases (s := q) with ⟨h15, e⟩ | ⟨h15, e⟩ <;> rw [e]
    · exact ⟨ha'.move _ _ _ q.cw q.draws, fun _ => ⟨rfl, by show q.fi + 1 = _; rw [q2], rfl⟩,
        fun h => absurd (q3.symm.trans h15) h⟩
    · exact ⟨ha'.move q.fi _ q.phase q.cw q.draws, fun h => absurd (q3.trans h) h15,
        fun _ => ⟨by show q.phase = _; rw [q1, hp], q2, by show q.wi + 1 = _; rw [q3], q4⟩⟩
  · exact .inr (.of_draws _ hs)

theorem sitesOfWords_length (s : State) (f : Nat) (ks : List Nat) :
    (lanesOfWords s f ks).length = (sitesOfWords s f ks).length := by
  induction ks with
  | nil => rfl
  | cons k ks ih =>
    simp only [lanesOfWords, sitesOfWords]
    split
    · rfl
    · simp [ih]

theorem bodySites_length (s : State) (fs : List Nat) :
    (fs.flatMap (frameLanes s)).length = (fs.flatMap (frameSites s)).length := by
  induction fs with
  | nil => rfl
  | cons f fs ih => simp only [List.flatMap_cons, List.length_append, ih, frameLanes, frameSites, sitesOfWords_length]

/-- The words of frame `f` from word `k` on, at most one step each (R107). -/
theorem walk_words (s : State) (f : Nat) (hf : f < 1023) (m k : Nat) (v : State) (hk : k + m = 16) (h1 : 1 ≤ k)
    (hp : v.phase = .word) (hfi : v.fi.toNat = f) (h3 : f = 0 → 3 ≤ k) (hw : v.wi.toNat = k)
    (hcw : v.cw = bodyWord s f 0) (hsb : SameBody s v) (hle : v.cnt.toNat ≤ v.nexpL.toNat) :
    ∃ n t, n ≤ m ∧ engineSteps n v = .next t ∧
      ((Integrated v (lanesOfWords s f (List.range' k m)) t ∧ t.phase = .frame ∧ t.fi.toNat = f + 1 ∧ t.wi = 0) ∨
        StoppedInside v (lanesOfWords s f (List.range' k m)) (sitesOfWords s f (List.range' k m)) t) := by
  induction m generalizing k v with
  | zero => have := v.wi.isLt; omega
  | succ m ih =>
    have hwi : BitVec.ofNat 4 k = v.wi := by apply BitVec.eq_of_toNat_eq; rw [hw]; simp; omega
    have hpos : IsDataPosition (inFrame0 v) v.wi := by
      refine ⟨fun h => ?_, ?_⟩
      · rw [h] at hw; simp at hw; omega
      · rintro ⟨h0, h⟩
        have := h3 (by rw [← hfi]; exact inFrame0_iff.1 h0)
        rcases h with h | h <;> rw [h] at hw <;> simp at hw <;> omega
    have hfi1 : (v.fi + 1).toNat = f + 1 := by simp [BitVec.toNat_add]; omega
    have hb : cursorBodyWord v = bodyWord s f k := by
      unfold cursorBodyWord
      rw [hfi, hw]
      exact hsb.word hf (by omega)
    rw [List.range'_succ, lanesOfWords, sitesOfWords]
    simp only [hwi, ← hcw]
    by_cases hc : codeAt v.cw v.wi = 0
    · rw [if_pos hc, if_pos hc]
      refine ⟨1, nextFrame (tick v), by omega, engineSteps_one ?_, .inl ⟨Integrated.none hle _ _ _ _ _, rfl, hfi1, rfl⟩⟩
      rw [engineStep_data hp hpos, if_pos hc]
    · rw [if_neg hc, if_neg hc]
      obtain ⟨t, he, h⟩ := engineStep_walk hp hpos hc hle
      rw [hb, hfi, hw] at h
      rcases h with ⟨ha, h15, hn15⟩ | hs
      · by_cases hw15 : v.wi = 15
        · have : m = 0 := by rw [hw15] at hw; simp at hw; omega
          subst this
          obtain ⟨a, b, c⟩ := h15 hw15
          exact ⟨1, t, by omega, engineSteps_one he, .inl ⟨by simpa [lanesOfWords] using ha, a, by rw [b, hfi1], c⟩⟩
        · obtain ⟨a, b, c, d⟩ := hn15 hw15
          have hwt : t.wi.toNat = k + 1 := by
            have : k ≠ 15 := fun h => hw15 (BitVec.eq_of_toNat_eq (by rw [hw, h]; rfl))
            rw [c, BitVec.toNat_add, hw]
            simp
            omega
          obtain ⟨n, u, hn, hs, h⟩ := ih (k + 1) t (by omega) (by omega) a (by rw [b, hfi])
            (fun h => by have := h3 h; omega) hwt (by rw [d, hcw]) (hsb.after ha) ha.cnt_le
          refine ⟨1 + n, u, by omega, engineSteps_add (engineSteps_one he) hs, ?_⟩
          rcases h with ⟨h, hh⟩ | h
          · exact .inl ⟨ha.trans h, hh⟩
          · exact .inr (ha.stop List.length_replicate.symm h)
      · exact ⟨1, t, by omega, engineSteps_one he, .inr (hs.append List.length_replicate.symm)⟩

/-- The frames from `f` (not frame 0) to the end of the body, at most 16 steps each, and the end of the body (R106,
R107). -/
theorem walk_frames (s : State) (nfr : Nat) (hn : nfr ≤ 1023) (m f : Nat) (v : State) (hf : f + m = nfr) (h1 : 1 ≤ f)
    (hp : v.phase = .frame) (hfi : v.fi.toNat = f) (hwi : v.wi = 0) (hnfr : v.nfrL.toNat = nfr) (hsb : SameBody s v)
    (hle : v.cnt.toNat ≤ v.nexpL.toNat) :
    ∃ n t, n ≤ 16 * m + 1 ∧ engineSteps n v = .next t ∧
      ((Integrated v ((List.range' f m).flatMap (frameLanes s)) t ∧ t.phase = .finish ∧ t.fi.toNat = nfr ∧ t.wi = 0) ∨
        StoppedInside v ((List.range' f m).flatMap (frameLanes s)) ((List.range' f m).flatMap (frameSites s)) t) := by
  induction m generalizing f v with
  | zero =>
    refine ⟨1, endOfBody (tick v), by omega, engineSteps_one (engineStep_end hp (by omega)),
      .inl ⟨Integrated.none hle _ _ _ _ _, rfl, ?_, hwi⟩⟩
    show v.fi.toNat = _
    omega
  | succ m ih =>
    have he := engineStep_frame hp (by omega)
    rw [hfi, hsb.word (by omega) (by omega)] at he
    generalize hu : latchControlWord (bodyWord s f 0) (tick v) = u at he
    have u1 : u.phase = .word := by
      rw [← hu]
      show (if inFrame0 v then Phase.ic else .word) = _
      rw [if_neg]
      intro h
      have := inFrame0_iff.1 h
      omega
    have u2 : u.fi.toNat = f := by rw [← hu]; exact hfi
    have u3 : u.wi = 1 := by rw [← hu]; rfl
    have u4 : u.cw = bodyWord s f 0 := by rw [← hu]; rfl
    have hA : Integrated v [] u := by rw [← hu]; exact Integrated.none hle _ _ _ _ _
    obtain ⟨n, t, hn', hs, h⟩ := walk_words s f (by omega) 15 1 u (by omega) (by omega) u1 u2 (by omega)
      (by rw [u3]; rfl) u4 (hsb.after hA) hA.cnt_le
    have hfl : frameLanes s f = lanesOfWords s f (List.range' 1 15) := by
      unfold frameLanes
      rw [show firstDataWord f = 1 by unfold firstDataWord; rw [if_neg (by omega)]]
      rfl
    have hfs : frameSites s f = sitesOfWords s f (List.range' 1 15) := by
      unfold frameSites
      rw [show firstDataWord f = 1 by unfold firstDataWord; rw [if_neg (by omega)]]
      rfl
    have hlen := sitesOfWords_length s f (List.range' 1 15)
    rw [List.range'_succ, List.flatMap_cons, List.flatMap_cons, hfl, hfs]
    rcases h with ⟨h, t1, t2, t3⟩ | h
    · have h' : Integrated v (lanesOfWords s f (List.range' 1 15)) t := hA.trans h
      obtain ⟨n2, t', hn2, hs2, h2⟩ := ih (f + 1) t (by omega) (by omega) t1 t2 t3 (by rw [h'.nfrL_eq]; exact hnfr)
        (hsb.after h') h'.cnt_le
      refine ⟨1 + n + n2, t', by omega, engineSteps_add (engineSteps_add (engineSteps_one he) hs) hs2, ?_⟩
      rcases h2 with ⟨h2, hh⟩ | h2
      · exact .inl ⟨h'.trans h2, hh⟩
      · exact .inr (h'.stop hlen h2)
    · have h' : StoppedInside v (lanesOfWords s f (List.range' 1 15)) (sitesOfWords s f (List.range' 1 15)) t :=
        hA.stop (ps := []) rfl h
      exact ⟨1 + n, t, by omega, engineSteps_add (engineSteps_one he) hs, .inr (h'.append hlen)⟩

end Sys2Proof.Machine
end

