-- ==== Sys2Proof/Tests/Slice0.lean ====
section
/-! SUPPORT. Tests on fixed values, and for each statement with hypotheses a state and operands that meet them. Expected
values come from the spec: the rule's worked example or the table named in the docstring. -/

namespace Sys2Proof.Tests

open Sys2Proof.Machine

/-! ### Helpers -/

/-- The next state, where there is one. -/
def after (o : Host.Outcome State Fault Refusal) : Option State :=
  match o with
  | .next t => some t
  | .fault _ => none
  | .refused _ => none

/-- Whether an outcome is a refusal. -/
def isRefusal (o : Host.Outcome State Fault Refusal) : Bool :=
  match o with
  | .next _ => false
  | .fault _ => false
  | .refused _ => true

/-- A state in a run of `nfr` frames and `nexp` expected samples, with the cursor at a word and `cnt` samples made. -/
def running (phase : Phase) (nfr : BitVec 11) (nexp : BitVec 16) (fi : BitVec 10) (wi : BitVec 4) (cnt : BitVec 16)
    (acc : Word) : State :=
  { State.reset with phase := phase, nfrL := nfr, nexpL := nexp, fi := fi, wi := wi, cnt := cnt, acc := acc }

/-- An idle state with a body length configured. -/
def idle (bodyLen : BitVec 16) : State := { State.reset with bodyLenCfg := bodyLen }

/-- Frame 0's word 3 is next of one frame, sample 0 (X0 = 7) is made of two. -/
def midRun : State := { running .word 1 2 0 3 1 7 with x0 := 7, mem := Memory.writeWord [] 0x40000 7 }

/-! ### Ill-formed terms -/

/-- Word 0 is a control word whatever its code (R89 row 1). -/
theorem test_wellFormed_stop_word0 : (Instr.stop false 0).wellFormed = false := by decide
theorem test_wellFormed_d8x4_word0 : (Instr.d8x4 true 0 0).wellFormed = false := by decide
/-- Frame 0's words 1 and 2 hold the constants (R85). -/
theorem test_wellFormed_stop_frame0 : (Instr.stop true 1).wellFormed = false := by decide
theorem test_wellFormed_d16x2_frame0 : (Instr.d16x2 true 2 0).wellFormed = false := by decide
theorem test_wellFormed_d32x1_frame0 : (Instr.d32x1 true 1 0).wellFormed = false := by decide
/-- In a later frame words 1 and 2 are data words (R85). -/
theorem test_wellFormed_later_frame :
    (Instr.d32x1 false 1 0).wellFormed = true ∧ (Instr.d8x4 false 2 0).wellFormed = true := by decide

/-- A byte list of the wrong shape is rejected by name. -/
theorem test_decode_keyTooWide : decodeBytes [0x80, 0, 0, 0, 0] = .error .keyTooWide := by rfl
theorem test_decode_truncated : decodeBytes [0x05, 0x01, 0xFF, 0x7F] = .error .truncated := by rfl

/-! ### Decoding: words written out from R89 and R91 -/

/-- Row 1: WI = 0. Key F0 = 0, WI = 0000, code = 11, the control word of R94's example. -/
theorem test_decode_ctrl : decode (.bodyWord 0b0_0000_11 0x01B00000) = .ctrl false 3 0x01B00000 := by decide
/-- Row 2: F0 = 1, WI = 0001; c1 is ignored. -/
theorem test_decode_icx0 : decode (.bodyWord 0b1_0001_10 0x000003E8) = .icx0 2 0x000003E8 := by decide
/-- Row 3: F0 = 1, WI = 0010; c2 is ignored. -/
theorem test_decode_icxn : decode (.bodyWord 0b1_0010_01 0x0000044B) = .icxn 1 0x0000044B := by decide
/-- Row 4: code 00; the word is not read. -/
theorem test_decode_stop : decode (.bodyWord 0b1_0011_00 0x7F7F7F7F) = .stop true 3 := by decide
/-- Row 5: code 01 at word 4 of a later frame (R103's example). -/
theorem test_decode_d8x4 : decode (.bodyWord 0b0_0100_01 0x01FF7F80) = .d8x4 false 4 0x01FF7F80 := by decide
/-- Row 6: code 10 at word 15 of frame 0. -/
theorem test_decode_d16x2 : decode (.bodyWord 0b1_1111_10 0x7FFF8000) = .d16x2 true 15 0x7FFF8000 := by decide
/-- Row 7: code 11 at word 2 of a later frame. -/
theorem test_decode_d32x1 : decode (.bodyWord 0b0_0010_11 0x000186A0) = .d32x1 false 2 0x000186A0 := by decide
/-- R91: v[1:0] = 11 is SRST. -/
theorem test_decode_srst : decode (.ctrlWrite 0b11) = .srst 0 true := by decide
/-- R91: v[1:0] = 01 is START, v[31:2] is ignored. -/
theorem test_decode_start : decode (.ctrlWrite 0xFFFFFFFD) = .start 0x3FFFFFFF := by decide
/-- R91: v[1:0] = 00 is no command. -/
theorem test_decode_ctrlNop : decode (.ctrlWrite 0x00000004) = .ctrlNop 1 := by decide
/-- R55: the bytes of a word, the most significant first. -/
theorem test_decode_bytes :
    decodeBytes [0b0_0100_01, 0x01, 0xFF, 0x7F, 0x80, 0xAA] = .ok (.d8x4 false 4 0x01FF7F80, [0xAA]) := by rfl
/-- R82: c1 and c15 of a control word. -/
theorem test_codeAt : codeAt 0x20000001 1 = 2 ∧ codeAt 0x20000001 15 = 1 := by decide
/-- The table's bits: a key of 7 bits, and a value of 32 bits written to CTRL. -/
theorem test_tableWord :
    decodeTableWord 8 0x44 = some (.icx0 0 0) ∧ decodeTableWord 32 2 = some (.srst 0 false) := by decide

/-! ### One step of each instruction -/

/-- R101's example: frame 1 of 3. -/
theorem test_ctrl_later_frame :
    (after (exec (.ctrl false 0 0x15555555) (running .frame 3 9 1 0 1 0))).map (fun t => (t.cw, t.wi, t.phase)) =
      some (0x15555555, 1, .word) := by decide
/-- R101: in frame 0 the constants come next. -/
theorem test_ctrl_frame0 :
    (after (exec (.ctrl true 3 0) (running .frame 3 9 0 0 0 0))).map (fun t => (t.wi, t.phase)) =
      some (1, .ic) := by decide
/-- R102's example. -/
theorem test_icx0_example :
    (after (exec (.icx0 0 0x000003E8) (running .ic 1 100 0 1 0 0))).map
      (fun t => (t.x0, t.acc, sampleEntry t 0, t.cnt, t.wi, t.phase)) =
      some (1000, 1000, 1000, 1, 3, .word) := by decide
/-- R102: X0 is surplus where no sample is wanted; WI stays 1, and STRICT sets ERR_LEN (R122). -/
theorem test_icx0_surplus :
    let t := loadX0 ⟨.skip, .strict⟩ 7 (running .ic 1 0 0 1 0 0)
    (t.acc, t.d0p, t.errLen, t.cnt, t.wi, t.phase) = (7, true, true, 0, 1, .finish) := by decide
/-- R102's example, the reverse constant. -/
theorem test_icxn_example :
    (after (exec (.icxn 0 0x0000044B) (running .ic 1 100 0 1 0 5))).map (fun t => (t.xn, t.acc)) =
      some (1099, 5) := by decide
/-- R104's example. -/
theorem test_stop_example :
    (after (exec (.stop true 7) (running .word 2 9 0 7 4 5))).map (fun t => (t.fi, t.wi, t.phase, t.cnt, t.acc)) =
      some (1, 0, .frame, 4, 5) := by decide
/-- R124's example. -/
theorem test_d8x4_example :
    (after (exec (.d8x4 false 4 0x01FF7F80) (running .word 2 10 1 4 1 100))).map
      (fun t => ([1, 2, 3, 4].map (sampleEntry t), t.acc, t.cnt, t.wi)) =
      some ([101, 100, 227, 99], 99, 5, 5) := by decide
/-- R127: the third lane is surplus; the cursor stays on the word. -/
theorem test_d8x4_surplus :
    let t := processLanes ⟨.integrate, .strict⟩ (lanes8 0x01FF7F80) (running .word 2 3 1 4 1 100)
    (t.acc, t.cnt, t.fi, t.wi, t.phase, t.errLen) = (100, 3, 1, 4, .finish, true) := by decide
/-- R125's example. -/
theorem test_d16x2_example :
    (after (exec (.d16x2 false 15 0x7FFF8000) (running .word 2 3 1 15 1 0))).map
      (fun t => ([1, 2].map (sampleEntry t), t.fi, t.wi, t.phase)) =
      some ([0x00007FFF, 0xFFFFFFFF], 2, 0, .frame) := by decide
/-- R120: the first difference under SKIP is discarded. -/
theorem test_d16x2_discard :
    (after (exec (.d16x2 true 3 0x00050007) { running .word 1 3 0 3 1 10 with d0p := true })).map
      (fun t => (sampleEntry t 1, t.cnt, t.d0p)) = some (17, 2, false) := by decide
/-- R126's example. -/
theorem test_d32x1_example :
    (after (exec (.d32x1 false 1 0x000186A0) (running .word 2 2 1 1 1 0xFFFFFFFB))).map
      (fun t => (sampleEntry t 1, t.acc)) = some (0x0001869B, 0x0001869B) := by decide
/-- R126: overflow wraps. -/
theorem test_d32x1_wraps :
    (after (exec (.d32x1 false 1 1) (running .word 2 2 1 1 1 0x7FFFFFFF))).map (fun t => (t.acc, statusWord t)) =
      some (0x80000000, 0x00000001) := by decide
/-- R151's example. -/
theorem test_start_example :
    (after (exec (.start 0) { idle 192 with nexpCfg := 100 })).map
      (fun t => (t.nexpL, t.nfrL, t.phase, statusWord t)) = some (100, 3, .frame, 0x00000001) := by decide
/-- R152: a body length that is no multiple of 64. DONE, ERR_SIZE and ERR_CODE 1. -/
theorem test_start_badLength :
    (after (exec (.start 0) (idle 63))).map (fun t => (t.phase, statusWord t)) =
      some (.idle, 0x00000106) := by decide
/-- R154's example. -/
theorem test_srst_example :
    (after (hostAccess (.write .b32 0 2) (running .word 2 50 0 5 40 9))).map
      (fun t => (t.phase, t.cnt, statusWord t)) = some (.idle, 0, 0) := by decide
/-- R150: no command. -/
theorem test_ctrlNop :
    after (hostAccess (.write .b32 0 0xFFFFFFFC) (running .word 2 50 0 5 40 9)) =
      some (running .word 2 50 0 5 40 9) := by decide

/-! ### Other steps, the host bus, the listing -/

/-- R140: both checks fire. R158's example: STATUS reads 0x0000021A. -/
theorem test_finish_both_checks :
    statusWord (finishRun { running .finish 1 9 1 0 4 8 with xn := 7 }) = 0x0000021A := by decide
/-- R33, R158: the fields of CURSOR. -/
theorem test_cursor : cursorWord { running .word 3 9 2 5 1 0 with d0p := true } = 0xB0020005 := by decide
/-- R53, R66: a word written and one of its bytes read. -/
theorem test_body_bigEndian :
    ((after (hostAccess (.write .b32 0x10000 0x01B00000) (idle 64))).bind
        (fun t => after (hostAccess (.read .b8 0x10001) t))).map (·.returned) = some [0x000000B0] := by decide
/-- R58: a misaligned access is refused; R51: an unmapped one reads 0 (V-HOST-9). -/
theorem test_refused_and_unmapped :
    isRefusal (hostAccess (.read .b32 0x10002) (idle 64)) = true ∧
    (after (hostAccess (.read .b32 0x20000) (idle 64))).map (·.returned) = some [0] := by decide
/-- R94's worked example. -/
theorem test_listing_controlWord :
    ((assembleFrame true ⟨0, [.x0 5, .xn 70009, .d8 1 1 1 1, .d16 300 (-300), .d32 70000]⟩).map List.head?) =
      some (some 0x01B00000) := by decide
/-- The step from reset runs the instruction placed for it, here D8X4 in a later frame with no sample wanted. -/
theorem test_withFetchWord_runs :
    step (State.reset.withFetchWord 8 0b0_0100_01) =
      exec (.d8x4 false 4 0) (tick (withTurns [] (State.reset.withFetchWord 8 0b0_0100_01))) := by rfl
/-- A CTRL write placed for the next step. -/
theorem test_withFetchWord_ctrlWrite :
    (after (step (State.reset.withFetchWord 32 1))).map (·.phase) = some .frame := by decide

/-! ### Hypotheses of the statements: encoding -/

theorem test_witness_roundTrip :
    (Instr.stop true 3).wellFormed = true ∧ (Instr.d32x1 false 15 0xFFFFFFFF).wellFormed = true ∧
    (Instr.srst 0 true).wellFormed = true := by decide
theorem test_witness_everyEncoding :
    (decode (.bodyWord 0b1_0001_00 5)).op ≠ .stop ∧ (decode (.bodyWord 0b0_1111_00 5)).op = .stop := by decide
theorem test_witness_listedCodes :
    (List.replicate 15 (3 : Code)).length = 15 ∧ 14 < (List.replicate 15 (3 : Code)).length := by decide

/-! ### Hypotheses: the step -/

/-- The engine's turn by default and listed, in each PHASE, and a CTRL write as the next turn. -/
theorem test_witness_step :
    (let s := running .frame 1 1 0 0 0 0
     s.turns = [] ∧ s.phase = .frame ∧ s.fi.toNat ≠ s.nfrL.toNat) ∧
    (let s := { running .ic 1 1 0 1 0 0 with turns := [.engine, .reset] }
     s.turns.head? = some .engine ∧ s.phase = .ic) ∧
    (let s := { running .word 1 1 0 15 1 0 with turns := [.engine] }
     s.turns.head? = some .engine ∧ s.phase = .word) ∧
    ({ idle 64 with turns := [.host (.write .b32 0 1)] } : State).turns = .host (.write .b32 0 1) :: [] := by decide
theorem test_witness_idle :
    ((idle 64).phase = .idle ∧ (idle 64).turns = []) ∧
    (let s := { idle 64 with turns := [.engine] }
     s.phase = .idle ∧ s.turns.head? = some .engine) := by decide
theorem test_witness_endOfBody :
    (let s := running .frame 0 1 0 0 0 0
     s.turns = [] ∧ s.phase = .frame ∧ s.fi.toNat = s.nfrL.toNat) ∧
    (let s := { running .frame 1023 1 1023 0 1 0 with turns := [.engine, .reset] }
     s.turns.head? = some .engine ∧ s.phase = .frame ∧ s.fi.toNat = s.nfrL.toNat) := by decide
/-- R102's two branches, at NEXP_L = 0 and at the last sample that fits. -/
theorem test_witness_icx0 :
    (let s := running .ic 1 1 0 1 0 0
     s.turns = [] ∧ s.phase = .ic ∧ s.cnt.toNat < s.nexpL.toNat) ∧
    (let s := running .ic 1 65535 0 1 65534 0
     s.turns = [] ∧ s.phase = .ic ∧ s.cnt.toNat < s.nexpL.toNat) ∧
    (let s := { running .ic 1 0 0 1 0 0 with turns := [.engine] }
     s.turns.head? = some .engine ∧ s.phase = .ic ∧ s.nexpL.toNat ≤ s.cnt.toNat) := by decide

/-! ### Hypotheses: lanes -/

/-- R120's three tests. -/
theorem test_witness_processLane :
    ({ running .word 1 2 0 3 1 0 with d0p := true } : State).d0p = true ∧
    (let s := running .word 1 2 0 3 1 0; s.d0p = false ∧ s.cnt.toNat < s.nexpL.toNat) ∧
    (let s := running .word 1 2 0 3 2 0; s.d0p = false ∧ s.nexpL.toNat ≤ s.cnt.toNat) := by decide
/-- Room for exactly four, two and one samples, up to the largest count. -/
theorem test_witness_room :
    (let s := running .word 1 65535 0 3 65531 0; s.d0p = false ∧ s.cnt.toNat + 4 ≤ s.nexpL.toNat) ∧
    (let s := running .word 1 3 0 3 1 0; s.d0p = false ∧ s.cnt.toNat + 2 ≤ s.nexpL.toNat) ∧
    (let s := running .word 1 65535 0 15 65534 0; s.d0p = false ∧ s.cnt.toNat + 1 ≤ s.nexpL.toNat) := by decide
/-- A whole word of lanes, with D0P pending at word 15, and without it before word 15. -/
theorem test_witness_integrates :
    (let s := { running .word 1 4 0 15 1 0 with d0p := true }
     let i := Instr.d8x4 true 15 0x01020304
     dataLanes i ≠ [] ∧ s.cnt.toNat + (liveLanes i s).length ≤ s.nexpL.toNat ∧ s.wi = 15 ∧
       2 < (liveLanes i s).length) ∧
    (let s := running .word 1 3 0 14 1 0
     let i := Instr.d16x2 true 14 0x01020304
     dataLanes i ≠ [] ∧ s.cnt.toNat + (liveLanes i s).length ≤ s.nexpL.toNat ∧ s.wi ≠ 15 ∧
       1 < (liveLanes i s).length) := by decide
/-- The first and the last lane of a word as surplus lane. -/
theorem test_witness_surplus :
    (let s := running .word 1 1 0 3 1 0
     0 < (liveLanes (.d32x1 true 3 9) s).length ∧ s.cnt.toNat + 0 = s.nexpL.toNat) ∧
    (let s := running .word 1 4 0 3 1 0
     3 < (liveLanes (.d8x4 true 3 9) s).length ∧ s.cnt.toNat + 3 = s.nexpL.toNat) := by decide
theorem test_witness_dataWordFrame :
    dataLanes (.d16x2 true 3 9) ≠ [] ∧
    (after (exec (.d16x2 true 3 9) (running .word 1 3 0 3 1 0))).isSome = true := by decide
theorem test_witness_wrapAround :
    (running .word 1 65535 0 3 65534 7).d0p = false ∧
    (running .word 1 65535 0 3 65534 7).cnt.toNat < (running .word 1 65535 0 3 65534 7).nexpL.toNat := by decide
theorem test_witness_policies : 0 < ([5, 6] : List Word).length ∧ 1 < ([5, 6] : List Word).length := by decide
theorem test_witness_finish :
    ((running .finish 1 2 1 0 1 7).turns = [] ∧ (running .finish 1 2 1 0 1 7).phase = .finish) ∧
    (let s := { running .finish 1 2 1 0 1 7 with turns := [.engine] }
     s.turns.head? = some .engine ∧ s.phase = .finish) := by decide

/-! ### Hypotheses: commands, registers and memories -/

/-- START while busy, with a length that is no multiple of 64, with an empty body and with the longest one. -/
theorem test_witness_start :
    (running .word 1 2 0 3 1 0).phase ≠ .idle ∧ ((idle 65535).phase = .idle ∧ (idle 65535).bodyLenCfg.toNat % 64 ≠ 0) ∧
    ((idle 0).phase = .idle ∧ (idle 0).bodyLenCfg.toNat % 64 = 0) ∧
    ((idle 65472).phase = .idle ∧ (idle 65472).bodyLenCfg.toNat % 64 = 0) := by decide
theorem test_witness_ctrlWrite :
    (2 : Word).getLsbD 1 = true ∧ ((1 : Word).getLsbD 1 = false ∧ (1 : Word).getLsbD 0 = true) ∧
    ((4 : Word).getLsbD 1 = false ∧ (4 : Word).getLsbD 0 = false) := by decide
/-- Two idle states that differ in what an earlier run left. -/
theorem test_witness_startForgets :
    let s := { idle 64 with acc := 5, cnt := 2, done := true }
    s.phase = .idle ∧ (idle 64).phase = .idle ∧ s.nexpCfg = (idle 64).nexpCfg ∧
    s.bodyLenCfg = (idle 64).bodyLenCfg ∧ s.doneIe = (idle 64).doneIe ∧ s.mem = (idle 64).mem ∧
    s.turns = (idle 64).turns ∧ s.returned = (idle 64).returned ∧ s.resets = (idle 64).resets ∧
    s.draws = (idle 64).draws ∧ s ≠ idle 64 := by decide
/-- A read of the last register as the next turn. -/
theorem test_witness_registerRead :
    ({ idle 64 with turns := [.host (.read .b32 0x3C)] } : State).turns = .host (.read .b32 0x3C) :: [] ∧
    ((0x3C, 0) : Addr × Word) ∈ [((0x00, 0) : Addr × Word), (0x3C, 0)] := by decide
/-- The first and the last address of each region, and of each stretch of unmapped addresses. -/
theorem test_witness_regions :
    (regionOf 0x00000 = .registers ∧ regionOf 0x0003F = .registers) ∧
    (regionOf 0x10000 = .body ∧ regionOf 0x1FFFF = .body) ∧
    (regionOf 0x40000 = .samples ∧ regionOf 0x7FFFF = .samples) ∧
    (regionOf 0x00040 = .unmapped ∧ regionOf 0x0FFFF = .unmapped ∧ regionOf 0x20000 = .unmapped ∧
      regionOf 0x3FFFF = .unmapped ∧ regionOf 0x80000 = .unmapped ∧ regionOf 0xFFFFF = .unmapped) := by decide
theorem test_witness_refused :
    let a := Access.read .b16 0x10000
    ({ idle 64 with turns := [.host a] } : State).turns = .host a :: [] ∧ a.isRefused = true := by decide
/-- The unmapped accesses next to each region: 8-bit, aligned 32-bit, 16-bit and misaligned 32-bit ones. -/
theorem test_witness_unmapped :
    (regionOf 0x00040 = .unmapped ∧ regionOf 0xFFFFF = .unmapped) ∧
    (regionOf 0x0FFFC = .unmapped ∧ (0x0FFFC : Addr).toNat % 4 = 0) ∧
    (regionOf 0x20000 = .unmapped ∧ (0x20000 : Addr).toNat % 4 = 0) ∧
    (regionOf 0x0FFFD = .unmapped ∧ (0x0FFFD : Addr).toNat % 4 ≠ 0) ∧
    (regionOf 0x80003 = .unmapped ∧ (0x80003 : Addr).toNat % 4 ≠ 0) := by decide
/-- R184, I13: a 16-bit access is refused anywhere, a misaligned 32-bit one too (assumption 9). -/
theorem test_unmapped_refused :
    isRefusal (hostAccess (.read .b16 0x80000) (idle 64)) = true ∧
    isRefusal (hostAccess (.write .b16 0x0FFFE 1) (idle 64)) = true ∧
    isRefusal (hostAccess (.read .b32 0x80001) (idle 64)) = true ∧
    isRefusal (hostAccess (.read .b32 0xFFFFC) (idle 64)) = false := by decide
/-- Idle and busy body accesses at both ends of the body. -/
theorem test_witness_bodyAccess :
    (regionOf 0x1FFFF = .body ∧ (idle 64).phase = .idle) ∧
    (regionOf 0x1FFFC = .body ∧ (idle 64).phase = .idle ∧ (0x1FFFC : Addr).toNat % 4 = 0) ∧
    (regionOf 0x10000 = .body ∧ (running .word 1 2 0 3 1 0).phase ≠ .idle ∧ refusedShape .b8 0x10000 = false ∧
      refusedShape .b32 0x10000 = false) := by decide
/-- The last entry below CNT, the first one at CNT and the last of the memory. -/
theorem test_witness_samples :
    (0 < 65536 ∧ 0 < (running .word 1 2 0 3 1 0).cnt.toNat) ∧
    (1 < 65536 ∧ (running .word 1 2 0 3 1 0).cnt.toNat ≤ 1) ∧
    (65535 < 65536 ∧ (running .word 1 2 0 3 1 0).cnt.toNat ≤ 65535) := by decide
theorem test_witness_hostRead : (after (hostAccess (.read .b32 0x24) (idle 64))).isSome = true := by decide
/-- Each event that lowers `irq`, where it was high. -/
theorem test_witness_irq :
    let s := { idle 64 with done := true, doneIe := true }
    irq s = true ∧
    ((2 : Word).getLsbD 1 = true ∧ (after (hostAccess (.write .b32 0x0C 2) s)).isSome = true) ∧
    ((0 : Word).getLsbD 0 = false ∧ (after (hostAccess (.write .b32 0x10 0) s)).isSome = true) ∧
    (after (exec (.srst 0 false) s)).isSome = true ∧ (after (takeTurn .reset s)).isSome = true ∧
    (s.phase = .idle ∧ s.bodyLenCfg.toNat % 64 = 0 ∧ (after (exec (.start 0) s)).isSome = true) := by decide
theorem test_witness_hardwareReset :
    ({ running .word 1 2 0 3 1 0 with turns := [.reset] } : State).turns = .reset :: [] := by decide

/-! ### Hypotheses: invariants and runs -/

/-- A state in mid-run that meets every invariant: frame 0's word 3 is next, sample 0 is written. -/
theorem test_witness_inv : midRun.Inv := by
  refine ⟨by decide, by decide, by decide, by decide, by decide, fun _ => by decide, by decide, by decide, by decide,
    by decide, by decide, by decide, by decide, by decide, ⟨by decide, by decide⟩, fun a h1 h2 => ?_,
    by decide, by decide, by decide⟩
  have h1 : 0x40000 ≤ a := h1
  have h2 : a < 0x40004 := h2
  interval_cases a <;> decide
/-- From that state the engine steps to a next state. -/
theorem test_witness_invStep : (after (step midRun)).isSome = true := by decide
/-- Beside that state, a memory that differs in the first byte beyond its one frame alone. -/
theorem test_witness_beyondBody :
    let s := midRun
    let m : Memory := (0x10040, 9) :: s.mem
    m ≠ s.mem ∧ ∀ a, ¬(bodyAddr (64 * s.nfrL.toNat) ≤ a ∧ a < 0x20000) → m.read a = s.mem.read a := by
  refine ⟨by decide, fun a h => if_neg ?_⟩
  rintro rfl
  exact h (by decide)
theorem test_witness_memoryForm :
    Memory.wf ([(0x10000, 1), (0x40000, 2)] : Memory) ∧
    (after (step { idle 64 with mem := [(0x10000, 1), (0x40000, 2)] })).isSome = true := by
  exact ⟨⟨by decide, by decide⟩, by decide⟩
theorem test_witness_bodyFixed :
    let s := { running .word 1 2 0 3 1 0 with turns := [.host (.write .b8 0x10000 9)] }
    s.phase ≠ .idle ∧ s.turns.head? ≠ some .reset ∧ (after (step s)).isSome = true := by decide
/-- Each flag raised: BUSY by an accepted START, DONE and ERR_SIZE by a START that fails the size check, the others by
FINISH. -/
theorem test_witness_flags :
    (let s := { idle 64 with turns := [.host (.write .b32 0 1)] }
     s.phase = .idle ∧ (after (step s)).map (·.phase) = some .frame) ∧
    (let s := { idle 63 with turns := [.host (.write .b32 0 1)] }
     s.done = false ∧ s.errSize = false ∧ (after (step s)).map (fun t => (t.done, t.errSize)) = some (true, true)) ∧
    (let s := { running .finish 1 9 1 0 4 8 with xn := 7 }
     s.done = false ∧ s.errInteg = false ∧ s.errLen = false ∧ s.phase ≠ .idle ∧
       (after (step s)).map (fun t => (t.phase, t.done, t.errInteg, t.errLen)) = some (.idle, true, true, true)) := by
  decide
/-- Each flag cleared: DONE by a STATUS write, the three ERR bits by an accepted START, BUSY by an SRST. -/
theorem test_witness_flagsCleared :
    (let s := { idle 64 with done := true, turns := [.host (.write .b32 0x0C 2)] }
     (after (step s)).map (·.done) = some false) ∧
    (let s := { idle 64 with
                done := true, errSize := true, errLen := true, errInteg := true
                turns := [.host (.write .b32 0 1)] }
     (after (step s)).map (fun t => (t.done, t.errSize, t.errLen, t.errInteg)) = some (false, false, false, false)) ∧
    (let s := { running .word 1 2 0 3 1 0 with turns := [.host (.write .b32 0 2)] }
     s.phase ≠ .idle ∧ (after (step s)).map (·.phase) = some .idle) := by decide
/-- A START while busy is no SRST. -/
theorem test_witness_hostDuringRun :
    let s := { running .word 1 2 0 3 1 0 with turns := [.host (.write .b32 0 1)] }
    s.phase ≠ .idle ∧ s.turns = .host (.write .b32 0 1) :: [] ∧ (1 : Word).getLsbD 1 = false ∧
    (after (step s)).isSome = true := by decide
/-- One frame with control word `cw`, `nexp` samples expected and harmless turns listed: a read, a START while busy and
an IE write between the engine's steps. -/
def launch (cw : Word) (nexp : BitVec 16) : State :=
  { idle 64 with
    nexpCfg := nexp, mem := Memory.writeWord [] 0x10000 cw
    turns := [.host (.read .b32 0x24), .engine, .host (.write .b32 0 1), .host (.write .b32 0x10 1)] }
theorem test_witness_run :
    (launch 0 1).phase = .idle ∧ (launch 0 1).bodyLenCfg.toNat % 64 = 0 ∧
    ∀ x ∈ (launch 0 1).turns, x.isHarmless = true := by decide
/-- An empty body, and no turn listed. -/
theorem test_witness_emptyRun :
    (idle 0).phase = .idle ∧ (idle 0).bodyLenCfg.toNat / 64 = 0 ∧ ∀ x ∈ (idle 0).turns, x.isHarmless = true := by decide
/-- Under every build: with codes 00 alone no surplus where one sample is wanted, and a surplus X0 where none is; with
c3 = 01 and c4 = 11 a surplus lane where three samples are wanted, in word 3. -/
theorem test_witness_hasSurplus (b : Config.Build) :
    hasSurplus b (launch 0 1) 1 1 = false ∧
    (hasSurplus b (launch 0 0) 0 1 = true ∧ surplusSite b (launch 0 0) 0 1 = some (0, 1)) ∧
    (hasSurplus b (launch 0x01C00000 3) 3 1 = true ∧ surplusSite b (launch 0x01C00000 3) 3 1 = some (0, 3)) := by
  rcases b with ⟨_ | _, _ | _⟩ <;> decide
/-- R177: of those five lanes the fifth is in word 4. -/
theorem test_surplusSite :
    let s := launch 0x01C00000 5
    surplusSite ⟨.integrate, .ignore⟩ s 5 1 = some (0, 4) ∧ surplusSite ⟨.skip, .ignore⟩ s 5 1 = none ∧
    surplusSite ⟨.skip, .strict⟩ s 4 1 = some (0, 4) := by decide
/-- An SRST and a refused access are not harmless. -/
theorem test_isHarmless :
    (Turn.host (.write .b32 0 2)).isHarmless = false ∧ (Turn.host (.write .b32 0 1)).isHarmless = true ∧
    (Turn.host (.read .b8 0x0C)).isHarmless = false ∧ Turn.reset.isHarmless = false := by decide
/-- An SRST after one engine step, and a START after it: the first run is aborted. -/
def abortedRun : State :=
  { idle 64 with turns := [.engine, .host (.write .b32 0 2), .host (.write .b32 0 1)] }
theorem test_witness_abort :
    abortedRun.phase = .idle ∧ abortedRun.bodyLenCfg.toNat % 64 = 0 ∧
    abortedRun.turns = [.engine] ++ .host (.write .b32 0 2) :: [.host (.write .b32 0 1)] ∧
    Turn.engine.isHarmless = true ∧ (Turn.host (.write .b32 0 2)).isAbort = true := by decide
/-- R203: START, SRST, START with an empty body. The second run reaches DONE after step 4, and the first one, which step 1
aborted, has no end there. -/
theorem test_abortedRun_hasNoEnd :
    let u := acceptStart { idle 0 with turns := [.host (.write .b32 0 2), .host (.write .b32 0 1)] }
    (after (steps 1 u)).map (fun t => (t.phase, t.done)) = some (.idle, false) ∧
    (after (steps 4 u)).map (fun t => (t.phase, t.done)) = some (.idle, true) ∧ ∀ t, ¬ EndsAt u 4 t :=
  ⟨by decide, by decide, fun _ h => h.running 1 (by decide) _ rfl rfl⟩
/-- A refused access at one instance is the platform's outcome (assumption 29). -/
theorem test_platformRefusal :
    (match platformStep [idle 64, { idle 64 with turns := [.host (.read .b16 0)] }] 1 with
      | .next _ => false
      | .fault _ => false
      | .refused _ => true) = true := by decide
/-- Two instances, one of which steps. -/
theorem test_witness_instances :
    platformStep [idle 64, running .frame 0 1 0 0 0 0] 1 =
      .next [idle 64, { running .finish 0 1 0 0 0 0 with draws := 1 }] ∧ (0 : Nat) ≠ 1 := by
  exact ⟨rfl, by decide⟩

end Sys2Proof.Tests
end

section
/-! SUPPORT. The register views read back as fields (R26, R27, R31, R33) and the idle block (R42). -/

namespace Sys2Proof.Machine

/-! ### Register views -/

/-- STATUS bits 9:8 are ERR_CODE (R26). -/
theorem statusWord_errCode (s : State) : (statusWord s).extractLsb 9 8 = errCode s := by
  refine BitVec.eq_of_getLsbD_eq fun i hi => ?_
  have hi : i < 2 := hi
  simp only [BitVec.getLsbD_extractLsb, statusWord_getLsbD]
  interval_cases i <;> simp

/-- CURSOR bits 3:0 are WI (R33). -/
theorem cursorWord_wi (s : State) : (cursorWord s).extractLsb 3 0 = s.wi := by
  refine BitVec.eq_of_getLsbD_eq fun i hi => ?_
  have hi : i < 4 := hi
  simp only [BitVec.getLsbD_extractLsb, cursorWord_getLsbD]
  rw [if_pos (by omega)]
  simp
  omega

/-- CURSOR bits 25:16 are FI (R33). -/
theorem cursorWord_fi (s : State) : (cursorWord s).extractLsb 25 16 = s.fi := by
  refine BitVec.eq_of_getLsbD_eq fun i hi => ?_
  have hi : i < 10 := hi
  simp only [BitVec.getLsbD_extractLsb, cursorWord_getLsbD]
  rw [if_neg (by omega), if_neg (by omega), if_pos (by omega)]
  simp
  omega

/-- CURSOR bits 30:28 are PHASE (R33, R37). -/
theorem cursorWord_phase (s : State) : (cursorWord s).extractLsb 30 28 = s.phase.bits := by
  refine BitVec.eq_of_getLsbD_eq fun i hi => ?_
  have hi : i < 3 := hi
  simp only [BitVec.getLsbD_extractLsb, cursorWord_getLsbD]
  rw [if_neg (by omega), if_neg (by omega), if_neg (by omega), if_neg (by omega), if_pos (by omega)]
  simp
  omega

/-- Bit `k` of PARAM (R31). -/
theorem paramWord_getLsbD (b : Config.Build) (k : Nat) :
    (paramWord b).getLsbD k =
      if k = 0 then b.d0 == .skip else if k = 1 then b.surplus == .strict else false := by
  change BitVec.getLsbD (w := 30 + 1 + 1)
    ((0 : BitVec 30) ++ BitVec.ofBool (b.surplus == .strict) ++ BitVec.ofBool (b.d0 == .skip)) k = _
  rw [BitVec.getLsbD_append, BitVec.getLsbD_append]
  rcases k with _ | _ | k <;> simp

/-! ### The obligations about register views, reset values and the idle block -/

/-- Settles O9: in IDLE the engine's step is the identity, so an engine turn only leaves the list of turns. -/
theorem idleBlockWaits : Obligations.IdleBlockWaits := fun s hs =>
  ⟨engineStep_idle hs, fun ht => (step_engine ht).trans (engineStep_idle (s := withTurns s.turns.tail s) hs)⟩

/-- Settles O27: bits 9:8 are ERR_CODE, whose tests stand in R27's order. -/
theorem errCodePriority : Obligations.ErrCodePriority := fun s => statusWord_errCode s

/-- Settles O34, bit by bit. -/
theorem statusBits : Obligations.StatusBits := by
  intro s
  have bit := statusWord_getLsbD s
  refine ⟨?_, bit 1, bit 2, bit 3, bit 4, fun k hk => ?_⟩
  · rw [bit, if_pos rfl, Bool.eq_iff_iff, busy_iff, decide_eq_true_iff]
  · rw [bit]
    rcases hk with hk | hk
    · rw [if_neg (by omega), if_neg (by omega), if_neg (by omega), if_neg (by omega), if_neg (by omega),
        if_pos (by omega)]
    · rw [if_neg (by omega), if_neg (by omega), if_neg (by omega), if_neg (by omega), if_neg (by omega),
        if_neg (by omega)]
      exact BitVec.getLsbD_of_ge _ _ (by omega)

/-- Settles O35, field by field. -/
theorem cursorFields : Obligations.CursorFields := by
  intro s
  refine ⟨cursorWord_wi s, cursorWord_fi s, ?_, cursorWord_getLsbD s 31, fun k hk => ?_⟩
  · rw [cursorWord_phase]
    cases s.phase <;> rfl
  · rw [cursorWord_getLsbD]
    rcases hk with hk | hk
    · rw [if_neg (by omega), if_pos (by omega)]
    · rw [if_neg (by omega), if_neg (by omega), if_neg (by omega), if_pos (by omega)]

/-- Settles O36, bit by bit. -/
theorem paramReportsPolicies : Obligations.ParamReportsPolicies := by
  intro b
  refine ⟨?_, ?_, fun k hk => ?_⟩
  · rw [paramWord_getLsbD]
    simp
  · rw [paramWord_getLsbD]
    simp
  · rw [paramWord_getLsbD, if_neg (by omega), if_neg (by omega)]

/-- Settles O47: each value is the one `State.reset` gives. -/
theorem resetValues : Obligations.ResetValues :=
  ⟨rfl, rfl, rfl, rfl, rfl, rfl, rfl, rfl, rfl, rfl, rfl, rfl, rfl, rfl⟩

end Sys2Proof.Machine
end

section
/-! SUPPORT. What the lanes of a data word have done where they stop, and what one instruction or one step can do: each
said once, for the frame of a data word, the invariants and the flags. -/

namespace Sys2Proof.Machine

variable {s t u : State} {b : Config.Build} {d w : Word} {ds : List Word}

/-! ### Lanes -/

/-- The lanes of a word end in AdvanceWord or in a surplus lane, and what every discard and every integration keeps
holds of the state in which that happens (R103, R127). -/
theorem processLanes_ends (P : State → Prop)
    (discard : ∀ s, P s → s.d0p = true → P { s with d0p := false })
    (integ : ∀ s d, P s → s.d0p = false → s.cnt.toNat < s.nexpL.toNat → P (integrate d s)) :
    ∀ ds s, P s → ∃ u, P u ∧ (processLanes b ds s = advanceWord u ∨ processLanes b ds s = surplus b u) := by
  intro ds
  induction ds with
  | nil => exact fun s hs => ⟨s, hs, .inl rfl⟩
  | cons d ds ih =>
    intro s hs
    cases h : s.d0p with
    | true => rw [processLanes_discard h]; exact ih _ (discard s hs h)
    | false =>
      rw [processLanes]
      rcases Nat.lt_or_ge s.cnt.toNat s.nexpL.toNat with hc | hc
      · rw [processLane_integrate h hc]; exact ih _ (integ s d hs h hc)
      · rw [processLane_surplus h hc]; exact ⟨s, hs, .inr rfl⟩

/-- From `s` to `u` lanes have changed ACC, CNT, D0P and the sample entries from the old CNT up to the new one, and
nothing else (R56, R121). -/
structure LanesDone (s u : State) : Prop where
  frame : u = { s with acc := u.acc, cnt := u.cnt, d0p := u.d0p, mem := u.mem }
  cnt_le : s.cnt.toNat ≤ u.cnt.toNat
  read_other : ∀ a, a < sampleAddr s.cnt.toNat ∨ sampleAddr u.cnt.toNat ≤ a → u.mem.read a = s.mem.read a

theorem LanesDone.refl (s : State) : LanesDone s s := ⟨rfl, le_rfl, fun _ _ => rfl⟩

theorem LanesDone.discard (h : LanesDone s u) : LanesDone s { u with d0p := false } :=
  ⟨by rw [h.frame], h.cnt_le, h.read_other⟩

theorem LanesDone.integrate (h : LanesDone s u) (hc : u.cnt.toNat < u.nexpL.toNat) (d : Word) :
    LanesDone s (integrate d u) := by
  have hcnt := integrate_cnt_toNat (d := d) hc
  have hle := h.cnt_le
  refine ⟨?_, by omega, fun a ha => ?_⟩
  · rw [h.frame]
    rfl
  · have hout : a < sampleAddr u.cnt.toNat ∨ sampleAddr u.cnt.toNat + 4 ≤ a := by
      simp only [sampleAddr, hcnt] at ha ⊢
      omega
    rw [integrate_mem, read_writeWord_other _ _ hout]
    refine h.read_other a ?_
    simp only [sampleAddr] at ha hout ⊢
    omega

/-- A data word stops at a state that its lanes have reached from `s`, by AdvanceWord or by a surplus lane. -/
theorem processLanes_lanesDone (b : Config.Build) (ds : List Word) (s : State) :
    ∃ u, LanesDone s u ∧ (processLanes b ds s = advanceWord u ∨ processLanes b ds s = surplus b u) :=
  processLanes_ends (LanesDone s) (fun _ h _ => h.discard) (fun _ d h _ hc => h.integrate hc d) ds s (.refl s)

/-- A data-word instruction runs its lanes (R124 to R126). -/
theorem exec_dataWord {i : Instr} (h : dataLanes i ≠ []) (s : State) :
    exec i s = .next (processLanes Config.build (dataLanes i) s) := by
  cases i with
  | d8x4 _ _ _ | d16x2 _ _ _ | d32x1 _ _ _ => rfl
  | ctrl _ _ _ | icx0 _ _ | icxn _ _ | stop _ _ | srst _ _ | start _ | ctrlNop _ => exact absurd rfl h

/-- Settles O23: up to AdvanceWord or the surplus lane the frame is that of `LanesDone`, and neither of the two touches
CNT or the memory. -/
theorem dataWordFrame : Obligations.DataWordFrame := by
  intro i s t hi h
  rw [exec_dataWord hi] at h
  cases h
  obtain ⟨u, hu, hend⟩ := processLanes_lanesDone Config.build (dataLanes i) s
  have bytes : ∀ a, (a < 0x40000 + 4 * s.cnt.toNat ∨ 0x40000 + 4 * u.cnt.toNat ≤ a) →
      readByte u a = readByte s a := fun a ha => by
    have hr : u.resets = s.resets := by rw [hu.frame]
    rw [readByte, hu.read_other a ha, hr, readByte]
  rcases hend with e | e
  · rcases advanceWord_cases (s := u) with ⟨-, hadv⟩ | ⟨-, hadv⟩ <;> rw [e, hadv]
    · exact ⟨by rw [hu.frame]; rfl, bytes⟩
    · exact ⟨by rw [hu.frame], bytes⟩
  · rw [e]
    exact ⟨by rw [hu.frame]; rfl, bytes⟩

/-! ### One instruction, one step -/

/-- What the word of a body can do, under any key (R89). -/
theorem exec_bodyWord_cases {key : Key} (h : exec (decodeBodyWord key w) s = .next t) :
    t = latchControlWord w s ∨ t = loadX0 Config.build w s ∨ t = loadXn w s ∨ t = nextFrame s ∨
      ∃ ds, t = processLanes Config.build ds s := by
  unfold decodeBodyWord at h
  split_ifs at h <;> cases h
  · exact .inl rfl
  · exact .inr (.inl rfl)
  · exact .inr (.inr (.inl rfl))
  · exact .inr (.inr (.inr (.inl rfl)))
  all_goals exact .inr (.inr (.inr (.inr ⟨_, rfl⟩)))

/-- What a value written to CTRL does (R91). -/
theorem exec_ctrlWrite_cases {v : Word} (h : exec (decodeCtrlWrite v) s = .next t) :
    (v.getLsbD 1 = true ∧ t = softReset s) ∨ (v.getLsbD 1 = false ∧ v.getLsbD 0 = true ∧ t = startRun s) ∨
      t = s := by
  unfold decodeCtrlWrite at h
  split_ifs at h with h1 h0 <;> cases h
  · exact .inl ⟨h1, rfl⟩
  · exact .inr (.inl ⟨by simpa using h1, h0, rfl⟩)
  · exact .inr (.inr rfl)

/-- What START does: nothing while busy, else what the size check decides (R151 to R153). -/
theorem startRun_cases (s : State) :
    (s.phase ≠ .idle ∧ startRun s = s) ∨
    (s.phase = .idle ∧ s.bodyLenCfg.toNat % 64 ≠ 0 ∧ startRun s = rejectStart s) ∨
    (s.phase = .idle ∧ s.bodyLenCfg.toNat % 64 = 0 ∧ startRun s = acceptStart s) := by
  unfold startRun
  split_ifs with hb hl
  · exact .inl ⟨busy_iff.1 hb, rfl⟩
  · exact .inr (.inl ⟨by simpa [busy_iff] using hb, badBodyLen_iff.1 hl, rfl⟩)
  · exact .inr (.inr ⟨by simpa [busy_iff] using hb, by simpa [badBodyLen_iff] using hl, rfl⟩)

/-- A step takes the engine's turn, a host access or the hardware reset (R9, R61, R190). -/
theorem step_cases (h : step s = .next t) :
    ((s.turns = [] ∨ s.turns.head? = some .engine) ∧ engineStep (withTurns s.turns.tail s) = .next t) ∨
    (∃ a ts, s.turns = .host a :: ts ∧ hostAccess a (withTurns ts s) = .next t) ∨
    (∃ ts, s.turns = .reset :: ts ∧ t = hardReset (withTurns ts s)) := by
  cases hT : s.turns with
  | nil => exact .inl ⟨.inl rfl, by rw [← hT, ← step_engine (.inl hT), h]⟩
  | cons x ts =>
    have h' := step_turn hT
    rw [h] at h'
    cases x with
    | engine => exact .inl ⟨.inr rfl, h'.symm⟩
    | host a => exact .inr (.inl ⟨a, ts, rfl, h'.symm⟩)
    | reset => cases h'; exact .inr (.inr ⟨ts, rfl, rfl⟩)

end Sys2Proof.Machine
end

section
/-! SUPPORT. The invariants of R43 in three parts, about the flags, the cursor and the samples; what each effect of a step
does to the part it touches; and from these that every step keeps all of them. -/

namespace Sys2Proof.Machine

variable {s t : State} {d w : Word} {ds : List Word}

/-! ### The three parts -/

/-- The part of `State.Inv` about the flags (R27, R43, R197). -/
structure FlagsInv (s : State) : Prop where
  d0p_skip   : s.d0p = true → Config.build.d0 = .skip
  done_idle  : s.done = true → s.phase = .idle
  size_alone : s.errSize = true → s.errLen = false ∧ s.errInteg = false ∧ s.phase = .idle
  integ_idle : s.errInteg = true → s.phase = .idle
  len_finish : s.errLen = true → s.phase = .idle ∨ s.phase = .finish

/-- The part of `State.Inv` about the cursor (R43, R102, R107). -/
structure CursorInv (s : State) : Prop where
  fi_le        : s.fi.toNat ≤ s.nfrL.toNat
  nfr_le       : s.nfrL.toNat ≤ 1023
  ic_cursor    : s.phase = .ic → s.fi = 0 ∧ s.wi = 1
  ic_fresh     : s.phase = .ic → s.cnt = 0 ∧ 0 < s.nfrL.toNat
  word_cursor  : s.phase = .word → s.fi.toNat < s.nfrL.toNat ∧ IsDataPosition (inFrame0 s) s.wi
  frame_cursor : s.phase = .frame → s.wi = 0
  frame_fresh  : s.phase = .frame → s.fi = 0 → s.cnt = 0
  ic_has_run   : s.phase = .word ∨ (s.phase = .frame ∧ s.fi ≠ 0) → s.cnt ≠ 0

/-- The part of `State.Inv` about the samples (R43, R102, R121). -/
structure SamplesInv (s : State) : Prop where
  cnt_le          : s.cnt.toNat ≤ s.nexpL.toNat
  cnt_pos         : s.cnt ≠ 0 → 0 < s.nfrL.toNat
  mem_wf          : Memory.wf s.mem
  samples_written : ∀ a, sampleAddr 0 ≤ a → a < sampleAddr s.cnt.toNat → (s.mem.read a).isSome
  first_sample    : s.cnt ≠ 0 → sampleEntry s 0 = s.x0
  last_sample     : s.cnt ≠ 0 → sampleEntry s (s.cnt.toNat - 1) = s.acc

theorem State.inv_iff : s.Inv ↔ FlagsInv s ∧ CursorInv s ∧ SamplesInv s :=
  ⟨fun h => ⟨{ h with }, { h with }, { h with }⟩, fun ⟨hf, hc, hs⟩ => { hf, hc, hs with }⟩

/-! ### The flags -/

/-- No flag is up: DONE and the three ERR bits are clear. -/
def FlagsClear (s : State) : Prop := s.done = false ∧ s.errSize = false ∧ s.errLen = false ∧ s.errInteg = false

theorem FlagsInv.of_clear (h : FlagsClear s) (hd : s.d0p = true → Config.build.d0 = .skip) : FlagsInv s := by
  obtain ⟨hdone, hsize, hlen, hinteg⟩ := h
  exact ⟨hd, by simp [hdone], by simp [hsize], by simp [hinteg], by simp [hlen]⟩

/-- While the engine has body words to run no flag is up (R43, R197). -/
theorem FlagsInv.clear (h : FlagsInv s) (hp : s.phase ≠ .idle) (hf : s.phase ≠ .finish) : FlagsClear s := by
  refine ⟨?_, ?_, ?_, ?_⟩ <;> rw [← Bool.not_eq_true] <;> intro hup
  · exact hp (h.done_idle hup)
  · exact hp (h.size_alone hup).2.2
  · exact (h.len_finish hup).elim hp hf
  · exact hp (h.integ_idle hup)

/-- In FINISH ERR_LEN may be up, the surplus of STRICT (R122). -/
theorem FlagsInv.finish (h : FlagsClear s) (hd : s.d0p = true → Config.build.d0 = .skip) (e : Bool) :
    FlagsInv { s with phase := .finish, errLen := e } := by
  obtain ⟨hdone, hsize, -, hinteg⟩ := h
  exact ⟨hd, by simp [hdone], by simp [hsize], by simp [hinteg], fun _ => .inr rfl⟩

/-! ### The cursor -/

/-- A cursor at rest, in IDLE or FINISH, need only be within the body. -/
theorem CursorInv.of_rest (hp : s.phase = .idle ∨ s.phase = .finish) (hfi : s.fi.toNat ≤ s.nfrL.toNat)
    (hnfr : s.nfrL.toNat ≤ 1023) : CursorInv s := by
  rcases hp with hp | hp
  all_goals exact ⟨hfi, hnfr, by simp [hp], by simp [hp], by simp [hp], by simp [hp], by simp [hp], by simp [hp]⟩

/-- A cursor on the constants of frame 0, before the first sample. -/
theorem CursorInv.of_ic (hp : s.phase = .ic) (hcur : s.fi = 0 ∧ s.wi = 1) (hcnt : s.cnt = 0) (hn : 0 < s.nfrL.toNat)
    (hnfr : s.nfrL.toNat ≤ 1023) : CursorInv s :=
  ⟨by simp [hcur.1], hnfr, fun _ => hcur, fun _ => ⟨hcnt, hn⟩, by simp [hp], by simp [hp], by simp [hp], by simp [hp]⟩

/-- A cursor on a data word of the body, once there is a sample. -/
theorem CursorInv.of_word (hp : s.phase = .word) (hfi : s.fi.toNat < s.nfrL.toNat) (hnfr : s.nfrL.toNat ≤ 1023)
    (hpos : IsDataPosition (inFrame0 s) s.wi) (hcnt : s.cnt ≠ 0) : CursorInv s :=
  ⟨hfi.le, hnfr, by simp [hp], by simp [hp], fun _ => ⟨hfi, hpos⟩, by simp [hp], by simp [hp], fun _ => hcnt⟩

/-- CTRL moves the cursor to the constants of frame 0, or to the first data word of a later frame (R101). -/
theorem CursorInv.latchControlWord (h : CursorInv s) (hp : s.phase = .frame) (hf : s.fi.toNat ≠ s.nfrL.toNat)
    (w : Word) : CursorInv (latchControlWord w s) := by
  have hlt : s.fi.toNat < s.nfrL.toNat := lt_of_le_of_ne h.fi_le hf
  by_cases h0 : s.fi = 0
  · have hphase : (Machine.latchControlWord w s).phase = .ic := by simp [inFrame0, h0]
    exact .of_ic hphase ⟨h0, rfl⟩ (h.frame_fresh hp h0) (Nat.zero_lt_of_lt hlt) h.nfr_le
  · have hframe : inFrame0 s = false := beq_false_of_ne h0
    refine .of_word (by simp [hframe]) hlt h.nfr_le ?_ (h.ic_has_run (.inr ⟨hp, h0⟩))
    show IsDataPosition (inFrame0 s) 1
    rw [hframe]
    decide

/-- FI + 1 does not wrap on a data word of the body (R38, R43). -/
theorem CursorInv.fi_succ (h : CursorInv s) (hp : s.phase = .word) : (s.fi + 1).toNat = s.fi.toNat + 1 := by
  have hlt := (h.word_cursor hp).1
  have hnfr := h.nfr_le
  rw [BitVec.toNat_add]
  exact Nat.mod_eq_of_lt (show s.fi.toNat + 1 < 1024 by omega)

/-- The next frame, after a WORD step (R104, R105). -/
theorem CursorInv.nextFrame (h : CursorInv s) (hp : s.phase = .word) : CursorInv (nextFrame s) := by
  have hfi := h.fi_succ hp
  have hne : s.fi + 1 ≠ 0 := fun h0 => by rw [h0] at hfi; exact absurd hfi (by simp)
  exact {
    fi_le := by rw [nextFrame_fi, hfi]; exact (h.word_cursor hp).1
    nfr_le := h.nfr_le
    ic_cursor := nofun
    ic_fresh := nofun
    word_cursor := nofun
    frame_cursor := fun _ => rfl
    frame_fresh := fun _ h0 => absurd h0 hne
    ic_has_run := fun _ => h.ic_has_run (.inl hp) }

/-- The word after a data word of the same frame is a data word (R85). -/
theorem isDataPosition_next : ∀ {f0 : Bool} {wi : BitVec 4}, IsDataPosition f0 wi → wi ≠ 15 →
    IsDataPosition f0 (wi + 1) := by decide

theorem CursorInv.advanceWord (h : CursorInv s) (hp : s.phase = .word) : CursorInv (advanceWord s) := by
  rcases advanceWord_cases (s := s) with ⟨-, e⟩ | ⟨h15, e⟩ <;> rw [e]
  · exact h.nextFrame hp
  · obtain ⟨hlt, hpos⟩ := h.word_cursor hp
    exact .of_word hp hlt h.nfr_le (isDataPosition_next hpos h15) (h.ic_has_run (.inl hp))

/-! ### The samples -/

theorem SamplesInv.of_empty (hcnt : s.cnt = 0) (hmem : s.mem.wf) : SamplesInv s where
  cnt_le := by simp [hcnt]
  cnt_pos h := absurd hcnt h
  mem_wf := hmem
  samples_written a h1 h2 := by rw [hcnt] at h2; exact absurd h1 (Nat.not_le.2 h2)
  first_sample h := absurd hcnt h
  last_sample h := absurd hcnt h

/-- A wanted sample extends the written entries by one. Entry 0 stays, or is the new one if it is the first; the last
one is the new ACC (R102, R121). -/
theorem SamplesInv.emitSample (h : SamplesInv s) (hc : s.cnt.toNat < s.nexpL.toNat) (hn : 0 < s.nfrL.toNat)
    (hx : s.cnt = 0 → s.x0 = w) : SamplesInv (emitSample w { s with acc := w }) := by
  have hcnt : (s.cnt + 1).toNat = s.cnt.toNat + 1 := integrate_cnt_toNat (d := 0) hc
  have hnew : sampleEntry (Machine.emitSample w { s with acc := w }) s.cnt.toNat = w :=
    readWord_of_write (emitSample_mem ..)
  have hkeep : KeepsSamples { s with acc := w } (Machine.emitSample w { s with acc := w }) := .emit hc w
  refine ⟨?_, fun _ => hn, sampleWrite_wf s.cnt w h.mem_wf, fun a h1 h2 => ?_, fun _ => ?_, fun _ => ?_⟩
  · rw [emitSample_cnt, hcnt]
    exact hc
  · rw [emitSample_mem]
    rw [emitSample_cnt, hcnt] at h2
    rcases Nat.lt_or_ge a (sampleAddr s.cnt.toNat) with hlt | hge
    · rw [read_writeWord_other _ _ (.inl hlt)]
      exact h.samples_written a h1 hlt
    · obtain ⟨j, rfl⟩ := Nat.exists_eq_add_of_le hge
      rw [read_writeWord_same _ _ _ (by simp only [sampleAddr] at h2; omega)]
      rfl
  · by_cases h0 : s.cnt = 0
    · rw [show s.cnt.toNat = 0 by simp [h0]] at hnew
      exact hnew.trans (hx h0).symm
    · have hpos : 0 < s.cnt.toNat := Nat.pos_of_ne_zero fun hz => h0 (BitVec.eq_of_toNat_eq hz)
      exact (hkeep.2 0 hpos).trans (h.first_sample h0)
  · rw [emitSample_cnt, hcnt]
    exact hnew

/-! ### States without a run behind them -/

/-- A state with no sample, no flag up but the two of a rejected START, and the cursor at the start of the body meets the
invariants: after either reset, and after a START, accepted or not (R41, R151, R152). -/
theorem State.Inv.of_fresh (hphase : s.phase = .idle ∨ (s.phase = .frame ∧ FlagsClear s)) (hcnt : s.cnt = 0)
    (hcur : s.fi = 0 ∧ s.wi = 0) (hd0p : s.d0p = false) (hnfr : s.nfrL.toNat ≤ 1023)
    (herr : s.errLen = false ∧ s.errInteg = false) (hmem : s.mem.wf) : s.Inv := by
  obtain ⟨hfi, hwi⟩ := hcur
  have hskip : s.d0p = true → Config.build.d0 = .skip := by simp [hd0p]
  refine State.inv_iff.2 ⟨?_, ?_, .of_empty hcnt hmem⟩
  · rcases hphase with hp | ⟨-, hclear⟩
    · exact ⟨hskip, fun _ => hp, fun _ => ⟨herr.1, herr.2, hp⟩, fun _ => hp, fun _ => .inl hp⟩
    · exact .of_clear hclear hskip
  · rcases hphase with hp | ⟨hp, -⟩
    · exact .of_rest (.inl hp) (by simp [hfi]) hnfr
    · exact ⟨by simp [hfi], hnfr, by simp [hp], by simp [hp], by simp [hp], fun _ => hwi, fun _ _ => hcnt,
        by simp [hp, hfi]⟩

/-- Settles O49: the reset state is fresh. -/
theorem invariantHoldsAtReset : Obligations.InvariantHoldsAtReset :=
  .of_fresh (.inl rfl) rfl ⟨rfl, rfl⟩ rfl (by decide) ⟨rfl, rfl⟩ ⟨.nil, nofun⟩

theorem State.Inv.hardReset (s : State) : (hardReset s).Inv :=
  .of_fresh (.inl rfl) rfl ⟨rfl, rfl⟩ rfl (Nat.zero_le _) ⟨rfl, rfl⟩ ⟨.nil, nofun⟩

theorem State.Inv.softReset (h : s.Inv) : (softReset s).Inv :=
  .of_fresh (.inl rfl) rfl ⟨rfl, rfl⟩ rfl (Nat.zero_le _) ⟨rfl, rfl⟩ h.mem_wf

/-- A body of at most 65535 bytes has at most MAX_FRAMES frames (R5). -/
theorem acceptStart_nfrL_le (s : State) : (acceptStart s).nfrL.toNat ≤ 1023 := by
  have := s.bodyLenCfg.isLt
  simp only [acceptStart, Config.frameBytes, BitVec.toNat_ofNat]
  omega

theorem State.Inv.startRun (h : s.Inv) : (startRun s).Inv := by
  rcases startRun_cases s with ⟨-, e⟩ | ⟨-, -, e⟩ | ⟨-, -, e⟩ <;> rw [e]
  · exact h
  · exact .of_fresh (.inl rfl) rfl ⟨rfl, rfl⟩ rfl (Nat.zero_le _) ⟨rfl, rfl⟩ h.mem_wf
  · exact .of_fresh (.inr ⟨rfl, rfl, rfl, rfl, rfl⟩) rfl ⟨rfl, rfl⟩ rfl (acceptStart_nfrL_le s) ⟨rfl, rfl⟩ h.mem_wf

/-! ### Fields the invariants do not read -/

theorem State.Inv.withUnread (h : s.Inv) (nexpCfg bodyLenCfg doneIe xn cw turns returned draws) :
    State.Inv { s with
      nexpCfg := nexpCfg, bodyLenCfg := bodyLenCfg, doneIe := doneIe, xn := xn, cw := cw, turns := turns
      returned := returned, draws := draws } :=
  { h with }

theorem State.Inv.tick (h : s.Inv) : (tick s).Inv := h.withUnread _ _ _ _ _ _ _ _

theorem State.Inv.withTurns (h : s.Inv) (ts : List Turn) : (withTurns ts s).Inv := h.withUnread _ _ _ _ _ _ _ _

/-! ### The engine's effects -/

theorem State.Inv.flagsClear (h : s.Inv) (hp : s.phase ≠ .idle) (hf : s.phase ≠ .finish) : FlagsClear s :=
  (State.inv_iff.1 h).1.clear hp hf

theorem State.Inv.toFinish (h : s.Inv) (hp : s.phase ≠ .idle) (hf : s.phase ≠ .finish) (e : Bool) :
    State.Inv { s with phase := .finish, errLen := e } :=
  State.inv_iff.2 ⟨.finish (h.flagsClear hp hf) h.d0p_skip e, .of_rest (.inr rfl) h.fi_le h.nfr_le, { h with }⟩

theorem State.Inv.latchControlWord (h : s.Inv) (hp : s.phase = .frame) (hf : s.fi.toNat ≠ s.nfrL.toNat) (w : Word) :
    (latchControlWord w s).Inv := by
  obtain ⟨-, hcur, -⟩ := State.inv_iff.1 h
  exact State.inv_iff.2 ⟨.of_clear (h.flagsClear (by simp [hp]) (by simp [hp])) h.d0p_skip,
    hcur.latchControlWord hp hf w, { h with }⟩

theorem State.Inv.nextFrame (h : s.Inv) (hp : s.phase = .word) : (nextFrame s).Inv := by
  obtain ⟨-, hcur, -⟩ := State.inv_iff.1 h
  exact State.inv_iff.2 ⟨.of_clear (h.flagsClear (by simp [hp]) (by simp [hp])) h.d0p_skip,
    hcur.nextFrame hp, { h with }⟩

theorem State.Inv.advanceWord (h : s.Inv) (hp : s.phase = .word) : (advanceWord s).Inv := by
  obtain ⟨-, hcur, -⟩ := State.inv_iff.1 h
  have hcur := hcur.advanceWord hp
  have hclear := h.flagsClear (by simp [hp]) (by simp [hp])
  rcases advanceWord_cases (s := s) with ⟨-, e⟩ | ⟨-, e⟩ <;> rw [e] at hcur ⊢
  all_goals exact State.inv_iff.2 ⟨.of_clear hclear h.d0p_skip, hcur, { h with }⟩

/-- ICX0 makes sample 0, or is surplus (R102). -/
theorem State.Inv.loadX0 (h : s.Inv) (hp : s.phase = .ic) (w : Word) : (loadX0 Config.build w s).Inv := by
  obtain ⟨hcnt, hn⟩ := h.ic_fresh hp
  obtain ⟨hfi, -⟩ := h.ic_cursor hp
  have hclear := h.flagsClear (by simp [hp]) (by simp [hp])
  have hempty : SamplesInv (setX0 Config.build w s) := .of_empty hcnt h.mem_wf
  have hskip : (setX0 Config.build w s).d0p = true → Config.build.d0 = .skip := by simp
  unfold Machine.loadX0
  split
  · rename_i hw
    have hc := wantsSample_iff.1 hw
    have hsamples := hempty.emitSample (w := w) hc hn fun _ => rfl
    refine State.inv_iff.2 ⟨.of_clear hclear hskip, .of_word rfl ?_ h.nfr_le ?_ ?_, { hsamples with }⟩
    · simpa [hfi] using hn
    · show IsDataPosition (s.fi == 0) 3
      rw [hfi]
      decide
    · show s.cnt + 1 ≠ 0
      rw [hcnt]
      decide
  · exact State.inv_iff.2 ⟨.finish (s := setX0 Config.build w s) hclear hskip _,
      .of_rest (.inr rfl) h.fi_le h.nfr_le, { hempty with }⟩

theorem State.Inv.integrate (h : s.Inv) (hp : s.phase = .word) (hc : s.cnt.toNat < s.nexpL.toNat) (d : Word) :
    (integrate d s).Inv := by
  obtain ⟨hflags, hcur, hsamples⟩ := State.inv_iff.1 h
  obtain ⟨hlt, hpos⟩ := h.word_cursor hp
  have hne := h.ic_has_run (.inl hp)
  have hcnt : (s.cnt + 1).toNat = s.cnt.toNat + 1 := integrate_cnt_toNat (d := d) hc
  refine State.inv_iff.2 ⟨{ hflags with }, .of_word hp hlt h.nfr_le hpos fun h0 => ?_,
    hsamples.emitSample hc (Nat.zero_lt_of_lt hlt) fun h0 => absurd h0 hne⟩
  rw [← integrate_cnt (d := d), h0] at hcnt
  exact absurd hcnt (by simp)

theorem State.Inv.processLanes (h : s.Inv) (hp : s.phase = .word) (b : Config.Build) (ds : List Word) :
    (processLanes b ds s).Inv := by
  obtain ⟨u, ⟨hu, hup⟩, e | e⟩ := processLanes_ends (b := b) (fun u => u.Inv ∧ u.phase = .word)
    (fun _ ⟨h, hp⟩ _ => ⟨{ h with d0p_skip := nofun }, hp⟩) (fun _ d ⟨h, hp⟩ _ hc => ⟨h.integrate hp hc d, hp⟩)
    ds s ⟨h, hp⟩ <;> rw [e]
  · exact hu.advanceWord hup
  · exact hu.toFinish (by simp [hup]) (by simp [hup]) _

/-- FINISH ends the run with the results of its checks (R140 to R143). -/
theorem State.Inv.finishRun (h : s.Inv) (hp : s.phase = .finish) : (finishRun s).Inv := by
  refine State.inv_iff.2 ⟨⟨h.d0p_skip, fun _ => rfl, fun hsize => ?_, fun _ => rfl, fun _ => .inl rfl⟩,
    .of_rest (.inl rfl) h.fi_le h.nfr_le, { h with }⟩
  exact absurd (h.size_alone hsize).2.2 (by simp [hp])

theorem State.Inv.engineStep (h : s.Inv) (he : engineStep s = .next t) : t.Inv := by
  cases hp : s.phase with
  | idle => rw [engineStep_idle hp] at he; cases he; exact h
  | frame =>
    by_cases hf : s.fi.toNat = s.nfrL.toNat
    · rw [engineStep_end hp hf] at he
      cases he
      exact h.tick.toFinish (by simp [hp]) (by simp [hp]) s.errLen
    · rw [engineStep_frame hp hf] at he
      cases he
      exact h.tick.latchControlWord hp hf _
  | ic =>
    rw [engineStep_ic hp] at he
    cases he
    exact (h.tick.loadX0 hp _).withUnread _ _ _ _ _ _ _ _
  | word =>
    rw [engineStep_data hp (h.word_cursor hp).2] at he
    cases he
    split
    · exact h.tick.nextFrame hp
    · exact h.tick.processLanes hp _ _
  | finish => rw [engineStep_finish hp] at he; cases he; exact h.tick.finishRun hp

/-! ### The host's effects -/

/-- A body write in IDLE leaves the sample entries alone (R50, R53). -/
theorem State.Inv.writeBody {width : Width} {ad : Addr} (h : s.Inv) (hr : regionOf ad = .body)
    (hsh : refusedShape width ad = false) (v : Word) : (writeBody width ad v s).Inv := by
  obtain ⟨hlo, hhi⟩ := regionOf_body_iff.1 hr
  have samples : ∀ a, sampleAddr 0 ≤ a → (Machine.writeBody width ad v s).mem.read a = s.mem.read a := fun a ha => by
    have ha : 0x40000 ≤ a := ha
    simp only [Machine.writeBody]
    split
    · exact read_write_other _ _ (by omega)
    · exact read_writeWord_other _ _ (by omega)
  have entry : ∀ k, sampleEntry (Machine.writeBody width ad v s) k = sampleEntry s k := fun k =>
    sampleEntry_congr (s := s) (t := Machine.writeBody width ad v s) rfl fun a ha _ => samples a (le_trans (by simp [sampleAddr]) ha)
  have wf : (Machine.writeBody width ad v s).mem.wf := by
    simp only [Machine.writeBody]
    rcases access_shape hsh with rfl | ⟨rfl, hal⟩
    · exact write_wf _ h.mem_wf (.inl ⟨hlo, hhi⟩)
    · exact writeWord_wf v h.mem_wf fun j hj => .inl ⟨by omega, by omega⟩
  exact { h with
    mem_wf := wf
    samples_written := fun a h1 h2 => by rw [samples a h1]; exact h.samples_written a h1 h2
    first_sample := fun hc => (entry 0).trans (h.first_sample hc)
    last_sample := fun hc => (entry _).trans (h.last_sample hc) }

theorem State.Inv.writeStatus (h : s.Inv) (v : Word) : (writeStatus v s).Inv :=
  { h with done_idle := fun hd => h.done_idle (Bool.and_eq_true_iff.1 hd).1 }

theorem State.Inv.hostAccess {a : Access} (h : s.Inv) (ha : hostAccess a s = .next t) : t.Inv := by
  rcases hostAccess_cases ha with ⟨_, _, -, rfl⟩ | ⟨v, -, hv⟩ | ⟨_, _, v, -, rfl | ⟨-, -, rfl⟩ | ⟨-, -, rfl⟩ |
    ⟨-, -, rfl⟩ | ⟨-, -, rfl⟩ | ⟨-, hr, hsh, rfl⟩⟩
  case inr.inl =>
    rcases exec_ctrlWrite_cases hv with ⟨-, rfl⟩ | ⟨-, -, rfl⟩ | rfl
    · exact h.softReset
    · exact h.startRun
    · exact h
  · exact h.withUnread _ _ _ _ _ _ _ _
  · exact h
  · exact h.writeStatus v
  · exact h.withUnread _ _ _ _ _ _ _ _
  · exact h.withUnread _ _ _ _ _ _ _ _
  · exact h.withUnread _ _ _ _ _ _ _ _
  · exact h.writeBody hr hsh v

/-- Settles O50, by the turn the step takes. -/
theorem invariantKeptByEveryStep : Obligations.InvariantKeptByEveryStep := by
  intro s t h hst
  rcases step_cases hst with ⟨-, he⟩ | ⟨a, ts, -, ha⟩ | ⟨ts, -, rfl⟩
  · exact (h.withTurns _).engineStep he
  · exact (h.withTurns ts).hostAccess ha
  · exact .hardReset _

/-! ### The cursor does not move back -/

/-- The cursor of `t` is that of `s` or stands behind it in the body (R38, R107). -/
def CursorLe (s t : State) : Prop := s.fi.toNat < t.fi.toNat ∨ (s.fi = t.fi ∧ s.wi.toNat ≤ t.wi.toNat)

theorem CursorLe.of_eq (hfi : s.fi = t.fi) (hwi : s.wi = t.wi) : CursorLe s t := .inr ⟨hfi, by rw [hwi]⟩

theorem CursorLe.nextFrame (hfi : (s.fi + 1).toNat = s.fi.toNat + 1) : CursorLe s (nextFrame s) := by
  left
  rw [nextFrame_fi, hfi]
  exact Nat.lt_succ_self _

theorem CursorLe.advanceWord (hfi : (s.fi + 1).toNat = s.fi.toNat + 1) : CursorLe s (advanceWord s) := by
  rcases advanceWord_cases (s := s) with ⟨-, e⟩ | ⟨h15, e⟩ <;> rw [e]
  · exact .nextFrame hfi
  · have hne : s.wi.toNat ≠ 15 := fun h => h15 (BitVec.eq_of_toNat_eq h)
    have hwi : (s.wi + 1).toNat = s.wi.toNat + 1 := by
      rw [BitVec.toNat_add]
      exact Nat.mod_eq_of_lt (show s.wi.toNat + 1 < 16 by omega)
    exact .inr ⟨rfl, by rw [hwi]; exact Nat.le_succ _⟩

/-- The lanes of a word leave the cursor where it is until the word ends. -/
theorem CursorLe.processLanes (hfi : (s.fi + 1).toNat = s.fi.toNat + 1) (b : Config.Build) (ds : List Word) :
    CursorLe s (processLanes b ds s) := by
  obtain ⟨u, hu, e⟩ := processLanes_lanesDone b ds s
  have hufi : u.fi = s.fi := by rw [hu.frame]
  have huwi : u.wi = s.wi := by rw [hu.frame]
  have hadv : CursorLe u (Machine.advanceWord u) := .advanceWord (by rw [hufi]; exact hfi)
  rcases e with e | e <;> rw [e]
  · unfold CursorLe at hadv ⊢
    rwa [← hufi, ← huwi]
  · exact .of_eq hufi.symm huwi.symm

/-- Settles O54, by PHASE: only a WORD step changes FI, and there FI + 1 does not wrap. -/
theorem cursorNeverMovesBack : Obligations.CursorNeverMovesBack := by
  intro s t h he
  show CursorLe s t
  obtain ⟨-, hcur, -⟩ := State.inv_iff.1 h
  cases hp : s.phase with
  | idle => rw [engineStep_idle hp] at he; cases he; exact .of_eq rfl rfl
  | frame =>
    by_cases hf : s.fi.toNat = s.nfrL.toNat
    · rw [engineStep_end hp hf] at he; cases he; exact .of_eq rfl rfl
    · rw [engineStep_frame hp hf] at he
      cases he
      exact .inr ⟨rfl, by simp [h.frame_cursor hp]⟩
  | ic =>
    rw [engineStep_ic hp] at he
    cases he
    obtain ⟨-, hwi⟩ := h.ic_cursor hp
    unfold loadX0
    split
    · exact .inr ⟨rfl, by rw [hwi]; exact (by decide : (1 : Nat) ≤ 3)⟩
    · exact .of_eq rfl rfl
  | word =>
    rw [engineStep_data hp (h.word_cursor hp).2] at he
    cases he
    split
    · exact CursorLe.nextFrame (s := tick s) (hcur.fi_succ hp)
    · exact CursorLe.processLanes (s := tick s) (hcur.fi_succ hp) _ _
  | finish => rw [engineStep_finish hp] at he; cases he; exact .of_eq rfl rfl

end Sys2Proof.Machine
end

section
/-! SUPPORT. What one step does to the STATUS flags (R26, R40, R42), by the rule that applies. -/

namespace Sys2Proof.Machine

variable {s t u : State} {w : Word} {ds : List Word}

/-! ### Steps that set no flag but ERR_LEN -/

/-- A run goes on from `s` to `t`: BUSY stays, and no flag changes but ERR_LEN, which only STRICT sets (R122). -/
structure GoesOn (s t : State) : Prop where
  busy    : t.phase ≠ .idle
  done    : t.done = s.done
  errSize : t.errSize = s.errSize
  errInteg : t.errInteg = s.errInteg
  errLen  : t.errLen = s.errLen ∨ (t.errLen = true ∧ Config.build.surplus = .strict)

theorem GoesOn.nextFrame (s : State) : GoesOn s (nextFrame s) := ⟨nofun, rfl, rfl, rfl, .inl rfl⟩

theorem GoesOn.latchControlWord (s : State) (w : Word) : GoesOn s (latchControlWord w s) :=
  ⟨by rw [latchControlWord_phase]; split <;> nofun, rfl, rfl, rfl, .inl rfl⟩

theorem GoesOn.surplus (s : State) : GoesOn s (surplus Config.build s) := by
  refine ⟨nofun, rfl, rfl, rfl, ?_⟩
  rw [surplus_errLen]
  by_cases h : Config.build.surplus = .strict
  · exact .inr ⟨by simp [h], h⟩
  · exact .inl (by simp [h])

theorem GoesOn.advanceWord (hp : s.phase ≠ .idle) : GoesOn s (advanceWord s) := by
  rcases advanceWord_cases (s := s) with ⟨-, e⟩ | ⟨-, e⟩ <;> rw [e]
  · exact .nextFrame s
  · exact ⟨hp, rfl, rfl, rfl, .inl rfl⟩

theorem GoesOn.loadX0 (s : State) (w : Word) : GoesOn s (loadX0 Config.build w s) := by
  unfold Machine.loadX0
  split
  · exact ⟨nofun, rfl, rfl, rfl, .inl rfl⟩
  · have h := GoesOn.surplus (setX0 Config.build w s)
    exact ⟨h.busy, h.done, h.errSize, h.errInteg, h.errLen⟩

theorem GoesOn.processLanes (hp : s.phase ≠ .idle) (ds : List Word) :
    GoesOn s (processLanes Config.build ds s) := by
  obtain ⟨u, hu, e⟩ := processLanes_lanesDone Config.build ds s
  have hup : u.phase ≠ .idle := by rw [hu.frame]; exact hp
  have h : GoesOn u (Machine.processLanes Config.build ds s) := by
    rcases e with e | e <;> rw [e]
    · exact .advanceWord hup
    · exact .surplus u
  have hdone : u.done = s.done := by rw [hu.frame]
  have hsize : u.errSize = s.errSize := by rw [hu.frame]
  have hinteg : u.errInteg = s.errInteg := by rw [hu.frame]
  have hlen : u.errLen = s.errLen := by rw [hu.frame]
  exact ⟨h.busy, hdone ▸ h.done, hsize ▸ h.errSize, hinteg ▸ h.errInteg, hlen ▸ h.errLen⟩

theorem GoesOn.bodyWord {key : Key} (hp : s.phase ≠ .idle) (h : exec (decodeBodyWord key w) s = .next t) :
    GoesOn s t := by
  rcases exec_bodyWord_cases h with rfl | rfl | rfl | rfl | ⟨ds, rfl⟩
  · exact .latchControlWord s w
  · exact .loadX0 s w
  · exact ⟨hp, rfl, rfl, rfl, .inl rfl⟩
  · exact .nextFrame s
  · exact .processLanes hp ds

/-! ### The causes of a change of the flags -/

/-- The five STATUS flags of `t` are those of `s`, BUSY among them. -/
structure SameFlags (s t : State) : Prop where
  phase    : t.phase = s.phase
  done     : t.done = s.done
  errSize  : t.errSize = s.errSize
  errInteg : t.errInteg = s.errInteg
  errLen   : t.errLen = s.errLen

/-- FINISH: the run ends, DONE is set, and ERR_INTEG and ERR_LEN may be (R140 to R143). -/
structure FinishFlags (s t : State) : Prop where
  phase    : t.phase = .idle
  done     : t.done = true
  errSize  : t.errSize = s.errSize
  errInteg : s.errInteg = true → t.errInteg = true
  errLen   : s.errLen = true → t.errLen = true

/-- What an engine step does to the flags, by PHASE. Of the three that go on, FRAME leaves ERR_LEN too. -/
theorem engineStep_flags (h : engineStep s = .next t) :
    SameFlags s t ∨ (s.phase = .finish ∧ FinishFlags s t) ∨
      (s.phase ≠ .idle ∧ GoesOn s t ∧ (t.errLen = s.errLen ∨ s.phase = .ic ∨ s.phase = .word)) := by
  cases hp : s.phase with
  | idle =>
    rw [engineStep_idle hp] at h
    cases h
    exact .inl ⟨rfl, rfl, rfl, rfl, rfl⟩
  | frame =>
    right; right
    by_cases hf : s.fi.toNat = s.nfrL.toNat
    · rw [engineStep_end hp hf] at h
      cases h
      exact ⟨nofun, ⟨nofun, rfl, rfl, rfl, .inl rfl⟩, .inl rfl⟩
    · rw [engineStep_frame hp hf] at h
      cases h
      have hg := GoesOn.latchControlWord (tick s) (bodyWord s s.fi.toNat 0)
      exact ⟨nofun, ⟨hg.busy, rfl, rfl, rfl, .inl rfl⟩, .inl rfl⟩
  | ic =>
    rw [engineStep_ic hp] at h
    cases h
    have hg := GoesOn.loadX0 (tick s) (bodyWord s 0 1)
    exact .inr (.inr ⟨nofun, ⟨hg.busy, hg.done, hg.errSize, hg.errInteg, hg.errLen⟩, .inr (.inl rfl)⟩)
  | word =>
    rw [engineStep_word hp] at h
    have hg := GoesOn.bodyWord (s := tick s) (by simp [hp]) h
    exact .inr (.inr ⟨nofun, ⟨hg.busy, hg.done, hg.errSize, hg.errInteg, hg.errLen⟩, .inr (.inr rfl)⟩)
  | finish =>
    rw [engineStep_finish hp] at h
    cases h
    exact .inr (.inl ⟨rfl, rfl, rfl, rfl, fun hi => by simp [finishRun, complete, hi],
      fun hl => by simp [finishRun, complete, hl]⟩)

/-- What a host access does to the flags: nothing, a STATUS write that may clear DONE, or a command (R91, R156). A START
while busy is nothing (R153). -/
theorem hostAccess_flags {a : Access} (h : hostAccess a s = .next t) :
    SameFlags s t ∨ (∃ v : Word, a = .write .b32 0x0C v ∧ t = writeStatus v s) ∨
    (∃ v : Word, v.getLsbD 1 = true ∧ a = .write .b32 0 v ∧ t = softReset s) ∨
    (s.phase = .idle ∧ (∃ v : Word, v.getLsbD 1 = false ∧ v.getLsbD 0 = true ∧ a = .write .b32 0 v) ∧
      ((s.bodyLenCfg.toNat % 64 ≠ 0 ∧ t = rejectStart s) ∨ (s.bodyLenCfg.toNat % 64 = 0 ∧ t = acceptStart s))) := by
  rcases hostAccess_cases h with ⟨_, _, -, rfl⟩ | ⟨v, rfl, hv⟩ | ⟨_, _, v, rfl, rfl | ⟨rfl, rfl, rfl⟩ | ⟨-, -, rfl⟩ |
    ⟨-, -, rfl⟩ | ⟨-, -, rfl⟩ | ⟨-, -, -, rfl⟩⟩
  case inr.inl =>
    rcases exec_ctrlWrite_cases hv with ⟨h1, rfl⟩ | ⟨h1, h0, rfl⟩ | rfl
    · exact .inr (.inr (.inl ⟨v, h1, rfl, rfl⟩))
    · rcases startRun_cases s with ⟨-, e⟩ | ⟨hp, hl, e⟩ | ⟨hp, hl, e⟩ <;> rw [e]
      · exact .inl ⟨rfl, rfl, rfl, rfl, rfl⟩
      · exact .inr (.inr (.inr ⟨hp, ⟨v, h1, h0, rfl⟩, .inl ⟨hl, rfl⟩⟩))
      · exact .inr (.inr (.inr ⟨hp, ⟨v, h1, h0, rfl⟩, .inr ⟨hl, rfl⟩⟩))
    · exact .inl ⟨rfl, rfl, rfl, rfl, rfl⟩
  case inr.inr.inr.inl => exact .inr (.inl ⟨v, rfl, rfl⟩)
  all_goals exact .inl ⟨rfl, rfl, rfl, rfl, rfl⟩

/-- Settles O55, by the turn and then by what the turn does to the flags: each rule of R26 names the case it allows. -/
theorem flagsAreSetOnlyByTheirRules : Obligations.FlagsAreSetOnlyByTheirRules := by
  intro s t h engineTurn finish start badStart goodStart anyReset statusWrite
  rcases step_cases h with ⟨hturn, he⟩ | ⟨a, ts, hts, ha⟩ | ⟨ts, hts, rfl⟩
  · have hturn : engineTurn := hturn
    rcases engineStep_flags he with ⟨hp, hd, hs, hi, hl⟩ | ⟨hp, hfin⟩ | ⟨hp, hgo, hlen⟩
    · simp +contextual [hp, hd, hs, hi, hl]
    · have hfinish : finish := ⟨hturn, hp⟩
      obtain ⟨-, hd, hs, hi, hl⟩ := hfin
      have hp : s.phase = .finish := hp
      simp +contextual [hfinish, hp, hd, hs, hi, hl]
    · obtain ⟨hp', hd, hs, hi, hl⟩ := hgo
      have hp : s.phase ≠ .idle := hp
      have hset : s.errLen = false → t.errLen = true →
          (s.phase = .ic ∨ s.phase = .word) ∧ Config.build.surplus = .strict := fun h0 h1 => by
        have hne : t.errLen ≠ s.errLen := by rw [h0, h1]; nofun
        exact ⟨hlen.resolve_left hne, (hl.resolve_left hne).2⟩
      have hkept : s.errLen = true → t.errLen = true := fun h1 => hl.elim (fun e => e.trans h1) And.left
      refine ⟨?_, ?_, ?_, ?_, ?_, ?_, ?_, ?_, fun h0 h1 => .inr ⟨hturn, hset h0 h1⟩,
        fun h1 h0 => absurd (hkept h1) (by simp [h0])⟩
      all_goals simp +contextual [hp, hp', hd, hs, hi]
  · have hhead : s.turns.head? = some (.host a) := by rw [hts]; rfl
    rcases hostAccess_flags ha with
      ⟨hp, hd, hs, hi, hl⟩ | ⟨v, rfl, rfl⟩ | ⟨v, h1, rfl, rfl⟩ | ⟨hp, ⟨v, h1, h0, rfl⟩, ⟨hlen, rfl⟩ | ⟨hlen, rfl⟩⟩
    · simp +contextual [hp, hd, hs, hi, hl]
    · have hstatus : v.getLsbD 1 = true → statusWrite := fun h1 => ⟨v, h1, hhead⟩
      simp +contextual [writeStatus]
      exact fun _ h1 => .inl (hstatus h1)
    · have hreset : anyReset := .inr ⟨v, h1, hhead⟩
      simp [hreset]
    · have hstart : start := ⟨hp, v, h1, h0, hhead⟩
      have hbad : badStart := ⟨hstart, hlen⟩
      have hp : s.phase = .idle := hp
      simp [hstart, hbad, rejectStart, hp]
    · have hstart : start := ⟨hp, v, h1, h0, hhead⟩
      have hgood : goodStart := ⟨hstart, hlen⟩
      simp [hstart, hgood, acceptStart]
  · have hreset : anyReset := .inl (by rw [hts]; rfl)
    simp [hreset]

end Sys2Proof.Machine
end

section
/-! SUPPORT. What a host access answers, by its shape and its region (R51 to R59), and the obligations about the host's
view of the memories. -/

namespace Sys2Proof.Machine

variable {s t : State} {w : Width} {a : Addr} {v : Word}

/-! ### Which accesses are refused -/

/-- The registers and the sample memory take aligned 32-bit accesses alone (R52, R58). -/
theorem refusedShape_iff_of_wordRegion (h : regionOf a = .registers ∨ regionOf a = .samples) :
    refusedShape w a = true ↔ ¬(w = .b32 ∧ a.toNat % 4 = 0) := by
  cases w with
  | b8 => rcases h with h | h <;> simp [refusedShape, h]
  | b16 => simp [refusedShape]
  | b32 => simp [refusedShape]

/-- The body and the unmapped addresses take 8-bit accesses too (R51, R53, R58). -/
theorem refusedShape_iff_of_byteRegion (h : regionOf a = .body ∨ regionOf a = .unmapped) :
    refusedShape w a = true ↔ w = .b16 ∨ (w = .b32 ∧ a.toNat % 4 ≠ 0) := by
  cases w with
  | b8 => rcases h with h | h <;> simp [refusedShape, h]
  | b16 => simp [refusedShape]
  | b32 => simp [refusedShape]

theorem refusedShape_b8 (h : regionOf a = .body ∨ regionOf a = .unmapped) : refusedShape .b8 a = false := by
  rw [← Bool.not_eq_true, refusedShape_iff_of_byteRegion h]
  simp

/-- An aligned 32-bit access is refused nowhere. -/
theorem refusedShape_aligned (h : a.toNat % 4 = 0) : refusedShape .b32 a = false := by
  simp [refusedShape, h]

/-- Settles O38: two regions take words alone, the body and the unmapped addresses bytes too. -/
theorem refusalTable : Obligations.RefusalTable := fun _ _ =>
  ⟨fun h => refusedShape_iff_of_wordRegion (.inl h), fun h => refusedShape_iff_of_byteRegion (.inl h),
    fun h => refusedShape_iff_of_wordRegion (.inr h), fun h => refusedShape_iff_of_byteRegion (.inr h)⟩

/-! ### What an access answers -/

theorem hostAccess_refused {x : Access} (h : x.isRefused = true) (s : State) :
    hostAccess x s = .refused (.refusedAccess x) := if_pos h

theorem hostAccess_read (h : refusedShape w a = false) (s : State) :
    hostAccess (.read w a) s = .next (deliver (hostRead Config.build w a s) s) := by
  simp [hostAccess, Access.isRefused, h]

theorem hostAccess_write (h : refusedShape w a = false) (v : Word) (s : State) :
    hostAccess (.write w a v) s = hostWrite w a v s := by
  simp [hostAccess, Access.isRefused, h]

theorem hostRead_unmapped (h : regionOf a = .unmapped) (b : Config.Build) (w : Width) (s : State) :
    hostRead b w a s = 0 := by
  simp [hostRead, h]

theorem hostWrite_unmapped (h : regionOf a = .unmapped) (w : Width) (v : Word) (s : State) :
    hostWrite w a v s = .next s := by
  simp [hostWrite, h]

theorem hostRead_body (h : regionOf a = .body) (b : Config.Build) (w : Width) (s : State) :
    hostRead b w a s = if w = .b8 then zext32 (readByte s a.toNat) else readWord s a.toNat := by
  simp [hostRead, h]

theorem hostWrite_body_idle (h : regionOf a = .body) (hp : s.phase = .idle) (w : Width) (v : Word) :
    hostWrite w a v s = .next (writeBody w a v s) := by
  simp [hostWrite, h, busy, hp]

theorem hostRead_samples (h : regionOf a = .samples) (b : Config.Build) (w : Width) (s : State) :
    hostRead b w a s = hostSample s (sampleIndex a) := by
  simp [hostRead, h]

theorem hostWrite_samples (h : regionOf a = .samples) (w : Width) (v : Word) (s : State) :
    hostWrite w a v s = .next s := by
  simp [hostWrite, h]

/-- Settles O40: the shapes that are taken read 0 or are ignored, the others are refused. -/
theorem unmappedAccesses : Obligations.UnmappedAccesses := by
  intro s w a v hr
  have hshape := refusedShape_iff_of_byteRegion (w := w) (.inr hr)
  refine ⟨fun hw => ?_, fun hw => ?_⟩
  · have hok : refusedShape w a = false := by
      rw [← Bool.not_eq_true, hshape]
      rcases hw with rfl | ⟨rfl, hal⟩
      · simp
      · simp [hal]
    rw [hostAccess_read hok, hostAccess_write hok, hostRead_unmapped hr, hostWrite_unmapped hr]
    exact ⟨rfl, rfl⟩
  · have href : refusedShape w a = true := hshape.2 hw
    exact ⟨hostAccess_refused (x := .read w a) href s, hostAccess_refused (x := .write w a v) href s⟩

/-! ### The body -/

/-- A listed byte has its listed value, not a free one. -/
theorem readByte_of_read_eq_some {x : Byte} {c : Nat} (h : s.mem.read c = some x) : readByte s c = x := by
  simp [readByte, h]

theorem readByte_congr {c : Nat} (hr : t.resets = s.resets) (h : t.mem.read c = s.mem.read c) :
    readByte t c = readByte s c := by
  rw [readByte, readByte, h, hr]

/-- A body write changes no byte outside its own one or four (R53). -/
theorem read_writeBody_other {c : Nat} (h : c < a.toNat ∨ a.toNat + (if w = .b8 then 1 else 4) ≤ c) :
    (writeBody w a v s).mem.read c = s.mem.read c := by
  simp only [writeBody]
  split_ifs at h ⊢
  · exact read_write_other _ _ (by omega)
  · exact read_writeWord_other _ _ h

/-- Settles O41: the write is `writeBody`, whose bytes are those of the memories' write. -/
theorem bodyWritesAreBigEndian : Obligations.BodyWritesAreBigEndian := by
  intro s a v hr hp
  refine ⟨⟨writeBody .b8 a v s, ?_, rfl, ?_, fun c hc => readByte_congr rfl (read_writeBody_other ?_)⟩,
    fun hal => ⟨writeBody .b32 a v s, ?_, rfl, ?_⟩⟩
  · rw [hostAccess_write (refusedShape_b8 (.inl hr)), hostWrite_body_idle hr hp]
  · exact (readByte_of_read_eq_some (read_write_same _ _ _)).trans (by simp [BitVec.setWidth_eq_extractLsb'])
  · rw [if_pos rfl]
    omega
  · rw [hostAccess_write (refusedShape_aligned hal), hostWrite_body_idle hr hp]
  · have byte : ∀ j < 4, readByte (writeBody .b32 a v s) (a.toNat + j) = byteOfWord v j := fun j hj =>
      readByte_of_read_eq_some (read_writeWord_same s.mem a.toNat v hj)
    exact ⟨byte 0 (by decide), byte 1 (by decide), byte 2 (by decide), byte 3 (by decide),
      fun c hc => readByte_congr rfl (read_writeBody_other hc)⟩

/-- Settles O42: a read is never dropped, and what it returns is what the body holds. -/
theorem bodyReadsAreBigEndian : Obligations.BodyReadsAreBigEndian := by
  intro s a hr
  refine ⟨?_, fun hal => ?_⟩
  · rw [hostAccess_read (refusedShape_b8 (.inl hr)), hostRead_body hr, if_pos rfl]
    rfl
  · rw [hostAccess_read (refusedShape_aligned hal), hostRead_body hr, if_neg nofun]
    rfl

/-! ### The samples -/

/-- The host address of a sample entry, as the bus has it (R50). -/
def sampleHostAddr (k : Nat) : Addr := BitVec.ofNat 20 (0x40000 + 4 * k)

theorem sampleHostAddr_toNat {k : Nat} (hk : k < 65536) : (sampleHostAddr k).toNat = sampleAddr k := by
  simp only [sampleHostAddr, sampleAddr, Config.sampleBase, BitVec.toNat_ofNat]
  omega

theorem regionOf_sampleHostAddr {k : Nat} (hk : k < 65536) : regionOf (sampleHostAddr k) = .samples := by
  rw [regionOf_samples_iff, sampleHostAddr_toNat hk]
  simp only [sampleAddr, Config.sampleBase]
  omega

theorem sampleHostAddr_aligned {k : Nat} (hk : k < 65536) : (sampleHostAddr k).toNat % 4 = 0 := by
  rw [sampleHostAddr_toNat hk]
  simp only [sampleAddr, Config.sampleBase]
  omega

theorem sampleIndex_sampleHostAddr {k : Nat} (hk : k < 65536) : sampleIndex (sampleHostAddr k) = k := by
  rw [sampleIndex, sampleHostAddr_toNat hk]
  simp only [sampleAddr, Config.sampleBase]
  omega

/-- The bus takes a read at the address of entry `k` to that entry (R50, R57). -/
theorem hostAccess_readSample {k : Nat} (hk : k < 65536) (s : State) :
    hostAccess (.read .b32 (sampleHostAddr k)) s = .next (deliver (hostSample s k) s) := by
  rw [hostAccess_read (refusedShape_aligned (sampleHostAddr_aligned hk)),
    hostRead_samples (regionOf_sampleHostAddr hk), sampleIndex_sampleHostAddr hk]

theorem hostAccess_writeSample {k : Nat} (hk : k < 65536) (v : Word) (s : State) :
    hostAccess (.write .b32 (sampleHostAddr k) v) s = .next s := by
  rw [hostAccess_write (refusedShape_aligned (sampleHostAddr_aligned hk)),
    hostWrite_samples (regionOf_sampleHostAddr hk)]

/-- Settles O44, by the side of CNT on which the entry lies. -/
theorem sampleAccesses : Obligations.SampleAccesses := by
  intro s k v hk
  refine ⟨hostAccess_writeSample hk v s, fun hlt => ?_, fun hge => ?_⟩
  · have hval : hostSample s k = sampleEntry s k := if_pos hlt
    exact hval ▸ hostAccess_readSample hk s
  · have hval : hostSample s k = Config.staleSample s.draws k := if_neg (by omega)
    exact hval ▸ hostAccess_readSample hk s

/-! ### Reads repeat -/

theorem readRegister_deliver (b : Config.Build) (r : Register) (v : Word) (s : State) :
    readRegister b r (deliver v s) = readRegister b r s := by
  cases r <;> rfl

/-- No host read depends on what earlier reads have returned (R59). -/
theorem hostRead_deliver (b : Config.Build) (w : Width) (a : Addr) (v : Word) (s : State) :
    hostRead b w a (deliver v s) = hostRead b w a s := by
  cases hr : regionOf a with
  | registers => simp [hostRead, hr, readRegister_deliver]
  | body => rw [hostRead_body hr, hostRead_body hr]; rfl
  | samples => rw [hostRead_samples hr, hostRead_samples hr]; rfl
  | unmapped => rw [hostRead_unmapped hr, hostRead_unmapped hr]

/-- Settles O45: the first read only delivers its value, which the second one does not see. -/
theorem hostReadsRepeat : Obligations.HostReadsRepeat := by
  intro s t w a h
  have hok : refusedShape w a = false := by
    by_contra href
    rw [hostAccess_refused (by simpa [Access.isRefused] using href)] at h
    cases h
  rw [hostAccess_read hok] at h
  cases h
  exact ⟨_, rfl, by rw [hostAccess_read hok, hostRead_deliver]; rfl⟩

end Sys2Proof.Machine
end

section
/-! SUPPORT. What a step does to the memory: the engine writes sample entries, the host writes the body while idle, and
nothing else writes (R53, R54, R56, R64). -/

namespace Sys2Proof.Machine

variable {s t : State} {m n : Memory}

/-! ### The engine's writes -/

/-- `n` is `m` after some sample writes (R56). -/
inductive SampleWrites (m : Memory) : Memory → Prop where
  | none : SampleWrites m m
  | write {n : Memory} (h : SampleWrites m n) (k : BitVec 16) (v : Word) :
      SampleWrites m (n.writeWord (sampleAddr k.toNat) v)

/-- Sample writes keep the canonical form. -/
theorem SampleWrites.wf (h : SampleWrites m n) (hm : m.wf) : n.wf := by
  induction h with
  | none => exact hm
  | write _ k v ih => exact writeWord_wf v ih fun _ hj => sampleAddr_mapped k hj

/-- Sample writes leave every byte below the sample memory, so the body, as it is. -/
theorem SampleWrites.read_below (h : SampleWrites m n) {a : Nat} (ha : a < 0x40000) : n.read a = m.read a := by
  induction h with
  | none => rfl
  | write _ k v ih =>
    rw [read_writeWord_other _ v (.inl ?_), ih]
    simp only [sampleAddr, Config.sampleBase]
    omega

/-- From `s` to `t` the memory has had sample writes alone, and no hardware reset (R64). -/
def OnlySampleWrites (s t : State) : Prop := t.resets = s.resets ∧ SampleWrites s.mem t.mem

/-- Neither the memory nor the count of resets moves. -/
theorem OnlySampleWrites.of_eq (hr : t.resets = s.resets) (hm : t.mem = s.mem) : OnlySampleWrites s t :=
  ⟨hr, hm ▸ .none⟩

theorem OnlySampleWrites.emitSample (s : State) (v : Word) : OnlySampleWrites s (emitSample v s) :=
  ⟨rfl, .write .none s.cnt v⟩

theorem OnlySampleWrites.loadX0 (b : Config.Build) (w : Word) (s : State) : OnlySampleWrites s (loadX0 b w s) := by
  unfold Machine.loadX0
  split
  · exact .emitSample (setX0 b w s) w
  · exact .of_eq rfl rfl

theorem OnlySampleWrites.processLanes (b : Config.Build) (ds : List Word) (s : State) :
    OnlySampleWrites s (processLanes b ds s) := by
  obtain ⟨u, hu, e⟩ := processLanes_ends (b := b) (OnlySampleWrites s) (fun _ h _ => h)
    (fun u d h _ _ => ⟨h.1, h.2.write u.cnt (u.acc + d)⟩) ds s (.of_eq rfl rfl)
  rcases e with e | e <;> rw [e]
  · rcases advanceWord_cases (s := u) with ⟨-, e⟩ | ⟨-, e⟩ <;> rw [e] <;> exact hu
  · exact hu

theorem OnlySampleWrites.bodyWord {key : Key} {w : Word} (h : exec (decodeBodyWord key w) s = .next t) :
    OnlySampleWrites s t := by
  rcases exec_bodyWord_cases h with rfl | rfl | rfl | rfl | ⟨ds, rfl⟩
  · exact .of_eq rfl rfl
  · exact .loadX0 _ w s
  · exact .of_eq rfl rfl
  · exact .of_eq rfl rfl
  · exact .processLanes _ ds s

/-- The engine writes nothing but sample entries (R54, R56). -/
theorem OnlySampleWrites.engineStep (h : engineStep s = .next t) : OnlySampleWrites s t := by
  cases hp : s.phase with
  | idle => rw [engineStep_idle hp] at h; cases h; exact .of_eq rfl rfl
  | frame =>
    by_cases hf : s.fi.toNat = s.nfrL.toNat
    · rw [engineStep_end hp hf] at h; cases h; exact .of_eq rfl rfl
    · rw [engineStep_frame hp hf] at h; cases h; exact .of_eq rfl rfl
  | ic =>
    rw [engineStep_ic hp] at h
    cases h
    exact .loadX0 Config.build (Machine.bodyWord s 0 1) (tick s)
  | word =>
    rw [engineStep_word hp] at h
    exact .bodyWord (s := tick s) h
  | finish => rw [engineStep_finish hp] at h; cases h; exact .of_eq rfl rfl

/-! ### The host's writes -/

/-- A host access leaves the memory, or is a body write in IDLE (R53). It is no hardware reset. -/
theorem hostAccess_mem {x : Access} (h : hostAccess x s = .next t) :
    t.resets = s.resets ∧ (t.mem = s.mem ∨
      s.phase = .idle ∧ ∃ w ad v, regionOf ad = .body ∧ refusedShape w ad = false ∧ t = writeBody w ad v s) := by
  rcases hostAccess_cases h with ⟨_, _, -, rfl⟩ | ⟨_, -, hv⟩ | ⟨w, ad, v, -, rfl | ⟨-, -, rfl⟩ | ⟨-, -, rfl⟩ |
    ⟨-, -, rfl⟩ | ⟨-, -, rfl⟩ | ⟨hp, hr, hsh, rfl⟩⟩
  case inr.inl =>
    rcases exec_ctrlWrite_cases hv with ⟨-, rfl⟩ | ⟨-, -, rfl⟩ | rfl
    · exact ⟨rfl, .inl rfl⟩
    · rcases startRun_cases s with ⟨-, e⟩ | ⟨-, -, e⟩ | ⟨-, -, e⟩ <;> rw [e] <;> exact ⟨rfl, .inl rfl⟩
    · exact ⟨rfl, .inl rfl⟩
  case inr.inr.inr.inr.inr.inr.inr => exact ⟨rfl, .inr ⟨hp, w, ad, v, hr, hsh, rfl⟩⟩
  all_goals exact ⟨rfl, .inl rfl⟩

/-- A body write that is not refused keeps the canonical form. -/
theorem writeBody_wf {w : Width} {ad : Addr} (hm : s.mem.wf) (hr : regionOf ad = .body)
    (hsh : refusedShape w ad = false) (v : Word) : (writeBody w ad v s).mem.wf := by
  obtain ⟨hlo, hhi⟩ := regionOf_body_iff.1 hr
  simp only [writeBody]
  rcases access_shape hsh with rfl | ⟨rfl, hal⟩
  · exact write_wf _ hm (.inl ⟨hlo, hhi⟩)
  · exact writeWord_wf v hm fun j hj => .inl ⟨by omega, by omega⟩

/-! ### The obligations about every step -/

/-- Settles O51, by the turn: sample writes, a body write, or the empty memory of a hardware reset. -/
theorem memoryFormKeptByEveryStep : Obligations.MemoryFormKeptByEveryStep := by
  intro s t hm h
  rcases step_cases h with ⟨-, he⟩ | ⟨x, ts, -, ha⟩ | ⟨ts, -, rfl⟩
  · exact (OnlySampleWrites.engineStep he).2.wf hm
  · rcases (hostAccess_mem ha).2 with e | ⟨-, w, ad, v, hr, hsh, rfl⟩
    · exact e ▸ hm
    · exact writeBody_wf (s := withTurns ts s) hm hr hsh v
  · exact ⟨.nil, nofun⟩

/-- Settles O52: the engine's writes lie above the body, and a busy block drops the host's. -/
theorem bodyFixedDuringRun : Obligations.BodyFixedDuringRun := by
  intro s t hp hreset h i hi
  have hbody : bodyAddr i < 0x40000 := by simp only [bodyAddr, Config.bodyBase]; omega
  rcases step_cases h with ⟨-, he⟩ | ⟨x, ts, -, ha⟩ | ⟨ts, hts, -⟩
  · obtain ⟨hr, hw⟩ := OnlySampleWrites.engineStep he
    exact readByte_congr hr (hw.read_below hbody)
  · obtain ⟨hr, hm | ⟨hidle, -⟩⟩ := hostAccess_mem ha
    · exact readByte_congr hr (by rw [hm]; rfl)
    · exact absurd hidle hp
  · exact absurd (by rw [hts]; rfl) hreset

end Sys2Proof.Machine
end

section
/-! SUPPORT. Body bytes beyond the last frame (R54): two states that differ in such bytes alone fetch the same words,
and every effect of an engine step keeps them so. -/

namespace Sys2Proof.Machine

variable {s v : State} {n : Nat}

/-- `v` is `s` but for bytes of the body memory beyond its first `n` frames. -/
structure SameUpTo (n : Nat) (s v : State) : Prop where
  frame : v = { s with mem := v.mem }
  read : ∀ a, ¬(bodyAddr (64 * n) ≤ a ∧ a < 0x20000) → v.mem.read a = s.mem.read a

/-! ### The words the engine fetches -/

/-- The words of the first `n` frames are the same (R55). -/
theorem SameUpTo.bodyWord (h : SameUpTo n s v) {f k : Nat} (hf : f < n) (hk : k < 16) :
    bodyWord v f k = bodyWord s f k := by
  refine readWord_congr (by rw [h.frame]) fun j hj => h.read _ ?_
  simp only [bodyAddr, Config.frameBytes]
  omega

/-! ### The effects of an engine step -/

/-- An update of the state that neither reads nor writes the memory. -/
def LeavesMemory (f : State → State) : Prop := ∀ s m, f { s with mem := m } = { f s with mem := m }

theorem SameUpTo.update {f : State → State} (h : SameUpTo n s v) (hf : LeavesMemory f) : SameUpTo n (f s) (f v) := by
  have hs : (f s).mem = s.mem := congrArg State.mem (a₁ := f s) (a₂ := { f s with mem := s.mem }) (hf s s.mem)
  have hv : f v = { f s with mem := v.mem } := by rw [h.frame]; exact hf s v.mem
  rw [hv]
  exact ⟨rfl, fun a ha => (h.read a ha).trans (by rw [hs])⟩

theorem leavesMemory_advanceWord : LeavesMemory advanceWord := by
  intro s m
  by_cases h : s.wi = 15
  · rw [advanceWord, if_pos h, advanceWord, if_pos h]; rfl
  · rw [advanceWord, if_neg h, advanceWord, if_neg h]

/-- A word written to two memories leaves alike what was alike. -/
theorem read_writeWord_congr {m m' : Memory} {c : Nat} (h : m'.read c = m.read c) (a : Nat) (x : Word) :
    (m'.writeWord a x).read c = (m.writeWord a x).read c := by
  simp only [Memory.writeWord, read_write, h]

theorem SameUpTo.emitSample (h : SameUpTo n s v) (x : Word) : SameUpTo n (emitSample x s) (emitSample x v) := by
  have hcnt : v.cnt = s.cnt := by rw [h.frame]
  refine ⟨by rw [h.frame]; rfl, fun a ha => ?_⟩
  rw [emitSample_mem, emitSample_mem, hcnt]
  exact read_writeWord_congr (h.read a ha) _ x

theorem SameUpTo.integrate (h : SameUpTo n s v) (d : Word) : SameUpTo n (integrate d s) (integrate d v) := by
  have hacc : v.acc = s.acc := by rw [h.frame]
  have hsum : SameUpTo n { s with acc := s.acc + d } { v with acc := v.acc + d } :=
    h.update (f := fun u => { u with acc := u.acc + d }) fun _ _ => rfl
  unfold Machine.integrate
  rw [hacc] at hsum ⊢
  exact hsum.emitSample _

theorem SameUpTo.loadX0 (h : SameUpTo n s v) (b : Config.Build) (w : Word) :
    SameUpTo n (loadX0 b w s) (loadX0 b w v) := by
  have hwants : wantsSample v = wantsSample s := by rw [h.frame]; rfl
  have hset : SameUpTo n (setX0 b w s) (setX0 b w v) := h.update fun _ _ => rfl
  unfold Machine.loadX0
  rw [hwants]
  split
  · exact (hset.emitSample w).update (f := fun u => { u with wi := 3, phase := .word }) fun _ _ => rfl
  · exact hset.update (f := surplus b) fun _ _ => rfl

/-- The lanes of a word end alike: each lane meets the same D0P, CNT and NEXP_L in both states (R120). -/
theorem SameUpTo.processLanes (h : SameUpTo n s v) (b : Config.Build) (ds : List Word) :
    SameUpTo n (processLanes b ds s) (processLanes b ds v) := by
  induction ds generalizing s v with
  | nil => exact h.update leavesMemory_advanceWord
  | cons d ds ih =>
    have hd0p : v.d0p = s.d0p := by rw [h.frame]
    have hcnt : v.cnt = s.cnt := by rw [h.frame]
    have hnexp : v.nexpL = s.nexpL := by rw [h.frame]
    cases hd : s.d0p with
    | true =>
      rw [processLanes_discard hd, processLanes_discard (hd0p.trans hd)]
      exact ih (h.update (f := fun u => { u with d0p := false }) fun _ _ => rfl)
    | false =>
      rw [Machine.processLanes, Machine.processLanes]
      rcases Nat.lt_or_ge s.cnt.toNat s.nexpL.toNat with hc | hc
      · rw [processLane_integrate hd hc, processLane_integrate (hd0p.trans hd) (by rwa [hcnt, hnexp])]
        exact ih (h.integrate d)
      · rw [processLane_surplus hd hc, processLane_surplus (hd0p.trans hd) (by rwa [hcnt, hnexp])]
        exact h.update (f := surplus b) fun _ _ => rfl

/-- Where the invariants hold, the engine's steps from two states that agree up to the last frame do so too (R54): every
word the step fetches lies in a frame of the body (R43). -/
theorem SameUpTo.engineStep (h : SameUpTo s.nfrL.toNat s v) (hinv : s.Inv) :
    ∃ t u, engineStep s = .next t ∧ engineStep v = .next u ∧ SameUpTo s.nfrL.toNat t u := by
  have hphase : v.phase = s.phase := by rw [h.frame]
  have hfi : v.fi = s.fi := by rw [h.frame]
  have hnfr : v.nfrL = s.nfrL := by rw [h.frame]
  have htick : SameUpTo s.nfrL.toNat (tick s) (tick v) := h.update fun _ _ => rfl
  cases hp : s.phase with
  | idle => exact ⟨_, _, engineStep_idle hp, engineStep_idle (hphase.trans hp), h⟩
  | frame =>
    by_cases hf : s.fi.toNat = s.nfrL.toNat
    · exact ⟨_, _, engineStep_end hp hf, engineStep_end (hphase.trans hp) (by rwa [hfi, hnfr]),
        htick.update fun _ _ => rfl⟩
    · refine ⟨_, _, engineStep_frame hp hf, engineStep_frame (hphase.trans hp) (by rwa [hfi, hnfr]), ?_⟩
      rw [hfi, h.bodyWord (lt_of_le_of_ne hinv.fi_le hf) (by decide)]
      exact htick.update fun _ _ => rfl
  | ic =>
    obtain ⟨-, hn⟩ := hinv.ic_fresh hp
    refine ⟨_, _, engineStep_ic hp, engineStep_ic (hphase.trans hp), ?_⟩
    rw [h.bodyWord hn (by decide), h.bodyWord hn (by decide)]
    exact (htick.loadX0 _ _).update (f := loadXn _) fun _ _ => rfl
  | word =>
    obtain ⟨hlt, hpos⟩ := hinv.word_cursor hp
    have hwi : v.wi = s.wi := by rw [h.frame]
    have hcw : v.cw = s.cw := by rw [h.frame]
    have hframe0 : inFrame0 v = inFrame0 s := by rw [inFrame0, hfi, inFrame0]
    have hword : cursorBodyWord v = cursorBodyWord s := by
      rw [cursorBodyWord, hfi, hwi, h.bodyWord hlt s.wi.isLt, cursorBodyWord]
    refine ⟨_, _, engineStep_data hp hpos, engineStep_data (hphase.trans hp) (by rwa [hframe0, hwi]), ?_⟩
    rw [hcw, hwi, hword]
    split
    · exact htick.update fun _ _ => rfl
    · exact htick.processLanes _ _
  | finish => exact ⟨_, _, engineStep_finish hp, engineStep_finish (hphase.trans hp), htick.update fun _ _ => rfl⟩

/-- Settles O53: the two states agree up to frame NFR_L, and so do their steps. -/
theorem bytesBeyondTheBodyHaveNoEffect : Obligations.BytesBeyondTheBodyHaveNoEffect := by
  intro s m hinv hm
  have h : SameUpTo s.nfrL.toNat s { s with mem := m } := ⟨rfl, hm⟩
  obtain ⟨t, u, ht, hu, htu⟩ := h.engineStep hinv
  exact ⟨t, u.mem, ht, by rw [hu, ← htu.frame], htu.read⟩

end Sys2Proof.Machine
end

section
/-! SUPPORT. The opcode map read in both directions: what the decoder answers for each key and each value written to
CTRL (R89, R91), that no encoding is illegal (R90), and the obligations about the decoder. -/

namespace Sys2Proof

variable {key : Key} {w : Word}

/-! ### What the decoders answer -/

/-- Word 0 of a frame is a control word, whatever its code (R89 row 1). -/
theorem decodeBodyWord_control (h : key.wi = 0) : decodeBodyWord key w = .ctrl key.f0 key.code w := if_pos h

/-- Word 1 of frame 0 is X0, whatever its code (R89 row 2). -/
theorem decodeBodyWord_forward (hf : key.f0 = true) (h : key.wi = 1) : decodeBodyWord key w = .icx0 key.code w := by
  simp [decodeBodyWord, hf, h]

/-- Word 2 of frame 0 is Xn, whatever its code (R89 row 3). -/
theorem decodeBodyWord_reverse (hf : key.f0 = true) (h : key.wi = 2) : decodeBodyWord key w = .icxn key.code w := by
  simp [decodeBodyWord, hf, h]

/-- At a data position the code alone selects the operation (R89 rows 4 to 7). -/
theorem decodeBodyWord_data (h : IsDataPosition key.f0 key.wi) :
    decodeBodyWord key w =
      if key.code = 0 then .stop key.f0 key.wi
      else if key.code = 1 then .d8x4 key.f0 key.wi w
      else if key.code = 2 then .d16x2 key.f0 key.wi w
      else .d32x1 key.f0 key.wi w := by
  obtain ⟨hword0, hconst⟩ := h
  rw [decodeBodyWord, if_neg hword0, if_neg fun hc => hconst ⟨hc.1, .inl hc.2⟩,
    if_neg fun hc => hconst ⟨hc.1, .inr hc.2⟩]

/-- The command in a value made of the fields of R91. -/
theorem decodeCtrlWrite_ctrlValue (ignored : BitVec 30) (b1 b0 : Bool) :
    decodeCtrlWrite (ctrlValue ignored b1 b0) =
      if b1 then .srst ignored b0 else if b0 then .start ignored else .ctrlNop ignored := by
  simp [decodeCtrlWrite]

/-- Settles O1: the fields that the encoder puts together are read back, and at a data position (the only place of a
well-formed STOP or difference) the code decides. -/
theorem decodeEncodeRoundTrip : Obligations.DecodeEncodeRoundTrip := by
  intro i hi
  cases i with
  | ctrl f0 code w => simp [encode, decode, decodeBodyWord_control]
  | icx0 code w => simp [encode, decode, decodeBodyWord_forward]
  | icxn code w => simp [encode, decode, decodeBodyWord_reverse]
  | stop f0 wi | d8x4 f0 wi w | d16x2 f0 wi w | d32x1 f0 wi w =>
    have hpos : IsDataPosition f0 wi := of_decide_eq_true hi
    rw [encode, decode, decodeBodyWord_data (by simpa using hpos)]
    simp
  | srst ignored startBit => exact decodeCtrlWrite_ctrlValue ignored true startBit
  | start ignored => exact decodeCtrlWrite_ctrlValue ignored false true
  | ctrlNop ignored => exact decodeCtrlWrite_ctrlValue ignored false false

/-! ### No encoding is illegal -/

/-- The four kinds of position that a key can name (R85, R89). -/
theorem keyPosition_cases (key : Key) :
    key.wi = 0 ∨ (key.f0 = true ∧ key.wi = 1) ∨ (key.f0 = true ∧ key.wi = 2) ∨ IsDataPosition key.f0 key.wi := by
  revert key; decide

/-- The encoding without what the decoder does not read: the word of a STOP (R90, R104). -/
def Encoding.withoutUnread (e : Encoding) : Encoding :=
  match e with
  | .bodyWord key w => .bodyWord key (if (decodeBodyWord key w).op = .stop then 0 else w)
  | .ctrlWrite v => .ctrlWrite v

theorem Encoding.withoutUnread_of_ne_stop {e : Encoding} (h : (decode e).op ≠ .stop) : e.withoutUnread = e := by
  cases e with
  | bodyWord key w => exact congrArg (Encoding.bodyWord key) (if_neg h)
  | ctrlWrite v => rfl

theorem Encoding.withoutUnread_of_stop (h : (decodeBodyWord key w).op = .stop) :
    (Encoding.bodyWord key w).withoutUnread = .bodyWord key 0 := by
  rw [withoutUnread, if_pos h]

/-- A key whose fields are known. -/
theorem selectorKey_eq {f0 : Bool} {wi : BitVec 4} {code : Code} (hf : key.f0 = f0) (hw : key.wi = wi)
    (hc : key.code = code) : selectorKey f0 wi code = key := by
  rw [← hf, ← hw, ← hc, selectorKey_fields]

/-- The four codes (R84). -/
theorem code_cases : ∀ code : Code, code = 0 ∨ code = 1 ∨ code = 2 ∨ code = 3 := by decide

/-- A body word decodes to a well-formed instruction, from which key and word come back (R90). -/
theorem decodeBodyWord_legal (key : Key) (w : Word) :
    (decodeBodyWord key w).wellFormed = true ∧
      encode (decodeBodyWord key w) = (Encoding.bodyWord key w).withoutUnread := by
  rw [Encoding.withoutUnread]
  rcases keyPosition_cases key with h | ⟨hf, h⟩ | ⟨hf, h⟩ | h
  · rw [decodeBodyWord_control h]
    exact ⟨rfl, congrArg (Encoding.bodyWord · w) (selectorKey_eq rfl h rfl)⟩
  · rw [decodeBodyWord_forward hf h]
    exact ⟨rfl, congrArg (Encoding.bodyWord · w) (selectorKey_eq hf h rfl)⟩
  · rw [decodeBodyWord_reverse hf h]
    exact ⟨rfl, congrArg (Encoding.bodyWord · w) (selectorKey_eq hf h rfl)⟩
  · rw [decodeBodyWord_data h]
    rcases code_cases key.code with hc | hc | hc | hc <;> rw [hc] <;>
      exact ⟨decide_eq_true h, congrArg (Encoding.bodyWord · _) (selectorKey_eq rfl rfl hc)⟩

/-- A value written to CTRL decodes to a well-formed instruction, from which it comes back (R91). -/
theorem decodeCtrlWrite_legal (v : Word) :
    (decodeCtrlWrite v).wellFormed = true ∧ encode (decodeCtrlWrite v) = .ctrlWrite v := by
  rw [← ctrlValue_fields v, decodeCtrlWrite_ctrlValue]
  cases v.getLsbD 1 <;> cases v.getLsbD 0 <;> exact ⟨rfl, rfl⟩

/-- Every encoding decodes to a well-formed instruction, from which all that was read comes back (R90). -/
theorem decode_legal (e : Encoding) : (decode e).wellFormed = true ∧ encode (decode e) = e.withoutUnread := by
  cases e with
  | bodyWord key w => exact decodeBodyWord_legal key w
  | ctrlWrite v => exact decodeCtrlWrite_legal v

/-- Settles O3: of what `decode_legal` gives back only the word of a STOP is not the encoding's own. -/
theorem everyEncodingIsLegal : Obligations.EveryEncodingIsLegal := by
  intro e
  obtain ⟨hwf, henc⟩ := decode_legal e
  refine ⟨hwf, fun hop => henc.trans (Encoding.withoutUnread_of_ne_stop hop), ?_⟩
  rintro key w rfl hop
  exact henc.trans (Encoding.withoutUnread_of_stop hop)

/-! ### The first row -/

open Laws.MatchesRow (selectedOp Statement)

/-- The encoding of every well-formed instruction selects the instruction's own row first. -/
theorem selectedOp_encode (i : Instr) : Statement i := by
  cases i with
  | ctrl f0 code w => exact Laws.MatchesRow.ctrl f0 code w
  | icx0 code w => exact Laws.MatchesRow.icx0 code w
  | icxn code w => exact Laws.MatchesRow.icxn code w
  | stop f0 wi => exact Laws.MatchesRow.stop f0 wi
  | d8x4 f0 wi w => exact Laws.MatchesRow.d8x4 f0 wi w
  | d16x2 f0 wi w => exact Laws.MatchesRow.d16x2 f0 wi w
  | d32x1 f0 wi w => exact Laws.MatchesRow.d32x1 f0 wi w
  | srst ignored startBit => exact Laws.MatchesRow.srst ignored startBit
  | start ignored => exact Laws.MatchesRow.start ignored
  | ctrlNop ignored => exact Laws.MatchesRow.ctrlNop ignored

/-- The row does not depend on the word. -/
theorem selectedOp_withoutUnread (e : Encoding) : selectedOp e.withoutUnread = selectedOp e := by
  cases e <;> rfl

/-- The first row that an encoding selects is that of the instruction it decodes to: the instruction's own encoding
selects it, and differs from the given one in an unread word at most. -/
theorem selectedOp_eq_decode_op (e : Encoding) : selectedOp e = some (decode e).op := by
  obtain ⟨hwf, henc⟩ := decode_legal e
  calc selectedOp e = selectedOp (encode (decode e)) := by rw [henc, selectedOp_withoutUnread]
    _ = some (decode e).op := selectedOp_encode (decode e) hwf

/-- Settles O2, for the engine's rows and for those of CTRL. -/
theorem decodeFollowsFirstRow : Obligations.DecodeFollowsFirstRow :=
  ⟨fun key w => selectedOp_eq_decode_op (.bodyWord key w), fun v => selectedOp_eq_decode_op (.ctrlWrite v)⟩

/-- Settles O7, by running the decoder on each word. -/
theorem sampleEncodingsDecode : Obligations.SampleEncodingsDecode :=
  ⟨by decide, by decide, by decide, by decide, by decide, by decide⟩

end Sys2Proof
end

section
/-! SUPPORT. The fields of a body's words: the codes of a control word, read and computed from a listing (R82, R94), and
the lanes of a data word (R86, R87); and the command in a host write to CTRL (R91). -/

namespace Sys2Proof.Machine

/-! ### The codes of a control word -/

/-- Bit `j` of code `c_k` (R82). -/
theorem codeAt_getLsbD (cw : Word) (k : BitVec 4) {j : Nat} (hj : j < 2) :
    (codeAt cw k).getLsbD j = cw.getLsbD (30 - 2 * k.toNat + j) := by
  simp [codeAt, hj]

/-- Settles O4: the two bits of a code, by `codeAt_getLsbD`. -/
theorem controlWordCodePositions : Obligations.ControlWordCodePositions := by
  intro cw k
  have hk := k.isLt
  refine ⟨?_, codeAt_getLsbD cw k (by decide)⟩
  rw [codeAt_getLsbD cw k (by decide), show 30 - 2 * k.toNat + 1 = 31 - 2 * k.toNat by omega]

/-- A code put at position `j` of a word has its bits there and no others (R94). -/
theorem codeShift_getLsbD (c : Code) {i j k : Nat} (hi : i < 2) (hj : j < 16) (hk : k < 16) :
    (c.setWidth 32 <<< (30 - 2 * j)).getLsbD (30 - 2 * k + i) = (decide (k = j) && c.getLsbD i) := by
  rw [BitVec.getLsbD_shiftLeft, BitVec.getLsbD_setWidth]
  rcases lt_trichotomy k j with h | rfl | h
  · rw [BitVec.getLsbD_of_ge c _ (by omega)]
    simp [h.ne]
  · have hlane : 30 - 2 * k + i < 32 := by omega
    simp [hlane, show i < 32 by omega]
  · simp [h.ne', show 30 - 2 * k + i < 30 - 2 * j by omega]

/-- The codes put together from position `j` on, read at position `k`. -/
theorem orCodes_getLsbD (cs : List Code) {i j k : Nat} (hi : i < 2) (hj : j + cs.length ≤ 16) (hk : k < 16) :
    (orCodes j cs).getLsbD (30 - 2 * k + i) = (decide (j ≤ k) && (cs.getD (k - j) 0).getLsbD i) := by
  induction cs generalizing j with
  | nil => simp [orCodes]
  | cons c cs ih =>
    rw [List.length_cons] at hj
    rw [orCodes, BitVec.getLsbD_or, codeShift_getLsbD c hi (by omega) hk, ih (by omega)]
    rcases lt_trichotomy k j with h | rfl | h
    · simp [h.ne, h.not_ge, show ¬ j + 1 ≤ k by omega]
    · simp
    · rw [show k - j = k - (j + 1) + 1 by omega, List.getD_cons_succ]
      simp [h.ne', h.le, Nat.succ_le_of_lt h]

/-- The control word holds its own code as the first of the frame's 16 codes. -/
theorem controlWord_eq_orCodes (c0 : Code) (codes : List Code) : controlWord c0 codes = orCodes 0 (c0 :: codes) := rfl

/-- Code `c_k` of a computed control word (R82, R94). -/
theorem codeAt_controlWord (c0 : Code) {codes : List Code} (h : codes.length = 15) (k : BitVec 4) :
    codeAt (controlWord c0 codes) k = (c0 :: codes).getD k.toNat 0 := by
  refine BitVec.eq_of_getLsbD_eq fun i hi => ?_
  rw [codeAt_getLsbD _ _ hi, controlWord_eq_orCodes, orCodes_getLsbD _ hi (by simp [h]) k.isLt]
  simp

/-- Settles O6: position 0 is the head of the 16 codes, position `k + 1` the listing's entry `k`. -/
theorem listedCodesAreReadBack : Obligations.ListedCodesAreReadBack := by
  intro c0 codes hlen
  refine ⟨codeAt_controlWord c0 hlen 0, fun k hk => ?_⟩
  have hpos : (BitVec.ofNat 4 (k + 1)).toNat = k + 1 := by
    rw [BitVec.toNat_ofNat]
    omega
  rw [codeAt_controlWord c0 hlen, hpos, List.getD_cons_succ, List.getD_eq_getElem _ _ hk]

/-! ### The lanes of a data word -/

/-- Sign extension to 32 bits keeps a lane's signed value (R87). -/
theorem sext32_toInt {n : Nat} (lane : BitVec n) (hn : n ≤ 32) : (sext32 lane).toInt = lane.toInt :=
  BitVec.toInt_signExtend_of_le hn

/-- Settles O5: each lane is the field of its bits, and its difference has the lane's signed value. -/
theorem lanesAreSignedFields : Obligations.LanesAreSignedFields := by
  intro w
  refine ⟨?_, ?_, rfl⟩
  · simp only [lanes8, List.map_cons, List.map_nil, sext32_toInt _ (show 8 ≤ 32 by decide)]
    rfl
  · simp only [lanes16, List.map_cons, List.map_nil, sext32_toInt _ (show 16 ≤ 32 by decide)]
    rfl

/-! ### A host write to CTRL -/

/-- A host write to CTRL runs the command it encodes (R91, R150). -/
theorem hostAccess_writeCtrl (v : Word) (s : State) : hostAccess (.write .b32 0 v) s = exec (decodeCtrlWrite v) s :=
  hostAccess_write (refusedShape_aligned rfl) v s

/-- Settles O31: `v[1:0]` selects the command, and `exec` reads neither `v[31:2]` nor the START bit of an SRST. -/
theorem ctrlWriteSelectsCommand : Obligations.CtrlWriteSelectsCommand := by
  intro v s
  rw [hostAccess_writeCtrl, decodeCtrlWrite]
  refine ⟨fun h1 => ?_, fun h1 h0 => ?_, fun h1 h0 => ?_⟩
  · rw [if_pos h1]
    rfl
  · rw [h1, h0]
    rfl
  · rw [h1, h0]
    rfl

end Sys2Proof.Machine
end

section
/-! SUPPORT. The frame walk, one instruction and one step at a time (R100 to R106): which instruction a step runs, and
the whole next state of CTRL, ICX0, ICXN, STOP and of the step at the end of the body. -/

namespace Sys2Proof.Machine

variable {s : State} {b : Config.Build} {w : Word}

/-! ### The instruction a step runs -/

/-- In FRAME with a frame left the engine runs the frame's word 0 (R101). -/
theorem engineStep_fetchControl (h : s.phase = .frame) (hf : s.fi.toNat ≠ s.nfrL.toNat) :
    engineStep s = exec (fetchControl s) (tick s) := by
  have hleft : bodyExhausted s = false := by rw [← Bool.not_eq_true, bodyExhausted_iff]; exact hf
  simp [engineStep, h, hleft]

/-- In IC the engine runs words 1 and 2 of frame 0 (R102). -/
theorem engineStep_fetchConstants (h : s.phase = .ic) :
    engineStep s = andThen (exec (fetchForward s) (tick s)) (exec (fetchReverse s)) := by
  simp [engineStep, h]

/-- Settles O8, by PHASE: the fetch reads neither the turns nor the draw index. -/
theorem stepRunsDecodedInstruction : Obligations.StepRunsDecodedInstruction := by
  refine ⟨fun s hT => ?_, fun s v ts hT => ?_⟩
  · rw [step_engine hT]
    exact ⟨fun hp hf => engineStep_fetchControl (s := withTurns s.turns.tail s) hp hf,
      fun hp => engineStep_fetchConstants (s := withTurns s.turns.tail s) hp,
      fun hp => engineStep_word (s := withTurns s.turns.tail s) hp⟩
  · rw [step_turn hT]
    exact hostAccess_writeCtrl v (withTurns ts s)

/-- Settles O10: a FRAME step at `FI = NFR_L` is `endOfBody`, in the state with its turn taken. -/
theorem endOfBodyGoesToFinish : Obligations.EndOfBodyGoesToFinish := fun s hT hp hf =>
  (step_engine hT).trans (engineStep_end (s := withTurns s.turns.tail s) hp hf)

/-! ### The control word, STOP and AdvanceWord -/

theorem inFrame0_iff_fi : inFrame0 s = true ↔ s.fi = 0 := beq_iff_eq

/-- Settles O11: the code of word 0 is not read, and frame 0 alone goes on to its constants. -/
theorem ctrlLatchesControlWord : Obligations.CtrlLatchesControlWord := by
  intro f0 code w s
  have hexec : exec (.ctrl f0 code w) s = .next (latchControlWord w s) := rfl
  rw [hexec, latchControlWord]
  by_cases hfi : s.fi = 0
  · rw [if_pos hfi, if_pos (inFrame0_iff_fi.2 hfi)]
  · rw [if_neg hfi, if_neg (mt inFrame0_iff_fi.1 hfi)]

/-- Settles O15: STOP is `nextFrame`. -/
theorem stopEndsTheFrame : Obligations.StopEndsTheFrame := fun _ _ _ => rfl

/-- Settles O16, by whether the cursor stands at word 15. -/
theorem advanceWordMovesTheCursor : Obligations.AdvanceWordMovesTheCursor := by
  intro s
  rcases advanceWord_cases (s := s) with ⟨hwi, hadv⟩ | ⟨hwi, hadv⟩
  · rw [hadv, if_pos hwi]
    rfl
  · rw [hadv, if_neg hwi]

/-! ### The constants of frame 0 -/

/-- While a sample is wanted X0 is one (R102). -/
theorem loadX0_wanted (h : s.cnt.toNat < s.nexpL.toNat) :
    loadX0 b w s =
      { s with
        x0 := w, acc := w, d0p := b.d0 == .skip
        mem := s.mem.writeWord (sampleAddr s.cnt.toNat) w, cnt := s.cnt + 1, wi := 3, phase := .word } :=
  if_pos (wantsSample_iff.2 h)

/-- Otherwise X0 is surplus (R122). -/
theorem loadX0_surplus (h : s.nexpL.toNat ≤ s.cnt.toNat) :
    loadX0 b w s =
      { s with
        x0 := w, acc := w, d0p := b.d0 == .skip
        errLen := s.errLen || b.surplus == .strict, phase := .finish } :=
  if_neg (by rw [wantsSample_iff]; omega)

/-- Settles O12: ICX0 is `loadX0`, which tests whether a sample is wanted. -/
theorem icx0LoadsForwardConstant : Obligations.Icx0LoadsForwardConstant := fun _ _ _ =>
  ⟨fun h => congrArg Host.Outcome.next (loadX0_wanted h), fun h => congrArg Host.Outcome.next (loadX0_surplus h)⟩

/-- Settles O13: ICXN is `loadXn`. -/
theorem icxnLoadsReverseConstant : Obligations.IcxnLoadsReverseConstant := fun _ _ _ => rfl

/-- Settles O14: the IC step loads X0 and then XN, in the state with its turn taken. -/
theorem icStepLoadsBothConstants : Obligations.IcStepLoadsBothConstants := by
  intro s hT hp
  rw [step_engine hT, engineStep_ic (s := withTurns s.turns.tail s) hp]
  refine ⟨fun h => ?_, fun h => ?_⟩
  · rw [loadX0_wanted (s := tick (withTurns s.turns.tail s)) h]
    rfl
  · rw [loadX0_surplus (s := tick (withTurns s.turns.tail s)) h]
    rfl

end Sys2Proof.Machine
end

section
/-! SUPPORT. A data word whose live lanes are all wanted (R103, R120, R121, R123). -/

namespace Sys2Proof.Machine

variable {s : State} {b : Config.Build} {ds : List Word}

@[simp] theorem integrateAll_d0p (ds : List Word) (s : State) : (integrateAll ds s).d0p = s.d0p := by
  rw [integrateAll_eq]
@[simp] theorem integrateAll_fi (ds : List Word) (s : State) : (integrateAll ds s).fi = s.fi := by
  rw [integrateAll_eq]
@[simp] theorem integrateAll_wi (ds : List Word) (s : State) : (integrateAll ds s).wi = s.wi := by
  rw [integrateAll_eq]
@[simp] theorem integrateAll_phase (ds : List Word) (s : State) : (integrateAll ds s).phase = s.phase := by
  rw [integrateAll_eq]

/-- A pending D0P costs a word its first lane, and the lanes that are left find it clear (R120, R123). -/
theorem processLanes_lanesLeft (h : ds ≠ []) :
    processLanes b ds s = processLanes b (lanesLeft s ds) { s with d0p := false } := by
  unfold lanesLeft
  cases hd : s.d0p with
  | true =>
    obtain ⟨d, ds, rfl⟩ := List.exists_cons_of_ne_nil h
    exact processLanes_discard hd
  | false =>
    have hs : { s with d0p := false } = s := by rw [← hd]
    rw [hs]
    rfl

/-- A data-word instruction with room for its live lanes integrates them and advances the cursor (R103). -/
theorem exec_dataWord_room {i : Instr} (hi : dataLanes i ≠ [])
    (hc : s.cnt.toNat + (liveLanes i s).length ≤ s.nexpL.toNat) :
    exec i s = .next (advanceWord (integrateAll (liveLanes i s) { s with d0p := false })) := by
  rw [exec_dataWord hi, processLanes_lanesLeft hi]
  exact congrArg Host.Outcome.next (processLanes_room rfl hc)

/-- Settles O21: the accumulator, the count and the samples are those of the integrated live lanes, which AdvanceWord
leaves, and the cursor is AdvanceWord's, from where the word stood. -/
theorem dataWordIntegratesLiveLanes : Obligations.DataWordIntegratesLiveLanes := by
  intro i s hi hc
  refine ⟨_, exec_dataWord_room hi hc, ?_⟩
  have hroom : s.cnt.toNat + (liveLanes i s).length ≤ 65535 := by have := s.nexpL.isLt; omega
  generalize liveLanes i s = ds at hroom ⊢
  have hacc := integrateAll_acc ds { s with d0p := false }
  have hcnt := integrateAll_cnt_toNat (ds := ds) (s := { s with d0p := false }) (Nat.lt_succ_of_le hroom)
  have hsamples := fun j => sampleEntry_integrateAll ds (s := { s with d0p := false }) hroom (j := j)
  rcases advanceWord_cases (s := integrateAll ds { s with d0p := false }) with ⟨hwi, hadv⟩ | ⟨hwi, hadv⟩ <;>
    rw [integrateAll_wi] at hwi <;> rw [hadv]
  · exact ⟨hacc, hcnt, integrateAll_d0p _ _, hsamples,
      fun _ => ⟨congrArg (· + 1) (integrateAll_fi _ _), rfl, rfl⟩, fun h => absurd hwi h, integrateAll_errLen _ _⟩
  · exact ⟨hacc, hcnt, integrateAll_d0p _ _, hsamples, fun h => absurd h hwi,
      fun _ => ⟨integrateAll_fi _ _, congrArg (· + 1) (integrateAll_wi _ _), integrateAll_phase _ _⟩,
      integrateAll_errLen _ _⟩

end Sys2Proof.Machine
end

section
/-! SUPPORT. Every run reaches FINISH within 16 engine steps for each frame (R107, R108), and what turns listed before
the end or an abort do to it (R199, R203). -/

namespace Sys2Proof.Machine

variable {s t u v : State} {m n : Nat}

/-! ### The walk to FINISH, by the engine's own steps -/

/-- At most `n` engine steps take `v` to PHASE FINISH. -/
def FinishesWithin (v : State) (n : Nat) : Prop := ∃ m ≤ n, ∃ t, engineSteps m v = .next t ∧ t.phase = .finish

theorem FinishesWithin.of_finish (h : v.phase = .finish) : FinishesWithin v n := ⟨0, Nat.zero_le n, v, rfl, h⟩

theorem FinishesWithin.mono (h : FinishesWithin v m) (hmn : m ≤ n) : FinishesWithin v n := by
  obtain ⟨k, hk, h⟩ := h
  exact ⟨k, hk.trans hmn, h⟩

theorem FinishesWithin.of_steps (hv : engineSteps m v = .next u) (h : FinishesWithin u n) :
    FinishesWithin v (m + n) := by
  obtain ⟨k, hk, t, ht, hp⟩ := h
  exact ⟨m + k, by omega, t, engineSteps_add hv ht, hp⟩

theorem FinishesWithin.of_step (hv : engineStep v = .next u) (h : FinishesWithin u n) : FinishesWithin v (1 + n) :=
  .of_steps (engineSteps_one hv) h

/-- A surplus lane leads to FINISH (R122). -/
theorem StoppedInside.phase_eq {ls : List Word} {ps : List (Nat × Nat)} (h : StoppedInside v ls ps t) :
    t.phase = .finish := by
  obtain ⟨n, -, -, hphase, -⟩ := h
  exact hphase

theorem SameBody.refl (s : State) : SameBody s s := ⟨rfl, fun _ _ => rfl⟩

/-- An engine step leaves the body (R54). -/
theorem SameBody.engineStep (h : engineStep v = .next u) : SameBody v u := by
  obtain ⟨hresets, hwrites⟩ := OnlySampleWrites.engineStep h
  exact ⟨hresets, fun _ ha => hwrites.read_below ha⟩

/-- From a frame after frame 0: at most 16 steps for each frame that is left, and the end of the body. -/
theorem finishesWithin_laterFrames (hp : v.phase = .frame) (hpos : 1 ≤ v.fi.toNat) (hfi : v.fi.toNat ≤ v.nfrL.toNat)
    (hwi : v.wi = 0) (hnfr : v.nfrL.toNat ≤ 1023) (hc : v.cnt.toNat ≤ v.nexpL.toNat) :
    FinishesWithin v (16 * (v.nfrL.toNat - v.fi.toNat) + 1) := by
  obtain ⟨n, t, hn, ht, hend⟩ := walk_frames v v.nfrL.toNat hnfr (v.nfrL.toNat - v.fi.toNat) v.fi.toNat v (by omega)
    hpos hp rfl hwi rfl (.refl v) hc
  refine ⟨n, hn, t, ht, ?_⟩
  rcases hend with ⟨-, hphase, -⟩ | hstop
  · exact hphase
  · exact hstop.phase_eq

/-- From frame 0's first data word: words 3 to 15, and then the later frames. -/
theorem finishesWithin_firstWords (hp : v.phase = .word) (hfi : v.fi.toNat = 0) (hwi : v.wi = 3)
    (hcw : v.cw = bodyWord v 0 0) (hpos : 1 ≤ v.nfrL.toNat) (hnfr : v.nfrL.toNat ≤ 1023)
    (hc : v.cnt.toNat ≤ v.nexpL.toNat) : FinishesWithin v (16 * v.nfrL.toNat - 2) := by
  obtain ⟨n, t, hn, ht, hend⟩ := walk_words v 0 (by omega) 13 3 v rfl (by omega) hp hfi (fun _ => le_rfl)
    (by rw [hwi]; rfl) hcw (.refl v) hc
  rcases hend with ⟨hall, hphase, hfi', hwi'⟩ | hstop
  · have hrest := finishesWithin_laterFrames hphase (by omega) (by rw [hall.nfrL_eq]; omega) hwi'
      (by rw [hall.nfrL_eq]; omega) hall.cnt_le
    rw [hall.nfrL_eq] at hrest
    exact (hrest.of_steps ht).mono (by omega)
  · exact FinishesWithin.mono ⟨n, le_rfl, t, ht, hstop.phase_eq⟩ (by omega)

/-- While a sample is wanted the IC step makes X0 one and goes to frame 0's first data word; else X0 is surplus and it
goes to FINISH (R102, R122). -/
theorem engineStep_ic_walk (hp : v.phase = .ic) :
    ∃ u, engineStep v = .next u ∧ (u.phase = .finish ∨
      (u.phase = .word ∧ u.fi = v.fi ∧ u.wi = 3 ∧ u.cw = v.cw ∧ u.nfrL = v.nfrL ∧ u.cnt.toNat ≤ u.nexpL.toNat)) := by
  refine ⟨_, engineStep_ic hp, ?_⟩
  rcases Nat.lt_or_ge v.cnt.toNat v.nexpL.toNat with hc | hc
  · right
    rw [loadX0_wanted (s := tick v) hc]
    have := v.nexpL.isLt
    simp [BitVec.toNat_add]
    omega
  · left
    rw [loadX0_surplus (s := tick v) hc, loadXn_phase]

/-- From the constants of frame 0: the IC step, and then the words unless X0 is surplus. -/
theorem finishesWithin_ic (hp : v.phase = .ic) (hfi : v.fi.toNat = 0) (hcw : v.cw = bodyWord v 0 0)
    (hpos : 1 ≤ v.nfrL.toNat) (hnfr : v.nfrL.toNat ≤ 1023) : FinishesWithin v (16 * v.nfrL.toNat - 1) := by
  obtain ⟨u, hstep, hu⟩ := engineStep_ic_walk hp
  rcases hu with hfinish | ⟨hword, hfi', hwi, hcw', hnfr', hc⟩
  · exact (FinishesWithin.of_step (n := 0) hstep (.of_finish hfinish)).mono (by omega)
  · have hbody : bodyWord u 0 0 = bodyWord v 0 0 := (SameBody.engineStep hstep).word (by omega) (by omega)
    have hrest := finishesWithin_firstWords hword (by rw [hfi', hfi]) hwi (by rw [hcw', hcw, hbody])
      (by rw [hnfr']; exact hpos) (by rw [hnfr']; exact hnfr) hc
    rw [hnfr'] at hrest
    exact (hrest.of_step hstep).mono (by omega)

/-- From the start of the walk: 16 steps for each frame, or the end of an empty body (R106, R108). -/
theorem finishesWithin_start (hp : v.phase = .frame) (hfi : v.fi.toNat = 0) (hnfr : v.nfrL.toNat ≤ 1023) :
    FinishesWithin v (if v.nfrL.toNat = 0 then 1 else 16 * v.nfrL.toNat) := by
  split_ifs with h0
  · exact FinishesWithin.of_step (n := 0) (engineStep_end hp (by omega)) (.of_finish rfl)
  · have hstep := engineStep_frame hp (by omega)
    rw [hfi] at hstep
    have hic : (latchControlWord (bodyWord v 0 0) (tick v)).phase = .ic := if_pos (inFrame0_iff.2 hfi)
    refine (FinishesWithin.of_step hstep (finishesWithin_ic hic hfi rfl ?_ hnfr)).mono ?_
    · exact Nat.one_le_iff_ne_zero.2 h0
    · show 1 + (16 * v.nfrL.toNat - 1) ≤ _
      omega

/-- The FINISH step ends the run (R140, R143). -/
theorem FinishesWithin.ends (h : FinishesWithin v n) : ∃ m ≤ n + 1, ∃ t, engineSteps m v = .next t ∧ RunEnded t := by
  obtain ⟨m, hm, t, ht, hp⟩ := h
  exact ⟨m + 1, by omega, _, engineSteps_add ht (engineSteps_one (engineStep_finish hp)), rfl, rfl⟩

/-! ### The accepted START -/

/-- A START in IDLE with whole frames is accepted (R151). -/
theorem exec_start_accepted (hp : s.phase = .idle) (hlen : s.bodyLenCfg.toNat % 64 = 0) (ignored : BitVec 30) :
    exec (.start ignored) s = .next (acceptStart s) := by
  have hstart : startRun s = acceptStart s := by
    rcases startRun_cases s with ⟨hbusy, -⟩ | ⟨-, hbad, -⟩ | ⟨-, -, e⟩
    · exact absurd hp hbusy
    · exact absurd hlen hbad
    · exact e
  rw [← hstart]
  rfl

/-- START latches the number of frames (R35). -/
theorem acceptStart_nfrL (s : State) : (acceptStart s).nfrL.toNat = s.bodyLenCfg.toNat / 64 := by
  have := s.bodyLenCfg.isLt
  simp only [acceptStart, Config.frameBytes, BitVec.toNat_ofNat]
  omega

/-- The bound of R108 on the engine steps of a run over `nfr` frames. -/
def engineStepBound (nfr : Nat) : Nat := if nfr = 0 then 2 else 16 * nfr + 1

theorem acceptStart_ends (s : State) :
    ∃ m ≤ engineStepBound (s.bodyLenCfg.toNat / 64), ∃ t,
      engineSteps m (acceptStart s) = .next t ∧ RunEnded t := by
  obtain ⟨m, hm, hend⟩ := (finishesWithin_start (v := acceptStart s) rfl rfl (acceptStart_nfrL_le s)).ends
  refine ⟨m, hm.trans ?_, hend⟩
  rw [acceptStart_nfrL, engineStepBound]
  split_ifs <;> omega

/-- With harmless turns among the engine's steps the run ends too (R199, R204). -/
theorem acceptStart_runsTo (hh : ∀ x ∈ s.turns, x.isHarmless = true) :
    ∃ t, RunsTo (acceptStart s) t (engineStepBound (s.bodyLenCfg.toNat / 64)) := by
  obtain ⟨m, hm, t, ht, hend⟩ := acceptStart_ends s
  exact ⟨t, (run_with_host ht hend (.refl _) nofun rfl hh).mono hm⟩

/-! ### Turns before an abort -/

/-- A harmless turn leaves a run in progress with DONE clear, or it is the engine's last step (R143, R204). -/
theorem harmless_turn {x : Turn} {ts : List Turn} (hT : v.turns = x :: ts) (hx : x.isHarmless = true)
    (hp : v.phase ≠ .idle) (hd : v.done = false) :
    ∃ u, step v = .next u ∧ u.turns = ts ∧ (RunEnded u ∨ (u.phase ≠ .idle ∧ u.done = false)) := by
  cases x with
  | engine =>
    obtain ⟨t, ht⟩ := engineStep_answers_next v
    obtain ⟨u, hu, hsame, hturns⟩ := engine_turn (.inr (by rw [hT]; rfl)) (.refl v) ht
    refine ⟨u, hu, by rw [hturns, hT]; rfl, ?_⟩
    rw [RunEnded, hsame.phase_eq, hsame.done_eq]
    by_cases hidle : t.phase = .idle
    · exact .inl ((engineStep_leaves ht hp).resolve_left (not_not_intro hidle))
    · exact .inr ⟨hidle, engineStep_done ht hd hidle⟩
  | host a =>
    obtain ⟨u, hu, hsame, hturns⟩ := harmless_step hT hx hp hd
    exact ⟨u, hu, hturns, .inr ⟨hsame.phase_eq ▸ hp, hsame.done_eq ▸ hd⟩⟩
  | reset => exact absurd hx nofun

/-- A run in progress ends within the harmless turns listed before an aborting one, or that one aborts it (R203). -/
theorem endsAt_or_abortsAt {x : Turn} {after : List Turn} (hx : x.isAbort = true) (before : List Turn) (v : State)
    (hT : v.turns = before ++ x :: after) (hh : ∀ y ∈ before, y.isHarmless = true) (hp : v.phase ≠ .idle)
    (hd : v.done = false) :
    (∃ n t, n ≤ before.length ∧ EndsAt v n t) ∨ ∃ t, AbortsAt v (before.length + 1) t := by
  induction before generalizing v with
  | nil =>
    obtain ⟨t, ht, hidle⟩ := abort_step hT hx
    exact .inr ⟨t, AbortsAt.of_step hp ht ⟨rfl, hidle, .zero t⟩⟩
  | cons y ys ih =>
    obtain ⟨hy, hys⟩ := List.forall_mem_cons.1 hh
    obtain ⟨u, hu, hturns, hend | ⟨hpu, hdu⟩⟩ := harmless_turn hT hy hp hd
    · exact .inl ⟨1, u, by simp, EndsAt.of_step hp hu ⟨rfl, hend, .zero u⟩⟩
    · rcases ih u hturns hys hpu hdu with ⟨n, t, hn, ht⟩ | ⟨t, ht⟩
      · exact .inl ⟨n + 1, t, by simpa using hn, ht.of_step hp hu⟩
      · exact .inr ⟨t, ht.of_step hp hu⟩

/-- Settles O58: the engine's own steps end the run within R108's bound and harmless turns only add themselves; an
aborting turn that the run still meets leaves it without an end. -/
theorem everyRunTerminates : Obligations.EveryRunTerminates := by
  intro ignored s hp hlen
  have hstart := exec_start_accepted hp hlen ignored
  refine ⟨fun hh => ?_, fun before after x hT hh hx => ⟨acceptStart s, hstart, ?_⟩⟩
  · obtain ⟨-, n, t, hends, -, hn, -⟩ := acceptStart_runsTo hh
    refine ⟨acceptStart s, t, n, hstart, hends, hn.trans (Nat.add_le_add_right ?_ _)⟩
    unfold engineStepBound
    split_ifs <;> omega
  · refine (endsAt_or_abortsAt hx before (acceptStart s) hT hh nofun rfl).imp_right fun habort => ⟨habort, ?_⟩
    obtain ⟨t, ht⟩ := habort
    exact fun _ _ hends => ht.not_endsAt hends

end Sys2Proof.Machine
end

section
/-! SUPPORT. One data word (R120 to R128): what ProcessLane does, what a word writes that has room for all its lanes,
and where a surplus lane stops it. -/

namespace Sys2Proof.Machine

variable {s : State}

/-- Settles O17: the three tests of `processLane`, each of which has its lemma. -/
theorem processLaneTestsInOrder : Obligations.ProcessLaneTestsInOrder := fun _ _ _ =>
  ⟨processLane_discard, processLane_integrate, processLane_surplus⟩

/-- AdvanceWord moves the cursor and nothing else (R105). -/
theorem advanceWord_eq (s : State) :
    advanceWord s =
      { s with fi := (advanceWord s).fi, wi := (advanceWord s).wi, phase := (advanceWord s).phase } := by
  rcases advanceWord_cases (s := s) with ⟨-, e⟩ | ⟨-, e⟩
  · rw [e]; rfl
  · rw [e]

/-! ### Room for every lane -/

/-- The memory `m` lists, from the entry CNT of `s` on, one sample for each difference of `ds`, its running sum from the
accumulator of `s`, and it is the memory of `s` at every other byte (R56, R121). -/
def WritesSums (s : State) (ds : List Word) (m : Memory) : Prop :=
  ∀ t : State, t.mem = m → t.resets = s.resets →
    (∀ j < ds.length, sampleEntry t (s.cnt.toNat + j) = (ds.take (j + 1)).foldl (· + ·) s.acc) ∧
    ∀ a, (a < 0x40000 + 4 * s.cnt.toNat ∨ 0x40000 + 4 * s.cnt.toNat + 4 * ds.length ≤ a) → readByte t a = readByte s a

theorem writesSums_integrateAll (ds : List Word) (hc : s.cnt.toNat + ds.length ≤ 65535) :
    WritesSums s ds (integrateAll ds s).mem := by
  refine fun t hm hr => ⟨fun j hj => ?_, fun a ha => ?_⟩
  · rw [← sampleEntry_integrateAll ds hc hj]
    exact sampleEntry_congr (hr.trans (integrateAll_resets ds s).symm) fun _ _ _ => by rw [hm]
  · have hout : a < sampleAddr s.cnt.toNat ∨ sampleAddr (s.cnt.toNat + ds.length) ≤ a := by
      simp only [sampleAddr, Config.sampleBase]
      omega
    rw [readByte, hm, hr, read_integrateAll_other ds hc hout, readByte]

/-- A data word with room for all its lanes and no first difference pending: the running sums are written, ACC and CNT
go on by the whole word, the cursor advances, and nothing else changes (R103, R121). -/
theorem exec_dataWord_writesSums {i : Instr} (hi : dataLanes i ≠ []) (hd : s.d0p = false)
    (hc : s.cnt.toNat + (dataLanes i).length ≤ s.nexpL.toNat) :
    ∃ m, exec i s = .next (advanceWord
        { s with
          acc := (dataLanes i).foldl (· + ·) s.acc, cnt := s.cnt + BitVec.ofNat 16 (dataLanes i).length, mem := m }) ∧
      WritesSums s (dataLanes i) m := by
  refine ⟨(integrateAll (dataLanes i) s).mem, ?_, writesSums_integrateAll _ (by have := s.nexpL.isLt; omega)⟩
  rw [exec_dataWord hi, processLanes_room hd hc, integrateAll_eq]

/-- Settles O18: the word's four lanes are the four bytes of the statement. -/
theorem d8x4WritesFourSamples : Obligations.D8x4WritesFourSamples := by
  intro f0 wi w s hd hc
  obtain ⟨m, hexec, hm⟩ := exec_dataWord_writesSums (i := .d8x4 f0 wi w) nofun hd hc
  refine ⟨m, hexec, fun t ht hr => ?_⟩
  obtain ⟨hsamples, hother⟩ := hm t ht hr
  change ∀ j < 4, _ at hsamples
  exact ⟨hsamples 0 (by decide), hsamples 1 (by decide), hsamples 2 (by decide), hsamples 3 (by decide), hother⟩

/-- Settles O19: the word's two lanes are the two halves of the statement. -/
theorem d16x2WritesTwoSamples : Obligations.D16x2WritesTwoSamples := by
  intro f0 wi w s hd hc
  obtain ⟨m, hexec, hm⟩ := exec_dataWord_writesSums (i := .d16x2 f0 wi w) nofun hd hc
  refine ⟨m, hexec, fun t ht hr => ?_⟩
  obtain ⟨hsamples, hother⟩ := hm t ht hr
  change ∀ j < 2, _ at hsamples
  exact ⟨hsamples 0 (by decide), hsamples 1 (by decide), hother⟩

/-- Settles O20: the word is its one lane. -/
theorem d32x1WritesOneSample : Obligations.D32x1WritesOneSample := by
  intro f0 wi w s hd hc
  obtain ⟨m, hexec, hm⟩ := exec_dataWord_writesSums (i := .d32x1 f0 wi w) nofun hd hc
  refine ⟨m, hexec, fun t ht hr => ?_⟩
  obtain ⟨hsamples, hother⟩ := hm t ht hr
  change ∀ j < 1, _ at hsamples
  exact ⟨hsamples 0 (by decide), hother⟩

/-- Settles O24: the lane `target - ACC` makes `target` the running sum, which O20 writes; AdvanceWord keeps the
flags. -/
theorem wrapAroundReachesEverySample : Obligations.WrapAroundReachesEverySample := by
  intro f0 wi target s hd hc
  obtain ⟨m, hexec, hm⟩ := d32x1WritesOneSample f0 wi (target - s.acc) s hd hc
  have hsum : s.acc + (target - s.acc) = target := by rw [BitVec.add_comm, BitVec.sub_add_cancel]
  simp only [hsum] at hexec hm
  rw [advanceWord_eq] at hexec
  have hsample : ∀ t : State, t.mem = m → t.resets = s.resets → sampleEntry t s.cnt.toNat = target :=
    fun t ht hr => (hm t ht hr).1
  exact ⟨_, hexec, rfl, hsample _ rfl rfl, rfl, rfl, rfl, rfl⟩

/-! ### A surplus lane -/

/-- Where live lane `n` is surplus, the live lanes before it are integrated and the run goes to FINISH (R122, R127). -/
theorem exec_dataWord_surplus {i : Instr} {n : Nat} (hn : n < (liveLanes i s).length)
    (hc : s.cnt.toNat + n = s.nexpL.toNat) :
    exec i s = .next (surplus Config.build (integrateAll ((liveLanes i s).take n) { s with d0p := false })) := by
  have hi : dataLanes i ≠ [] := fun h => by simp [liveLanes, h] at hn
  rw [exec_dataWord hi, processLanes_lanesLeft hi]
  exact congrArg Host.Outcome.next (processLanes_surplus rfl hn hc)

/-- Settles O22: up to the surplus lane the samples are those of the integrated lanes, and `surplus` leaves them and the
cursor. -/
theorem dataWordStopsAtSurplusLane : Obligations.DataWordStopsAtSurplusLane := by
  intro i s n hn hc
  refine ⟨_, exec_dataWord_surplus hn hc, ?_⟩
  have hlen : ((liveLanes i s).take n).length = n := List.length_take_of_le hn.le
  have hroom : s.cnt.toNat + ((liveLanes i s).take n).length ≤ 65535 := by have := s.nexpL.isLt; omega
  have hcnt : (integrateAll ((liveLanes i s).take n) { s with d0p := false }).cnt = s.nexpL := by
    refine BitVec.eq_of_toNat_eq ?_
    rw [integrateAll_cnt_toNat (s := { s with d0p := false }) (Nat.lt_succ_of_le hroom), hlen]
    exact hc
  refine ⟨integrateAll_acc _ _, hcnt, integrateAll_d0p _ _, fun j hj => ?_, integrateAll_fi _ _, integrateAll_wi _ _,
    rfl, by rw [surplus_errLen, integrateAll_errLen]⟩
  have hsample := sampleEntry_integrateAll ((liveLanes i s).take n) (s := { s with d0p := false }) hroom
    (by rw [hlen]; exact hj)
  rw [List.take_take, Nat.min_eq_left (Nat.succ_le_of_lt hj)] at hsample
  exact hsample

end Sys2Proof.Machine
end

section
/-! SUPPORT. The closed form of a run (R129): the engine's own walk from an accepted START to FINISH, in which every
lane of the body is integrated or one of them is surplus, and what that leaves in CNT, ACC, X0, Xn and the samples. -/

namespace Sys2Proof.Machine

variable {s t u v : State}

/-! ### Running sums -/

/-- A running sum reads no difference after its own. -/
theorem runningSum_take (x : Word) (ds : List Word) {k n : Nat} (h : k ≤ n) :
    runningSum x (ds.take n) k = runningSum x ds k := by
  rw [runningSum, List.take_take, Nat.min_eq_left h, runningSum]

/-- Where one sample exists and is the accumulator, integration goes on from it: entry `k` is the `k`-th running sum
(R121, R129). -/
theorem sampleEntry_integrateAll_first (ds : List Word) (hcnt : v.cnt = 1) (hfirst : sampleEntry v 0 = v.acc)
    (hroom : 1 + ds.length ≤ 65535) {k : Nat} (hk : k < 1 + ds.length) :
    sampleEntry (integrateAll ds v) k = runningSum v.acc ds k := by
  have hone : v.cnt.toNat = 1 := by rw [hcnt]; rfl
  cases k with
  | zero =>
    have hkept : sampleEntry (integrateAll ds v) 0 = sampleEntry v 0 :=
      sampleEntry_congr (integrateAll_resets ds v) fun a _ ha =>
        read_integrateAll_other ds (by rw [hone]; exact hroom) (.inl (by rw [hone]; exact ha))
    rw [hkept, hfirst]
    rfl
  | succ j =>
    have hsample := sampleEntry_integrateAll ds (s := v) (j := j) (by rw [hone]; exact hroom) (by omega)
    rw [hone, Nat.add_comm 1 j] at hsample
    exact hsample

/-! ### The lanes that are integrated, with or without a surplus -/

/-- From `v` to `t` those of the lanes `ls` that were wanted were integrated: as many as NEXP_L leaves room for. -/
def WantedDone (v : State) (ls : List Word) (t : State) : Prop :=
  ∃ d0p fi wi phase cw draws errLen,
    t = { withWalk (integrateAll ((lanesLeft v ls).take (v.nexpL.toNat - v.cnt.toNat)) v) d0p fi wi phase cw draws with
          errLen := errLen }

theorem Integrated.wantedDone {ls : List Word} (h : Integrated v ls t) : WantedDone v ls t := by
  obtain ⟨hroom, he⟩ := h
  rw [WantedDone, List.take_of_length_le (by omega)]
  exact ⟨v.d0p && ls.isEmpty, t.fi, t.wi, t.phase, t.cw, t.draws, (integrateAll (lanesLeft v ls) v).errLen, he⟩

theorem StoppedInside.wantedDone {ls : List Word} {ps : List (Nat × Nat)} (h : StoppedInside v ls ps t) :
    WantedDone v ls t := by
  obtain ⟨n, -, hc, -, -, he⟩ := h
  rw [WantedDone, show v.nexpL.toNat - v.cnt.toNat = n by omega]
  exact ⟨_, _, _, _, _, _, _, he⟩

/-! ### From START to the constants of frame 0 -/

/-- The state after frame 0's control word (R101). -/
def afterControl (s : State) : State := latchControlWord (bodyWord s 0 0) (tick (acceptStart s))

/-- The state after frame 0's constants (R102). -/
def afterConstants (s : State) : State :=
  loadXn (bodyWord s 0 2) (loadX0 Config.build (bodyWord s 0 1) (tick (afterControl s)))

/-- The first two engine steps of a run over a body with a frame (R101, R102). -/
theorem engineSteps_afterConstants (hn : s.bodyLenCfg.toNat / 64 ≠ 0) :
    engineSteps 2 (acceptStart s) = .next (afterConstants s) := by
  have hframe : (acceptStart s).fi.toNat ≠ (acceptStart s).nfrL.toNat := by rw [acceptStart_nfrL]; exact hn.symm
  have hcontrol : engineStep (acceptStart s) = .next (afterControl s) := engineStep_frame rfl hframe
  have hconstants : engineStep (afterControl s) = .next (afterConstants s) := engineStep_ic rfl
  exact engineSteps_add (engineSteps_one hcontrol) (engineSteps_one hconstants)

/-- With no sample expected X0 is surplus (R122). -/
theorem afterConstants_surplus (hx : s.nexpCfg.toNat = 0) :
    afterConstants s =
      { afterControl s with
        x0 := bodyWord s 0 1, xn := bodyWord s 0 2, acc := bodyWord s 0 1, d0p := Config.build.d0 == .skip
        errLen := Config.build.surplus == .strict, phase := .finish, draws := s.draws + 2 } := by
  rw [afterConstants, loadX0_surplus (s := tick (afterControl s)) hx.le]
  rfl

/-- With a sample expected X0 is sample 0, and the walk goes on at frame 0's first data word (R102). -/
theorem afterConstants_wanted (hx : s.nexpCfg.toNat ≠ 0) :
    afterConstants s =
      { afterControl s with
        x0 := bodyWord s 0 1, xn := bodyWord s 0 2, acc := bodyWord s 0 1, d0p := Config.build.d0 == .skip
        mem := s.mem.writeWord (sampleAddr 0) (bodyWord s 0 1), cnt := 1, wi := 3, phase := .word
        draws := s.draws + 2 } := by
  rw [afterConstants, loadX0_wanted (s := tick (afterControl s)) (Nat.pos_of_ne_zero hx)]
  rfl

theorem SameBody.trans (h1 : SameBody s v) (h2 : SameBody v u) : SameBody s u :=
  ⟨h2.1.trans h1.1, fun a ha => (h2.2 a ha).trans (h1.2 a ha)⟩

theorem afterConstants_sameBody (s : State) : SameBody s (afterConstants s) :=
  SameBody.trans (v := afterControl s) ⟨rfl, fun _ _ => rfl⟩ (SameBody.engineStep (engineStep_ic rfl))

/-! ### The differences a run integrates -/

/-- The differences of R129 that are wanted after X0: the first NEXP - 1 of them. -/
def wantedDifferences (s : State) : List Word :=
  (differences Config.build (bodyLanes s (s.bodyLenCfg.toNat / 64))).take (s.nexpCfg.toNat - 1)

theorem wantedDifferences_length_lt (s : State) : 1 + (wantedDifferences s).length < 65536 := by
  have := s.nexpCfg.isLt
  rw [wantedDifferences, List.length_take]
  omega

/-- The count of R129: X0 and the wanted differences. -/
theorem expectedCount_eq (hn : s.bodyLenCfg.toNat / 64 ≠ 0) (hx : s.nexpCfg.toNat ≠ 0) :
    expectedCount Config.build s s.nexpCfg.toNat (s.bodyLenCfg.toNat / 64) = 1 + (wantedDifferences s).length := by
  rw [expectedCount, if_neg hn, wantedDifferences, List.length_take]
  omega

theorem expectedSample_eq {k : Nat} (hk : k < 1 + (wantedDifferences s).length) :
    expectedSample Config.build s (s.bodyLenCfg.toNat / 64) k =
      runningSum (bodyWord s 0 1) (wantedDifferences s) k := by
  rw [wantedDifferences, List.length_take] at hk
  rw [expectedSample, wantedDifferences, runningSum_take _ _ (by omega)]

/-- The accumulator of R129 is the sum of X0 and all wanted differences. -/
theorem expectedAcc_eq (hn : s.bodyLenCfg.toNat / 64 ≠ 0) (hx : s.nexpCfg.toNat ≠ 0) :
    expectedAcc Config.build s s.nexpCfg.toNat (s.bodyLenCfg.toNat / 64) =
      (wantedDifferences s).foldl (· + ·) (bodyWord s 0 1) := by
  rw [expectedAcc, if_neg hn, expectedCount_eq hn hx, expectedSample_eq (by omega), runningSum, Nat.add_sub_cancel_left,
    List.take_length]

/-- What D0P leaves of the lanes after the constants is `D` of R129. -/
theorem lanesLeft_afterConstants {α : Type} (hx : s.nexpCfg.toNat ≠ 0) (ls : List α) :
    lanesLeft (afterConstants s) ls = differences Config.build ls := by
  rw [afterConstants_wanted hx, lanesLeft, differences]
  cases Config.build.d0 with
  | integrate => rfl
  | skip => exact List.drop_one.symm

theorem take_lanesLeft_afterConstants (hx : s.nexpCfg.toNat ≠ 0) :
    (lanesLeft (afterConstants s) (bodyLanes s (s.bodyLenCfg.toNat / 64))).take
      ((afterConstants s).nexpL.toNat - (afterConstants s).cnt.toNat) = wantedDifferences s := by
  rw [lanesLeft_afterConstants hx, afterConstants_wanted hx]
  rfl

/-! ### From the constants to FINISH -/

theorem bodyLanes_succ (s : State) (n : Nat) :
    bodyLanes s (n + 1) = lanesOfWords s 0 (List.range' 3 13) ++ (List.range' 1 n).flatMap (frameLanes s) := by
  rw [bodyLanes, List.range_eq_range', List.range'_succ, List.flatMap_cons]
  rfl

theorem bodySites_succ (s : State) (n : Nat) :
    bodySites s (n + 1) = sitesOfWords s 0 (List.range' 3 13) ++ (List.range' 1 n).flatMap (frameSites s) := by
  rw [bodySites, List.range_eq_range', List.range'_succ, List.flatMap_cons]
  rfl

/-- The walk over all data words (R107): every lane of the body is integrated and the cursor ends behind the last frame,
or one lane is surplus and the cursor stays at its word (R106, R122). -/
theorem walk_body {nfr : Nat} (hnfr : s.bodyLenCfg.toNat / 64 = nfr + 1) (hx : s.nexpCfg.toNat ≠ 0) :
    ∃ n t, engineSteps n (afterConstants s) = .next t ∧
      ((Integrated (afterConstants s) (bodyLanes s (nfr + 1)) t ∧ t.phase = .finish ∧ t.fi.toNat = nfr + 1 ∧ t.wi = 0) ∨
        StoppedInside (afterConstants s) (bodyLanes s (nfr + 1)) (bodySites s (nfr + 1)) t) := by
  have hmax : nfr + 1 ≤ 1023 := by rw [← hnfr, ← acceptStart_nfrL]; exact acceptStart_nfrL_le s
  have hv := afterConstants_wanted hx
  have hbody := afterConstants_sameBody s
  have hnfrL : (afterConstants s).nfrL.toNat = nfr + 1 := by
    rw [hv, ← hnfr, ← acceptStart_nfrL]
    rfl
  rw [bodyLanes_succ, bodySites_succ]
  have hlen := sitesOfWords_length s 0 (List.range' 3 13)
  obtain ⟨n, t, -, ht, hend⟩ := walk_words s 0 (by omega) 13 3 (afterConstants s) rfl (by omega)
    (by rw [hv]) (by rw [hv]; rfl) (fun _ => le_rfl) (by rw [hv]; rfl) (by rw [hv]; rfl) hbody
    (by rw [hv]; exact Nat.pos_of_ne_zero hx)
  rcases hend with ⟨hall, hphase, hfi, hwi⟩ | hstop
  · obtain ⟨m, u, -, hu, hrest⟩ := walk_frames s (nfr + 1) hmax nfr 1 t (by omega) le_rfl hphase hfi hwi
      (hall.nfrL_eq.symm ▸ hnfrL) (hbody.after hall) hall.cnt_le
    refine ⟨n + m, u, engineSteps_add ht hu, hrest.imp ?_ (hall.stop hlen)⟩
    exact fun ⟨hlater, hdone⟩ => ⟨hall.trans hlater, hdone⟩
  · exact ⟨n, t, ht, .inr (hstop.append hlen)⟩

/-! ### The closed form -/

/-- `t` holds the closed form of a run that an accepted START in `s` launched (R129). -/
structure HoldsClosedForm (s t : State) : Prop where
  cnt : t.cnt.toNat = expectedCount Config.build s s.nexpCfg.toNat (s.bodyLenCfg.toNat / 64)
  samples : ∀ k < t.cnt.toNat, sampleEntry t k = expectedSample Config.build s (s.bodyLenCfg.toNat / 64) k
  acc : t.acc = expectedAcc Config.build s s.nexpCfg.toNat (s.bodyLenCfg.toNat / 64)
  constants : s.bodyLenCfg.toNat / 64 ≠ 0 → t.x0 = bodyWord s 0 1 ∧ t.xn = bodyWord s 0 2
  noConstants : s.bodyLenCfg.toNat / 64 = 0 → t.x0 = 0 ∧ t.xn = 0

/-- The final checks and the completion leave the output (R140 to R143). -/
theorem HoldsClosedForm.finishRun (h : HoldsClosedForm s t) : HoldsClosedForm s (finishRun (tick t)) :=
  ⟨h.cnt, h.samples, h.acc, h.constants, h.noConstants⟩

theorem HoldsClosedForm.sameRun (h : HoldsClosedForm s t) (hs : SameRun t u) : HoldsClosedForm s u := by
  refine ⟨?_, ?_, ?_, ?_, ?_⟩
  · rw [hs.cnt_eq]; exact h.cnt
  · simp only [hs.cnt_eq, hs.sampleEntry_eq]; exact h.samples
  · rw [hs.acc_eq]; exact h.acc
  · rw [hs.x0_eq, hs.xn_eq]; exact h.constants
  · rw [hs.x0_eq, hs.xn_eq]; exact h.noConstants

/-- An empty body: everything as START cleared it (R151). -/
theorem holdsClosedForm_empty (hn : s.bodyLenCfg.toNat / 64 = 0) :
    HoldsClosedForm s (endOfBody (tick (acceptStart s))) := by
  refine ⟨?_, fun k hk => absurd hk (Nat.not_lt_zero k), ?_, fun h => absurd hn h, fun _ => ⟨rfl, rfl⟩⟩
  · rw [expectedCount, if_pos hn]; rfl
  · rw [expectedAcc, if_pos hn]; rfl

/-- No sample expected: X0 is in the accumulator and in no sample. -/
theorem holdsClosedForm_surplusX0 (hn : s.bodyLenCfg.toNat / 64 ≠ 0) (hx : s.nexpCfg.toNat = 0) :
    HoldsClosedForm s (afterConstants s) := by
  have hcount : expectedCount Config.build s s.nexpCfg.toNat (s.bodyLenCfg.toNat / 64) = 0 := by
    rw [expectedCount, if_neg hn, hx, Nat.zero_min]
  rw [afterConstants_surplus hx]
  refine ⟨hcount.symm, fun k hk => absurd hk (Nat.not_lt_zero k), ?_, fun _ => ⟨rfl, rfl⟩, fun h => absurd h hn⟩
  rw [expectedAcc, if_neg hn, hcount]
  rfl

/-- X0 and the wanted differences: the samples are their running sums, and the accumulator is the last one. -/
theorem holdsClosedForm_walk (hn : s.bodyLenCfg.toNat / 64 ≠ 0) (hx : s.nexpCfg.toNat ≠ 0)
    (h : WantedDone (afterConstants s) (bodyLanes s (s.bodyLenCfg.toNat / 64)) t) : HoldsClosedForm s t := by
  obtain ⟨d0p, fi, wi, phase, cw, draws, errLen, rfl⟩ := h
  rw [take_lanesLeft_afterConstants hx]
  have hv := afterConstants_wanted hx
  have hcnt : (afterConstants s).cnt = 1 := by rw [hv]
  have hacc : (afterConstants s).acc = bodyWord s 0 1 := by rw [hv]
  have hfirst : sampleEntry (afterConstants s) 0 = (afterConstants s).acc := by
    rw [hacc]; exact readWord_of_write (by rw [hv])
  have hroom := wantedDifferences_length_lt s
  have hend : (integrateAll (wantedDifferences s) (afterConstants s)).cnt.toNat = 1 + (wantedDifferences s).length := by
    rw [integrateAll_cnt_toNat] <;> rw [hcnt]
    · rfl
    · exact hroom
  refine ⟨hend.trans (expectedCount_eq hn hx).symm, fun k hk => ?_, ?_, fun _ => ⟨?_, ?_⟩, fun h => absurd h hn⟩
  · have hk : k < 1 + (wantedDifferences s).length := hend ▸ hk
    rw [expectedSample_eq hk, ← hacc]
    exact sampleEntry_integrateAll_first _ hcnt hfirst (by omega) hk
  · rw [expectedAcc_eq hn hx, ← hacc]
    exact integrateAll_acc _ _
  · exact (integrateAll_x0 _ _).trans (by rw [hv])
  · exact (integrateAll_xn _ _).trans (by rw [hv])

/-- The engine's own walk from an accepted START reaches FINISH with the closed form. -/
theorem acceptStart_finishes (s : State) :
    ∃ n t, engineSteps n (acceptStart s) = .next t ∧ t.phase = .finish ∧ HoldsClosedForm s t := by
  by_cases hn : s.bodyLenCfg.toNat / 64 = 0
  · have hend : (acceptStart s).fi.toNat = (acceptStart s).nfrL.toNat := by rw [acceptStart_nfrL, hn]; rfl
    exact ⟨1, _, engineSteps_one (engineStep_end rfl hend), rfl, holdsClosedForm_empty hn⟩
  · have hstart := engineSteps_afterConstants hn
    by_cases hx : s.nexpCfg.toNat = 0
    · exact ⟨2, _, hstart, by rw [afterConstants_surplus hx], holdsClosedForm_surplusX0 hn hx⟩
    · obtain ⟨nfr, hnfr⟩ := Nat.exists_eq_succ_of_ne_zero hn
      obtain ⟨n, t, ht, hend⟩ := walk_body hnfr hx
      refine ⟨2 + n, t, engineSteps_add hstart ht, ?_⟩
      rcases hend with ⟨hall, hphase, -⟩ | hstop
      · exact ⟨hphase, holdsClosedForm_walk hn hx (hnfr ▸ hall.wantedDone)⟩
      · exact ⟨hstop.phase_eq, holdsClosedForm_walk hn hx (hnfr ▸ hstop.wantedDone)⟩

/-- Settles O59: the engine's own steps end with the closed form, harmless host accesses among them change none of it,
and a sample of any state on the way is still there at the end. -/
theorem runComputesClosedForm : Obligations.RunComputesClosedForm := by
  intro ignored s hp hlen hh
  obtain ⟨n, t, ht, hfinish, hform⟩ := acceptStart_finishes s
  obtain ⟨m, w, hends, hsame, -, hkeeps⟩ := run_with_host (v := acceptStart s)
    (engineSteps_add ht (engineSteps_one (engineStep_finish hfinish))) ⟨rfl, rfl⟩ (.refl _) nofun rfl hh
  have hw := hform.finishRun.sameRun hsame
  refine ⟨acceptStart s, w, m, exec_start_accepted hp hlen ignored, hends, hw.cnt, fun j hj x hx k hk => ?_, hw.acc,
    hw.constants, hw.noConstants⟩
  obtain ⟨hle, hkept⟩ := hkeeps j hj x hx
  rw [← hkept k hk]
  exact hw.samples k (hk.trans_le hle)

end Sys2Proof.Machine
end

section
/-! SUPPORT. FINISH (R140 to R143), and how a run ends: the error bits and the stop point at the end of the engine's own
walk, with a surplus and without (R145, R177). -/

namespace Sys2Proof.Machine

variable {s t v : State} {b : Config.Build} {nexp nfr : Nat}

/-! ### The final checks -/

theorem lengthShort_eq (s : State) : lengthShort s = decide (s.cnt.toNat < s.nexpL.toNat) := rfl

theorem integrityBad_eq (s : State) :
    integrityBad s = (decide (1 ≤ s.cnt.toNat) && decide (s.acc ≠ s.xn)) := by
  have hpos : 1 ≤ s.cnt.toNat ↔ s.cnt ≠ 0 := by
    rw [Nat.one_le_iff_ne_zero, ne_eq, ne_eq, ← BitVec.toNat_inj]
    rfl
  rw [integrityBad, Bool.eq_iff_iff]
  simp only [Bool.and_eq_true, bne_iff_ne, decide_eq_true_eq, hpos]

/-- FINISH makes both checks and completes the run (R140 to R143). -/
theorem finishRun_eq (s : State) :
    finishRun s =
      { s with
        errLen := s.errLen || decide (s.cnt.toNat < s.nexpL.toNat)
        errInteg := s.errInteg || (decide (1 ≤ s.cnt.toNat) && decide (s.acc ≠ s.xn))
        phase := .idle, done := true } := by
  rw [← lengthShort_eq, ← integrityBad_eq]
  rfl

/-- Settles O26: the step is `finishRun`, in the state with its turn taken. -/
theorem finishChecksAndCompletes : Obligations.FinishChecksAndCompletes := by
  intro s hT hp
  rw [step_engine hT, engineStep_finish (s := withTurns s.turns.tail s) hp, finishRun_eq]
  rfl

/-! ### Whether a run meets a surplus -/

theorem hasSurplus_iff :
    hasSurplus b s nexp nfr = true ↔ nfr ≠ 0 ∧ nexp < 1 + (differences b (bodyLanes s nfr)).length := by
  rw [hasSurplus, Bool.and_eq_true, bne_iff_ne, decide_eq_true_eq]

/-- The wanted lanes leave ERR_SIZE, ERR_INTEG and the expected count as they were (R121, R122). -/
theorem WantedDone.checks_eq {ls : List Word} (h : WantedDone v ls t) :
    t.errSize = v.errSize ∧ t.errInteg = v.errInteg ∧ t.nexpL = v.nexpL := by
  obtain ⟨_, _, _, _, _, _, _, rfl⟩ := h
  exact ⟨integrateAll_errSize _ _, integrateAll_errInteg _ _, integrateAll_nexpL _ _⟩

/-- A surplus lane sets ERR_LEN under STRICT (R122). -/
theorem StoppedInside.errLen_eq {ls : List Word} {ps : List (Nat × Nat)} (h : StoppedInside v ls ps t) :
    t.errLen = (v.errLen || Config.build.surplus == .strict) := by
  obtain ⟨_, -, -, -, -, he⟩ := h
  rw [he]

/-- Where all lanes of the body were wanted there is no surplus (R129). -/
theorem Integrated.hasSurplus_eq_false (hx : s.nexpCfg.toNat ≠ 0)
    (h : Integrated (afterConstants s) (bodyLanes s nfr) t) :
    hasSurplus Config.build s s.nexpCfg.toNat nfr = false := by
  obtain ⟨hroom, -⟩ := h
  rw [lanesLeft_afterConstants hx, afterConstants_wanted hx] at hroom
  have hroom : 1 + (differences Config.build (bodyLanes s nfr)).length ≤ s.nexpCfg.toNat := hroom
  rw [← Bool.not_eq_true, hasSurplus_iff]
  omega

/-- Where a lane of the body was not wanted there is a surplus, and the cursor stands at R177's stop point. -/
theorem StoppedInside.hasSurplus_site (hn : nfr ≠ 0) (hx : s.nexpCfg.toNat ≠ 0)
    (h : StoppedInside (afterConstants s) (bodyLanes s nfr) (bodySites s nfr) t) :
    hasSurplus Config.build s s.nexpCfg.toNat nfr = true ∧
      surplusSite Config.build s s.nexpCfg.toNat nfr = some (t.fi.toNat, t.wi.toNat) := by
  obtain ⟨n, hlt, hc, -, hsite, -⟩ := h
  rw [lanesLeft_afterConstants hx] at hlt hsite
  rw [afterConstants_wanted hx] at hc
  have hc : 1 + n = s.nexpCfg.toNat := hc
  refine ⟨hasSurplus_iff.2 ⟨hn, by omega⟩, ?_⟩
  rw [surplusSite, if_neg hx, ← hc, Nat.add_sub_cancel_left]
  exact hsite

/-! ### The state in which the walk reaches FINISH -/

/-- In `t` the walk of a run that an accepted START in `s` launched has reached FINISH: ERR_LEN reports a surplus under
STRICT, the checks are still to come, and the cursor stands at the end of the body or at the surplus (R122, R177). -/
structure StopsAsExpected (s t : State) : Prop where
  errSize : t.errSize = false
  errInteg : t.errInteg = false
  nexpL : t.nexpL = s.nexpCfg
  errLen : t.errLen =
    (hasSurplus Config.build s s.nexpCfg.toNat (s.bodyLenCfg.toNat / 64) && Config.build.surplus == .strict)
  bodyEnd : hasSurplus Config.build s s.nexpCfg.toNat (s.bodyLenCfg.toNat / 64) = false →
    t.fi.toNat = s.bodyLenCfg.toNat / 64 ∧ t.wi = 0
  site : hasSurplus Config.build s s.nexpCfg.toNat (s.bodyLenCfg.toNat / 64) = true →
    surplusSite Config.build s s.nexpCfg.toNat (s.bodyLenCfg.toNat / 64) = some (t.fi.toNat, t.wi.toNat)

/-- An empty body ends where it starts, with no surplus (R106). -/
theorem stopsAsExpected_empty (hn : s.bodyLenCfg.toNat / 64 = 0) :
    StopsAsExpected s (endOfBody (tick (acceptStart s))) := by
  have hnone : hasSurplus Config.build s s.nexpCfg.toNat (s.bodyLenCfg.toNat / 64) = false := by
    rw [← Bool.not_eq_true, hasSurplus_iff]
    exact fun ⟨hpos, _⟩ => hpos hn
  refine ⟨rfl, rfl, rfl, ?_, fun _ => ⟨hn.symm, rfl⟩, fun h => ?_⟩
  · rw [hnone]; rfl
  · rw [hnone] at h; contradiction

/-- With no sample expected X0 is the surplus, and the cursor stays at frame 0's word 1 (R102, R177). -/
theorem stopsAsExpected_surplusX0 (hn : s.bodyLenCfg.toNat / 64 ≠ 0) (hx : s.nexpCfg.toNat = 0) :
    StopsAsExpected s (afterConstants s) := by
  have hsome : hasSurplus Config.build s s.nexpCfg.toNat (s.bodyLenCfg.toNat / 64) = true :=
    hasSurplus_iff.2 ⟨hn, by omega⟩
  rw [afterConstants_surplus hx]
  refine ⟨rfl, rfl, rfl, ?_, fun h => ?_, fun _ => if_pos hx⟩
  · rw [hsome]; rfl
  · rw [hsome] at h; contradiction

/-- Every lane wanted: the walk ends behind the last frame (R106). -/
theorem stopsAsExpected_integrated (hx : s.nexpCfg.toNat ≠ 0)
    (h : Integrated (afterConstants s) (bodyLanes s (s.bodyLenCfg.toNat / 64)) t)
    (hfi : t.fi.toNat = s.bodyLenCfg.toNat / 64) (hwi : t.wi = 0) : StopsAsExpected s t := by
  obtain ⟨hsize, hinteg, hnexp⟩ := h.wantedDone.checks_eq
  have hlen := h.errLen_eq
  have hnone := h.hasSurplus_eq_false hx
  rw [afterConstants_wanted hx] at hsize hinteg hnexp hlen
  refine ⟨hsize, hinteg, hnexp, ?_, fun _ => ⟨hfi, hwi⟩, fun h => ?_⟩
  · rw [hnone]; exact hlen
  · rw [hnone] at h; contradiction

/-- A lane not wanted: the walk stops at its word (R122, R127). -/
theorem stopsAsExpected_stoppedInside (hn : s.bodyLenCfg.toNat / 64 ≠ 0) (hx : s.nexpCfg.toNat ≠ 0)
    (h : StoppedInside (afterConstants s) (bodyLanes s (s.bodyLenCfg.toNat / 64))
      (bodySites s (s.bodyLenCfg.toNat / 64)) t) : StopsAsExpected s t := by
  obtain ⟨hsize, hinteg, hnexp⟩ := h.wantedDone.checks_eq
  have hlen := h.errLen_eq
  obtain ⟨hsome, hsite⟩ := h.hasSurplus_site hn hx
  rw [afterConstants_wanted hx] at hsize hinteg hnexp hlen
  refine ⟨hsize, hinteg, hnexp, ?_, fun h => ?_, fun _ => hsite⟩
  · rw [hsome]; exact hlen
  · rw [hsome] at h; contradiction

/-- The engine's own walk from an accepted START reaches FINISH as expected. -/
theorem acceptStart_stopsAsExpected (s : State) :
    ∃ n t, engineSteps n (acceptStart s) = .next t ∧ t.phase = .finish ∧ StopsAsExpected s t := by
  by_cases hn : s.bodyLenCfg.toNat / 64 = 0
  · have hend : (acceptStart s).fi.toNat = (acceptStart s).nfrL.toNat := by rw [acceptStart_nfrL, hn]; rfl
    exact ⟨1, _, engineSteps_one (engineStep_end rfl hend), rfl, stopsAsExpected_empty hn⟩
  · have hstart := engineSteps_afterConstants hn
    by_cases hx : s.nexpCfg.toNat = 0
    · exact ⟨2, _, hstart, by rw [afterConstants_surplus hx], stopsAsExpected_surplusX0 hn hx⟩
    · obtain ⟨nfr, hnfr⟩ := Nat.exists_eq_succ_of_ne_zero hn
      obtain ⟨n, t, ht, hend⟩ := walk_body hnfr hx
      rw [← Nat.succ_eq_add_one, ← hnfr] at hend
      refine ⟨2 + n, t, engineSteps_add hstart ht, ?_⟩
      rcases hend with ⟨hall, hphase, hfi, hwi⟩ | hstop
      · exact ⟨hphase, stopsAsExpected_integrated hx hall hfi hwi⟩
      · exact ⟨hstop.phase_eq, stopsAsExpected_stoppedInside hn hx hstop⟩

/-! ### The end of the run -/

/-- The error bits and the stop point after FINISH, by the count, the accumulator and Xn that `w` holds itself. -/
structure EndsAsExpected (s w : State) : Prop where
  errSize : w.errSize = false
  errLen : w.errLen = true ↔ w.cnt.toNat < s.nexpCfg.toNat ∨
    (hasSurplus Config.build s s.nexpCfg.toNat (s.bodyLenCfg.toNat / 64) = true ∧ Config.build.surplus = .strict)
  errInteg : w.errInteg = true ↔ 1 ≤ w.cnt.toNat ∧ w.acc ≠ w.xn
  bodyEnd : hasSurplus Config.build s s.nexpCfg.toNat (s.bodyLenCfg.toNat / 64) = false →
    w.fi.toNat = s.bodyLenCfg.toNat / 64 ∧ w.wi = 0
  site : hasSurplus Config.build s s.nexpCfg.toNat (s.bodyLenCfg.toNat / 64) = true →
    surplusSite Config.build s s.nexpCfg.toNat (s.bodyLenCfg.toNat / 64) = some (w.fi.toNat, w.wi.toNat)

/-- FINISH adds the length check to ERR_LEN, sets ERR_INTEG by its own check, and leaves the cursor (R141, R142). -/
theorem StopsAsExpected.finishRun (h : StopsAsExpected s t) : EndsAsExpected s (finishRun (tick t)) := by
  rw [finishRun_eq]
  refine ⟨h.errSize, ?_, ?_, h.bodyEnd, h.site⟩
  · simp only [tick_errLen, h.errLen, tick_nexpL, h.nexpL, Bool.or_eq_true, Bool.and_eq_true, beq_iff_eq,
      decide_eq_true_eq]
    exact or_comm
  · simp only [tick_errInteg, h.errInteg, Bool.false_or, Bool.and_eq_true, decide_eq_true_eq]

theorem EndsAsExpected.sameRun {w : State} (h : EndsAsExpected s t) (hs : SameRun t w) : EndsAsExpected s w := by
  refine ⟨?_, ?_, ?_, ?_, ?_⟩
  · rw [hs.errSize_eq]; exact h.errSize
  · rw [hs.errLen_eq, hs.cnt_eq]; exact h.errLen
  · rw [hs.errInteg_eq, hs.cnt_eq, hs.acc_eq, hs.xn_eq]; exact h.errInteg
  · rw [hs.fi_eq, hs.wi_eq]; exact h.bodyEnd
  · rw [hs.fi_eq, hs.wi_eq]; exact h.site

/-- Every accepted run ends as expected, whatever harmless turns fall between the engine's steps (R145, R204). -/
theorem acceptStart_endsAsExpected (hh : ∀ x ∈ s.turns, x.isHarmless = true) :
    ∃ n w, EndsAt (acceptStart s) n w ∧ EndsAsExpected s w := by
  obtain ⟨n, t, ht, hfinish, hstop⟩ := acceptStart_stopsAsExpected s
  obtain ⟨m, w, hends, hsame, -⟩ := run_with_host (v := acceptStart s)
    (engineSteps_add ht (engineSteps_one (engineStep_finish hfinish))) ⟨rfl, rfl⟩ (.refl _) nofun rfl hh
  exact ⟨m, w, hends, hstop.finishRun.sameRun hsame⟩

/-- A sample is expected only of a body with a frame, and the accumulator of R129 is then the last one. -/
theorem expectedAcc_of_pos (h : 1 ≤ expectedCount b s nexp nfr) :
    nfr ≠ 0 ∧ expectedAcc b s nexp nfr = expectedSample b s nfr (expectedCount b s nexp nfr - 1) := by
  have hn : nfr ≠ 0 := by
    rintro rfl
    rw [expectedCount, if_pos rfl] at h
    omega
  exact ⟨hn, if_neg hn⟩

/-- Settles O60: FINISH compares the closed form of R129, which O59 gives for the same end, and the cursor stands where
the walk stopped. -/
theorem runOutcome : Obligations.RunOutcome := by
  intro ignored s hp hlen hh
  have hstart := exec_start_accepted hp hlen ignored
  obtain ⟨u, w, n, hu, hends, hcnt, -, hacc, hconstants, -⟩ := runComputesClosedForm ignored s hp hlen hh
  obtain rfl : acceptStart s = u := Host.Outcome.next.inj (hstart.symm.trans hu)
  obtain ⟨m, w', hends', hout⟩ := acceptStart_endsAsExpected hh
  obtain ⟨-, rfl⟩ := hends.unique hends'
  refine ⟨acceptStart s, w, n, hstart, hends, hout.errSize, ?_, ?_, hout.bodyEnd, hout.site⟩
  · rw [hout.errLen, hcnt]
  · rw [hout.errInteg, hcnt]
    refine and_congr_right fun hpos => ?_
    obtain ⟨hn, hlast⟩ := expectedAcc_of_pos hpos
    obtain ⟨-, hxn⟩ := hconstants hn
    rw [hacc, hlast, hxn]

end Sys2Proof.Machine
end

section
/-! SUPPORT. The commands written to CTRL (R150 to R155) and the host's accesses to the registers (R22, R156 to R159):
one rule for each command and for each direction of a register access, and the obligations about them. -/

namespace Sys2Proof.Machine

variable {s : State} {a : Addr} {r : Register}

/-! ### Commands -/

theorem exec_start_eq (ignored : BitVec 30) (s : State) : exec (.start ignored) s = .next (startRun s) := rfl

/-- START is ignored while the engine works (R153). -/
theorem exec_start_busy (hp : s.phase ≠ .idle) (ignored : BitVec 30) : exec (.start ignored) s = .next s := by
  rw [exec_start_eq, startRun, if_pos (busy_iff.2 hp)]

/-- A START in IDLE without whole frames is rejected (R152). -/
theorem exec_start_rejected (hp : s.phase = .idle) (hlen : s.bodyLenCfg.toNat % 64 ≠ 0) (ignored : BitVec 30) :
    exec (.start ignored) s = .next (rejectStart s) := by
  rw [exec_start_eq, startRun, if_neg (by simp [busy_iff, hp]), if_pos (badBodyLen_iff.2 hlen)]

/-- What a rejected START leaves: DONE and ERR_SIZE alone are set, and the run's registers are 0 (R151, R152). -/
theorem rejectStart_eq (hp : s.phase = .idle) :
    rejectStart s =
      { s with
        done := true, errSize := true, errLen := false, errInteg := false
        x0 := 0, xn := 0, acc := 0, cnt := 0, cw := 0, fi := 0, wi := 0, d0p := false
        nexpL := s.nexpCfg, nfrL := 0 } := by
  simp only [rejectStart, complete, clearRun, hp]

/-- Settles O28, by the two tests of START: busy, then the body length. -/
theorem startBeginsARun : Obligations.StartBeginsARun := by
  intro ignored s
  refine ⟨fun hp => exec_start_busy hp ignored, fun hp hlen => ?_, fun hp hlen => ?_⟩
  · rw [exec_start_rejected hp hlen, rejectStart_eq hp]
  · rw [exec_start_accepted hp hlen]
    rfl

/-- Settles O29: SRST is `softReset`, and `exec` does not read its START bit. -/
theorem srstResetsRegisters : Obligations.SrstResetsRegisters := fun _ _ _ => rfl

/-- Settles O30: CTRL_NOP answers the state it is given. -/
theorem ctrlNopChangesNothing : Obligations.CtrlNopChangesNothing := fun _ _ => rfl

/-! ### Register accesses -/

/-- The word addresses of the register block (R22, R34). -/
def registerAddrs : List Addr :=
  [0x00, 0x04, 0x08, 0x0C, 0x10, 0x14, 0x18, 0x1C, 0x20, 0x24, 0x28, 0x2C, 0x30, 0x34, 0x38, 0x3C]

/-- A word address of the register block lies in its region and is aligned (R50, R52). -/
theorem registerAddrs_region_aligned :
    ∀ a ∈ registerAddrs, regionOf a = .registers ∧ a.toNat % 4 = 0 := by
  simp [registerAddrs, regionOf_registers_iff]

/-- The bus takes an aligned 32-bit read in the register block to the register there, and only delivers its value
(R158). -/
theorem hostAccess_readRegister (ha : a ∈ registerAddrs) (s : State) :
    hostAccess (.read .b32 a) s = .next (deliver (readRegister Config.build (registerAt a.toNat) s) s) := by
  obtain ⟨hr, hal⟩ := registerAddrs_region_aligned a ha
  rw [hostAccess_read (refusedShape_aligned hal), hostRead, hr]

/-- The bus takes an aligned 32-bit write in the register block to the register there. -/
theorem hostAccess_writeRegister (ha : a ∈ registerAddrs) (v : Word) (s : State) :
    hostAccess (.write .b32 a v) s = writeRegister (registerAt a.toNat) v s := by
  obtain ⟨hr, hal⟩ := registerAddrs_region_aligned a ha
  rw [hostAccess_write (refusedShape_aligned hal), hostWrite, hr]

/-! ### Reads -/

/-- Each word address of the register block with the value that a read there returns. -/
def registerReadings (s : State) : List (Addr × Word) :=
  registerAddrs.map fun a => (a, readRegister Config.build (registerAt a.toNat) s)

theorem mem_registerReadings {v : Word} :
    (a, v) ∈ registerReadings s ↔ a ∈ registerAddrs ∧ v = readRegister Config.build (registerAt a.toNat) s := by
  simp [registerReadings, eq_comm]

/-- A read of IE has DONE_IE in bit 0 and zeros above it (R28). -/
theorem readRegister_ie (b : Config.Build) (s : State) :
    readRegister b .ie s = if s.doneIe then 1 else 0 := by
  rw [readRegister]
  cases s.doneIe <;> rfl

/-- The readings, register by register: configuration and COUNT zero-extended, the views of STATUS, CURSOR and PARAM,
and 0 where there is nothing to read (R22, R34, R158). -/
theorem registerReadings_eq (s : State) :
    registerReadings s =
      [(0x00, 0), (0x04, s.nexpCfg.setWidth 32), (0x08, s.bodyLenCfg.setWidth 32), (0x0C, statusWord s),
       (0x10, if s.doneIe then 1 else 0), (0x14, s.x0), (0x18, s.xn), (0x1C, s.acc), (0x20, s.cnt.setWidth 32),
       (0x24, cursorWord s), (0x28, paramWord Config.build),
       (0x2C, 0), (0x30, 0), (0x34, 0), (0x38, 0), (0x3C, 0)] := by
  rw [← readRegister_ie Config.build s]
  rfl

/-- Settles O33: the turn is taken, and the read delivers the reading of its register. -/
theorem registerReadsReturnFields : Obligations.RegisterReadsReturnFields := by
  intro s ts a v hT hv
  obtain ⟨ha, rfl⟩ := mem_registerReadings.1 ((registerReadings_eq s).symm ▸ hv)
  rw [step_turn hT]
  exact hostAccess_readRegister ha (withTurns ts s)

/-! ### Writes -/

/-- The registers that a host write can change or that take a command (R150, R156, R157). -/
def writableRegisters : List Register := [.ctrl, .nexp, .bodyLen, .status, .ie]

/-- A write to any other register is ignored (R159). -/
theorem writeRegister_ignored (h : r ∉ writableRegisters) (v : Word) (s : State) : writeRegister r v s = .next s := by
  cases r with
  | ctrl | nexp | bodyLen | status | ie => exact absurd (by decide) h
  | x0 | xn | acc | count | cursor | param | reserved => rfl

/-- The writable registers stand below 0x14 (R22). -/
theorem registerAt_not_writable (h : 0x14 ≤ a.toNat) : registerAt a.toNat ∉ writableRegisters := by
  obtain ⟨hctrl, hnexp, hbodyLen, hstatus, hie⟩ := registerAt_address (ad := a)
  intro hmem
  have haddr : a = 0 ∨ a = 0x04 ∨ a = 0x08 ∨ a = 0x0C ∨ a = 0x10 := by
    simp only [writableRegisters, List.mem_cons, List.not_mem_nil, or_false] at hmem
    exact hmem.imp hctrl (.imp hnexp (.imp hbodyLen (.imp hstatus hie)))
  rcases haddr with rfl | rfl | rfl | rfl | rfl <;> simp at h

/-- Settles O37, register by register: the four with fields to write, then those that ignore the write. -/
theorem registerWrites : Obligations.RegisterWrites := by
  intro s v
  refine ⟨?_, ?_, ?_, ?_, fun a ha => ?_⟩
  · exact hostAccess_writeRegister (by simp [registerAddrs]) v s
  · rw [hostAccess_writeRegister (by simp [registerAddrs]), ← BitVec.setWidth_eq_extractLsb' (by decide)]
    rfl
  · rw [hostAccess_writeRegister (by simp [registerAddrs]), ← BitVec.setWidth_eq_extractLsb' (by decide)]
    rfl
  · exact hostAccess_writeRegister (by simp [registerAddrs]) v s
  · have listed : ∀ a ∈ [0x14#20, 0x18, 0x1C, 0x20, 0x24, 0x28, 0x2C, 0x30, 0x34, 0x38, 0x3C],
        a ∈ registerAddrs ∧ 0x14 ≤ a.toNat := by
      simp [registerAddrs]
    obtain ⟨hmem, hfrom⟩ := listed a ha
    rw [hostAccess_writeRegister hmem, writeRegister_ignored (registerAt_not_writable hfrom)]

end Sys2Proof.Machine
end

section
/-! SUPPORT. The interrupt line and what lowers it (R178, R179), a refused access as a turn (R184), and what a step of a
platform does to its list of instances (R182). -/

namespace Sys2Proof.Machine

variable {s : State}

/-! ### The interrupt line -/

theorem irq_eq_true_iff : irq s = true ↔ s.done = true ∧ s.doneIe = true := Bool.and_eq_true_iff

theorem irq_eq_false_of_done (h : s.done = false) : irq s = false := by
  rw [irq, h, Bool.false_and]

theorem irq_eq_false_of_doneIe (h : s.doneIe = false) : irq s = false := by
  rw [irq, h, Bool.and_false]

/-- A write to STATUS may clear DONE and does nothing else (R156). -/
theorem hostAccess_writeStatus (v : Word) (s : State) :
    hostAccess (.write .b32 0x0C v) s = .next (writeStatus v s) :=
  hostAccess_writeRegister (by simp [registerAddrs]) v s

/-- A write to IE loads DONE_IE from bit 0 (R157). -/
theorem hostAccess_writeIe (v : Word) (s : State) :
    hostAccess (.write .b32 0x10 v) s = .next { s with doneIe := v.getLsbD 0 } :=
  hostAccess_writeRegister (by simp [registerAddrs]) v s

/-- Settles O46, event by event: the STATUS write and the accepted START clear DONE, the IE write clears DONE_IE, and
both resets clear the two. -/
theorem irqFollowsDoneAndEnable : Obligations.IrqFollowsDoneAndEnable := by
  refine fun s => ⟨irq_eq_true_iff, fun v t hv h => ?_, fun v t hv h => ?_, fun g x t h => ?_, fun t h => ?_,
    fun g t hp hlen h => ?_⟩
  · rw [hostAccess_writeStatus] at h
    obtain rfl : writeStatus v s = t := Host.Outcome.next.inj h
    exact irq_eq_false_of_done (by simp [writeStatus, hv])
  · rw [hostAccess_writeIe] at h
    obtain rfl : { s with doneIe := v.getLsbD 0 } = t := Host.Outcome.next.inj h
    exact irq_eq_false_of_doneIe hv
  · obtain rfl : softReset s = t := Host.Outcome.next.inj h
    exact irq_eq_false_of_done (softReset_done s)
  · obtain rfl : hardReset s = t := Host.Outcome.next.inj h
    exact irq_eq_false_of_done (hardReset_done s)
  · rw [exec_start_accepted hp hlen] at h
    obtain rfl : acceptStart s = t := Host.Outcome.next.inj h
    exact irq_eq_false_of_done rfl

/-! ### A refused access as a turn -/

/-- Settles O39: the step is the access, and the bus refuses it. -/
theorem refusedAccessHasNoStep : Obligations.RefusedAccessHasNoStep := fun s _ ts hT href =>
  (step_turn hT).trans (hostAccess_refused href (withTurns ts s))

/-! ### Several instances -/

/-- What a step of instance `k` that answers a next platform does: nothing where there is no such instance, otherwise
its state alone is replaced, by the one its own step answers. -/
theorem platformStep_cases {p q : Platform} {k : Nat} (h : platformStep p k = .next q) :
    (p[k]? = none ∧ q = p) ∨ ∃ s t, p[k]? = some s ∧ step s = .next t ∧ q = p.set k t := by
  unfold platformStep at h
  cases hk : p[k]? with
  | none =>
    rw [hk] at h
    exact .inl ⟨rfl, (Host.Outcome.next.inj h).symm⟩
  | some s =>
    simp only [hk] at h
    cases ht : step s with
    | next t =>
      rw [ht] at h
      exact .inr ⟨s, t, rfl, ht, (Host.Outcome.next.inj h).symm⟩
    | fault r | refused r =>
      rw [ht] at h
      cases h

/-- Settles O57, by the two cases of a platform's step: the list stays, or entry `k` alone is set. -/
theorem instancesAreIndependent : Obligations.InstancesAreIndependent := by
  intro p q k j h hjk
  obtain ⟨-, rfl⟩ | ⟨s, t, -, -, rfl⟩ := platformStep_cases h
  · rfl
  · exact List.getElem?_set_ne hjk.symm

end Sys2Proof.Machine
end

section
/-! SUPPORT. Resets and hazards: what survives a START or a hardware reset (R190, R192), what a host access can do to a
run in progress (R195, R196, R204), and what the wrong D0_POLICY does to the samples (R200). -/

namespace Sys2Proof.Machine

variable {s t : State} {a : Addr}

/-! ### The hardware reset -/

/-- Settles O48: the turn is listed, and what it does is `hardReset`. -/
theorem hardwareResetTurn : Obligations.HardwareResetTurn := fun _ _ hT => step_turn hT

/-! ### START (R192) -/

/-- `s` and `t` agree on the configuration, the memory and the model's own fields: what START leaves as it is. -/
structure SameStartInput (s t : State) : Prop where
  nexpCfg    : s.nexpCfg = t.nexpCfg
  bodyLenCfg : s.bodyLenCfg = t.bodyLenCfg
  doneIe     : s.doneIe = t.doneIe
  mem        : s.mem = t.mem
  turns      : s.turns = t.turns
  returned   : s.returned = t.returned
  resets     : s.resets = t.resets
  draws      : s.draws = t.draws

/-- START sets every field it does not leave as it is, but for NFR_L and PHASE, which the size check decides (R151). -/
theorem SameStartInput.clearRun_eq (h : SameStartInput s t) (nfr : BitVec 11) (p : Phase) :
    { clearRun s with nfrL := nfr, phase := p } = { clearRun t with nfrL := nfr, phase := p } := by
  simp only [clearRun, h.nexpCfg, h.bodyLenCfg, h.doneIe, h.mem, h.turns, h.returned, h.resets, h.draws]

theorem SameStartInput.acceptStart_eq (h : SameStartInput s t) : acceptStart s = acceptStart t := by
  rw [acceptStart, acceptStart, h.bodyLenCfg]
  exact h.clearRun_eq _ _

theorem SameStartInput.rejectStart_eq (h : SameStartInput s t) : rejectStart s = rejectStart t :=
  congrArg (fun u => { u with errSize := true, done := true }) (h.clearRun_eq 0 .idle)

/-- Settles O32, by the size check, which both states pass or both fail. -/
theorem startForgetsEarlierRuns : Obligations.StartForgetsEarlierRuns := by
  intro ignored s t hs ht hnexp hlen hie hmem hturns hret hresets hdraws
  have h : SameStartInput s t := ⟨hnexp, hlen, hie, hmem, hturns, hret, hresets, hdraws⟩
  by_cases hsize : s.bodyLenCfg.toNat % 64 = 0
  · rw [exec_start_accepted hs hsize, exec_start_accepted ht (hlen ▸ hsize), h.acceptStart_eq]
  · rw [exec_start_rejected hs hsize, exec_start_rejected ht (hlen ▸ hsize), h.rejectStart_eq]

/-! ### Host accesses during a run -/

/-- A busy block drops a body write of any width (R53, R196). -/
theorem hostWrite_body_busy (h : regionOf a = .body) (hp : s.phase ≠ .idle) (w : Width) (v : Word) :
    hostWrite w a v s = .next s := by
  simp [hostWrite, h, busy, hp]

/-- Settles O43: the bus takes the write to the body, which drops it. -/
theorem busyBodyWritesAreDropped : Obligations.BusyBodyWritesAreDropped := fun s w _ v hr hp hok =>
  (hostAccess_write hok v s).trans (hostWrite_body_busy hr hp w v)

/-- A busy block ignores START (R153). -/
theorem startRun_busy (hp : s.phase ≠ .idle) : startRun s = s := if_pos (busy_iff.2 hp)

/-- During a run a host access without SRST changes the configuration, DONE, DONE_IE and the values returned at most:
a START is ignored and a body write dropped (R195, R196, R204). -/
theorem hostAccess_during_run {x : Access} (hp : s.phase ≠ .idle)
    (hsrst : ∀ v : Word, x = .write .b32 0 v → v.getLsbD 1 = false) (h : hostAccess x s = .next t) :
    t = { s with
          nexpCfg := t.nexpCfg, bodyLenCfg := t.bodyLenCfg, doneIe := t.doneIe, done := t.done
          returned := t.returned } := by
  rcases hostAccess_cases h with ⟨_, _, -, rfl⟩ | ⟨v, hx, hv⟩ | ⟨_, _, v, -, hw⟩
  · rfl
  · rcases exec_ctrlWrite_cases hv with ⟨hbit, -⟩ | ⟨-, -, rfl⟩ | rfl
    · exact absurd ((hsrst v hx).symm.trans hbit) Bool.false_ne_true
    · rw [startRun_busy hp]
    · rfl
  · rcases hw with rfl | ⟨-, -, rfl⟩ | ⟨-, -, rfl⟩ | ⟨-, -, rfl⟩ | ⟨-, -, rfl⟩ | ⟨hidle, -⟩
    · rfl
    · rfl
    · rfl
    · rfl
    · rfl
    · exact absurd hidle hp

/-- Settles O56: the step is the access, in the state with its turn removed. -/
theorem hostCannotDisturbARun : Obligations.HostCannotDisturbARun := by
  intro s t x ts hp hT hsrst h
  rw [step_turn hT] at h
  exact hostAccess_during_run (s := withTurns ts s) hp hsrst h

/-! ### Samples under the wrong policy (R200) -/

/-- One more difference is added to the running sum before it (R121, R129). -/
theorem runningSum_succ (x : Word) {ds : List Word} {k : Nat} (h : k < ds.length) :
    runningSum x ds (k + 1) = runningSum x ds k + ds[k] := by
  rw [runningSum, List.take_add_one, List.getElem?_eq_getElem h, List.foldl_append]
  rfl

/-- The first difference may be added last: addition modulo 2^32 commutes (R128). -/
theorem runningSum_cons (x d : Word) (ds : List Word) (k : Nat) :
    runningSum x (d :: ds) (k + 1) = runningSum x ds k + d := by
  rw [runningSum, List.take_succ_cons, List.foldl_cons, BitVec.add_comm x d, List.foldl_assoc, BitVec.add_comm d,
    runningSum]

/-- Settles O25: both policies agree on the sum of the first k + 1 differences, which is SKIP's sample k with d0 added
and INTEGRATE's sample k with d_k added. -/
theorem policyMismatchShiftsSamples : Obligations.PolicyMismatchShiftsSamples := by
  intro x ds k h
  cases ds with
  | nil => exact absurd h (Nat.not_lt_zero k)
  | cons d ds =>
    show runningSum x (d :: ds) k = runningSum x ds k + d - (d :: ds)[k]
    rw [← runningSum_cons, runningSum_succ x h, BitVec.add_sub_cancel]

end Sys2Proof.Machine
end
